-- ==== Sys2Proof/Word.lean ====
section
/-! DEFINITION. The word types of the block: a binary32 encoding, a command word, a response word. -/

namespace Sys2Proof

/-- One 32-bit datum of the block, an IEEE 754 binary32 encoding where the rules call it an `f32` (R11, R38). -/
abbrev F32 := BitVec 32

/-- One 64-bit command word (R53). -/
abbrev Command := BitVec 64

/-- One 32-bit response word (R58). -/
abbrev Response := BitVec 32

end Sys2Proof
end

