-- ==== Sys2Proof/Syntax.lean ====
section
/-! DEFINITION. The commands of R54, one constructor per row of spec/opcode_table.json, with the operands the row uses. -/

namespace Sys2Proof

/-- The three command ports, which are the block's agents (R6, R7). -/
inductive Port where
  | ctrl
  | audio
  | disp
deriving DecidableEq, Repr

/-- The filter types of R20, in the order of their codes 0 to 7. -/
inductive FilterType where
  | lowPass
  | highPass
  | bandPass
  | notch
  | allPass
  | peak
  | lowShelf
  | highShelf
deriving DecidableEq, Repr

/-- The two delay registers of a band and channel (R28), the `tap` of R151. -/
inductive Tap where
  | z1
  | z2
deriving DecidableEq, Repr

/-- The channel selector of `RESET` (R148). -/
inductive ResetTarget where
  | all
  | channel (c : Nat)
deriving DecidableEq, Repr

/-- One command. Indexes and counts are the unsigned readings of `IDX` and `AUX`, and `DATA` is read as R57 says. An operand
outside its space is part of the syntax, since its command's rule gives it an effect (R39). Fields a row ignores are dropped (R60). -/
inductive Instr where
  | nop
  | setBandType (band code : Nat)
  | setBandFreq (band : Nat) (hz : F32)
  | setBandQ (band : Nat) (q : F32)
  | setBandGain (band : Nat) (db : F32)
  | setGlobalGain (db : F32)
  | setMix (m : F32)
  | setBypass (v : Bool)
  | setAnalyzerEn (v : Bool)
  | setBandCount (n : Int)
  | getStatus
  | clearStatus (mask : BitVec 7)
  | prepare (maxBlock : Nat) (sr : F32)
  | process (numCh numSamples : Nat)
  | reset (target : ResetTarget)
  | writeIn (ch n : Nat) (v : F32)
  | readOut (ch n : Nat)
  | readState (band ch : Nat) (tap : Tap)
  | readCoef (band k : Nat)
  | analyze
  | getSpectrum
deriving DecidableEq, Repr

end Sys2Proof
end

