-- ==== Sys2Proof/WellFormed.lean ====
section
/-! DEFINITION. Which commands have an encoding: every operand fits the field of R53 that carries it. -/

namespace Sys2Proof

/-- The operand fits its field: `IDX` has 8 bits, `AUX` 16, `DATA` 32 (R53). `RESET ch255` has no encoding, since 0xFF in `IDX`
selects all channels (R148), and the channel of `READ_STATE` has 15 bits (R57). -/
def Instr.wf : Instr → Bool
  | .nop => true
  | .setBandType band code => decide (band < 256) && decide (code < 4294967296)
  | .setBandFreq band _ => decide (band < 256)
  | .setBandQ band _ => decide (band < 256)
  | .setBandGain band _ => decide (band < 256)
  | .setGlobalGain _ => true
  | .setMix _ => true
  | .setBypass _ => true
  | .setAnalyzerEn _ => true
  | .setBandCount n => decide (-2147483648 ≤ n) && decide (n < 2147483648)
  | .getStatus => true
  | .clearStatus _ => true
  | .prepare maxBlock _ => decide (maxBlock < 65536)
  | .process numCh numSamples => decide (numCh < 256) && decide (numSamples < 65536)
  | .reset .all => true
  | .reset (.channel c) => decide (c < 255)
  | .writeIn ch n _ => decide (ch < 256) && decide (n < 65536)
  | .readOut ch n => decide (ch < 256) && decide (n < 65536)
  | .readState band ch _ => decide (band < 256) && decide (ch < 32768)
  | .readCoef band k => decide (band < 256) && decide (k < 65536)
  | .analyze => true
  | .getSpectrum => true

end Sys2Proof
end

