-- ==== Sys2Proof/Decode.lean ====
section
/-! DEFINITION. The decoder of R56, total on every 64-bit word, and the encoder, both from the format R53 and the opcode map R54. -/

namespace Sys2Proof

/-! The fields of the format `C` (R53). -/

def opField (w : Command) : BitVec 8 := w.extractLsb' 56 8
def idxField (w : Command) : BitVec 8 := w.extractLsb' 48 8
def auxField (w : Command) : BitVec 16 := w.extractLsb' 32 16
def dataField (w : Command) : BitVec 32 := w.extractLsb' 0 32

/-! The readings of `DATA` (R57). An `f32` is the 32 bits as they stand. -/

def dataBool (d : BitVec 32) : Bool := d.getLsbD 0
def dataInt32 (d : BitVec 32) : Int := d.toInt
def dataMask (d : BitVec 32) : BitVec 7 := d.extractLsb' 8 7

/-- The `READ_STATE` selector's `tap = aux[0]` (R57, R151). -/
def auxTap (a : BitVec 16) : Tap := if a.getLsbD 0 then .z2 else .z1

/-- The `READ_STATE` selector's `channel = aux[15:1]` (R57, R151). -/
def auxChannel (a : BitVec 16) : Nat := (a.extractLsb' 1 15).toNat

/-- `IDX` of `RESET`: a channel, or 0xFF for all (R148). -/
def idxTarget (i : BitVec 8) : ResetTarget := if i = 0xFF#8 then .all else .channel i.toNat

/-- The port that owns an opcode, by `OP[7:4]` (R55). `NOP` has none, it is legal on every port. -/
def ownerOf (op : BitVec 8) : Option Port :=
  match op.extractLsb' 4 4 with
  | 1#4 => some .ctrl
  | 2#4 => some .audio
  | 3#4 => some .disp
  | _ => none

/-- The opcode map of R54: the command a word names, whatever port it stands on. -/
def decodeMap (w : Command) : Option Instr :=
  match opField w with
  | 0x00#8 => some .nop
  | 0x10#8 => some (.setBandType (idxField w).toNat (dataField w).toNat)
  | 0x11#8 => some (.setBandFreq (idxField w).toNat (dataField w))
  | 0x12#8 => some (.setBandQ (idxField w).toNat (dataField w))
  | 0x13#8 => some (.setBandGain (idxField w).toNat (dataField w))
  | 0x14#8 => some (.setGlobalGain (dataField w))
  | 0x15#8 => some (.setMix (dataField w))
  | 0x16#8 => some (.setBypass (dataBool (dataField w)))
  | 0x17#8 => some (.setAnalyzerEn (dataBool (dataField w)))
  | 0x18#8 => some (.setBandCount (dataInt32 (dataField w)))
  | 0x19#8 => some .getStatus
  | 0x1A#8 => some (.clearStatus (dataMask (dataField w)))
  | 0x20#8 => some (.prepare (auxField w).toNat (dataField w))
  | 0x21#8 => some (.process (idxField w).toNat (auxField w).toNat)
  | 0x22#8 => some (.reset (idxTarget (idxField w)))
  | 0x23#8 => some (.writeIn (idxField w).toNat (auxField w).toNat (dataField w))
  | 0x24#8 => some (.readOut (idxField w).toNat (auxField w).toNat)
  | 0x25#8 => some (.readState (idxField w).toNat (auxChannel (auxField w)) (auxTap (auxField w)))
  | 0x26#8 => some (.readCoef (idxField w).toNat (auxField w).toNat)
  | 0x30#8 => some .analyze
  | 0x31#8 => some .getSpectrum
  | _ => none

/-- Why a word is `ILLEGAL` (R56, R59). -/
inductive Illegal where
  /-- The opcode is not in the table of R54. -/
  | reservedOpcode (op : BitVec 8)
  /-- The opcode belongs to another port. -/
  | wrongPort (op : BitVec 8) (port : Port)
deriving DecidableEq, Repr

/-- What a port reads from a word (R56). -/
inductive Decoded where
  | command (i : Instr)
  | illegal (why : Illegal)
deriving DecidableEq, Repr

/-- The opcode is legal on the port: owned by it, or `NOP` (R55). -/
def legalOn (p : Port) (op : BitVec 8) : Bool := op == 0x00#8 || ownerOf op == some p

/-- `Decode(port, w)` of R56. -/
def decode (p : Port) (w : Command) : Decoded :=
  match decodeMap w with
  | none => .illegal (.reservedOpcode (opField w))
  | some i => if legalOn p (opField w) then .command i else .illegal (.wrongPort (opField w) p)

/-- The port a word's opcode belongs to. A word no port owns is given to `CTRL`, where `NOP` is legal and a reserved opcode illegal
as on every port (R55, R59). -/
def homePort (w : Command) : Port := (ownerOf (opField w)).getD .ctrl

/-- A row of spec/opcode_table.json as a command word: the table's bit numbers are those of the 64-bit word (R10, R53). -/
def tableWord (nbits w : Nat) : Command := BitVec.ofNat 64 (w % 2 ^ nbits)

/-- The command the decoder reads from a table word on its own port. -/
def decodeTableWord (nbits w : Nat) : Option Instr :=
  match decode (homePort (tableWord nbits w)) (tableWord nbits w) with
  | .command i => some i
  | .illegal _ => none

/-! The encoder. -/

/-- The opcode of R54. -/
def opcodeOf : Instr → BitVec 8
  | .nop => 0x00#8
  | .setBandType _ _ => 0x10#8
  | .setBandFreq _ _ => 0x11#8
  | .setBandQ _ _ => 0x12#8
  | .setBandGain _ _ => 0x13#8
  | .setGlobalGain _ => 0x14#8
  | .setMix _ => 0x15#8
  | .setBypass _ => 0x16#8
  | .setAnalyzerEn _ => 0x17#8
  | .setBandCount _ => 0x18#8
  | .getStatus => 0x19#8
  | .clearStatus _ => 0x1A#8
  | .prepare _ _ => 0x20#8
  | .process _ _ => 0x21#8
  | .reset _ => 0x22#8
  | .writeIn _ _ _ => 0x23#8
  | .readOut _ _ => 0x24#8
  | .readState _ _ _ => 0x25#8
  | .readCoef _ _ => 0x26#8
  | .analyze => 0x30#8
  | .getSpectrum => 0x31#8

/-- `IDX` of R53, zero where R54 says "ignored" (R60). -/
def idxOf : Instr → BitVec 8
  | .setBandType band _ => BitVec.ofNat 8 band
  | .setBandFreq band _ => BitVec.ofNat 8 band
  | .setBandQ band _ => BitVec.ofNat 8 band
  | .setBandGain band _ => BitVec.ofNat 8 band
  | .process numCh _ => BitVec.ofNat 8 numCh
  | .reset .all => 0xFF#8
  | .reset (.channel c) => BitVec.ofNat 8 c
  | .writeIn ch _ _ => BitVec.ofNat 8 ch
  | .readOut ch _ => BitVec.ofNat 8 ch
  | .readState band _ _ => BitVec.ofNat 8 band
  | .readCoef band _ => BitVec.ofNat 8 band
  | _ => 0#8

def tapBit : Tap → BitVec 1
  | .z1 => 0#1
  | .z2 => 1#1

/-- `AUX` of R53, zero where R54 says "ignored" (R60). -/
def auxOf : Instr → BitVec 16
  | .prepare maxBlock _ => BitVec.ofNat 16 maxBlock
  | .process _ numSamples => BitVec.ofNat 16 numSamples
  | .writeIn _ n _ => BitVec.ofNat 16 n
  | .readOut _ n => BitVec.ofNat 16 n
  | .readState _ ch tap => BitVec.ofNat 15 ch ++ tapBit tap
  | .readCoef _ k => BitVec.ofNat 16 k
  | _ => 0#16

def boolData (v : Bool) : BitVec 32 := if v then 1#32 else 0#32

/-- `DATA` of R53, zero where R54 or R57 says "ignored" (R60). -/
def dataOf : Instr → BitVec 32
  | .setBandType _ code => BitVec.ofNat 32 code
  | .setBandFreq _ hz => hz
  | .setBandQ _ q => q
  | .setBandGain _ db => db
  | .setGlobalGain db => db
  | .setMix m => m
  | .setBypass v => boolData v
  | .setAnalyzerEn v => boolData v
  | .setBandCount n => BitVec.ofInt 32 n
  | .clearStatus mask => 0#17 ++ mask ++ 0#8
  | .prepare _ sr => sr
  | .writeIn _ _ v => v
  | _ => 0#32

/-- The four fields of R53 as one word. -/
def packFields (op idx : BitVec 8) (aux : BitVec 16) (data : BitVec 32) : Command :=
  op ++ idx ++ aux ++ data

/-- The word of a command. -/
def encode (i : Instr) : Command := packFields (opcodeOf i) (idxOf i) (auxOf i) (dataOf i)

/-- Which bits of a word its opcode's command reads: the fields R54 does not mark "ignored", less the bits R57 ignores (R60). -/
def usedBits (op : BitVec 8) : Command :=
  match op with
  | 0x10#8 | 0x11#8 | 0x12#8 | 0x13#8 => 0xFFFF0000FFFFFFFF#64
  | 0x14#8 | 0x15#8 | 0x18#8 => 0xFF000000FFFFFFFF#64
  | 0x16#8 | 0x17#8 => 0xFF00000000000001#64
  | 0x1A#8 => 0xFF00000000007F00#64
  | 0x20#8 => 0xFF00FFFFFFFFFFFF#64
  | 0x21#8 | 0x24#8 | 0x25#8 | 0x26#8 => 0xFFFFFFFF00000000#64
  | 0x22#8 => 0xFFFF000000000000#64
  | 0x23#8 => 0xFFFFFFFFFFFFFFFF#64
  | _ => 0xFF00000000000000#64

end Sys2Proof
end

