-- ==== Sys2Proof/Config.lean ====
section
/-! DEFINITION. What an instance of the block fixes (R8, R9): the OPEN dimensions as plain data, and the free values, constants
with no body about which nothing can be proved. -/

namespace Sys2Proof

/-- The byte order a host bridge picks, the platform parameter `HOST_BYTE_ORDER` of R38. No rule of the block reads it. R38 does not say
which orders a bridge can pick: that they are these two and no other is the model's (DESIGN CHOICE, entry 4). -/
inductive ByteOrder where
  | little
  | big
deriving DecidableEq, Repr

/-- Where a platform places one port and that port's response FIFO in its own address space (R52). R52 gives `PORT_MAP` no shape:
one address for each of the two, as a number, is the model's (DESIGN CHOICE, entry 4). -/
structure PortPlace where
  port : Nat
  fifo : Nat
deriving DecidableEq, Repr

/-- The platform parameter `PORT_MAP` of R52, which no rule of the block reads: the places of the three ports and their response
FIFOs. Its shape is the model's (DESIGN CHOICE, entry 4). -/
structure PortMap where
  ctrl : PortPlace
  audio : PortPlace
  disp : PortPlace
deriving DecidableEq, Repr

/-- The OPEN dimensions of R8, and the two platform parameters of R38 and R52 that no rule reads. -/
structure Dims where
  /-- `MAX_CHANNELS`, 1 to 255. -/
  maxChannels : Nat
  /-- `MAX_BLOCK_CAP`, 1 to 65535. -/
  maxBlockCap : Nat
  /-- `N`, the analysis window length, a power of two from 4 to 65536. -/
  window : Nat
  /-- `RESP_FIFO_DEPTH`, at least `2 + N/2`. -/
  respDepth : Nat
  hostByteOrder : ByteOrder
  portMap : PortMap
deriving DecidableEq, Repr

/-- The ranges R8 gives the OPEN dimensions. -/
abbrev Dims.wf (d : Dims) : Prop :=
  (1 ≤ d.maxChannels ∧ d.maxChannels ≤ 255) ∧
  (1 ≤ d.maxBlockCap ∧ d.maxBlockCap ≤ 65535) ∧
  (∃ k ∈ List.range 17, 2 ≤ k ∧ d.window = 2 ^ k) ∧
  2 + d.window / 2 ≤ d.respDepth

/-- The reference values of R8. R8 gives `RESP_FIFO_DEPTH` only its lower bound, which is taken here, and the rules give the two
platform parameters no value (DESIGN CHOICE, entry 4). -/
def Dims.reference : Dims :=
  { maxChannels := 2, maxBlockCap := 4096, window := 2048, respDepth := 1026,
    hostByteOrder := .little, portMap := ⟨⟨0, 0⟩, ⟨0, 0⟩, ⟨0, 0⟩⟩ }

/-- The operations of R11 that can answer a NaN. -/
inductive FloatOp where
  | add
  | sub
  | mul
  | div
  | sqrt
deriving DecidableEq, Repr

namespace Config

/-- U3: the sign and payload of a NaN result, which R11 leaves open. A function of the operation and its operands, since R85, R97
and R99 take equal operands to equal results (DEDUCED, entry 5). -/
opaque freeNaN : FloatOp → F32 → F32 → F32

/-- U4: the configuration functions of R86 before its properties are imposed (Machine/Transcend.lean). -/
opaque freeSin : F32 → F32

/-- U4, see `freeSin`. -/
opaque freeCos : F32 → F32

/-- U4, see `freeSin`. -/
opaque freePow10 : F32 → F32

/-- U4, see `freeSin`. -/
opaque freeLog10 : F32 → F32

/-- U5: bin `k` of `SpectrumFn` on a window, before the properties of R121 are imposed (Machine/Transcend.lean). -/
opaque freeBin : List F32 → Nat → F32

/-- U7: which of several ports with a step moves next, the `n`-th free choice of a run. -/
opaque freeTurn : Nat → Nat

/-- U7: which of the fields not yet copied a snapshot step copies, the `n`-th free choice of a run. -/
opaque freePick : Nat → Nat

/-- U6: whether the environment drops an analysis frame, the `n`-th free choice of a run. -/
opaque freeDrop : Nat → Bool

/-- U2: what a word of `DRY` holds before a block writes it. -/
opaque freeDry : Nat → F32

/-- U2: what a word of `SPEC` holds before a publication writes it. -/
opaque freeSpec : Nat → F32

end Config

end Sys2Proof
end

