-- ==== Sys2Proof/Machine/Const.lean ====
section
/-! DEFINITION. The fixed constants of the block, each with the rule that gives its encoding. -/

namespace Sys2Proof.Machine

/-- `MAX_BANDS` (R8). -/
def maxBands : Nat := 10

/-- `ANALYZER_CHANNEL` (R8, R116). -/
def analyzerChannel : Nat := 0

def posZero : F32 := 0x00000000#32
def negZero : F32 := 0x80000000#32
def posInf : F32 := 0x7F800000#32
def negInf : F32 := 0xFF800000#32
def fHalf : F32 := 0x3F000000#32
def fOne : F32 := 0x3F800000#32
def fTwo : F32 := 0x40000000#32
def fNegTwo : F32 := 0xC0000000#32
def fTwenty : F32 := 0x41A00000#32
def fForty : F32 := 0x42200000#32

/-- `FLUSH_TH` (R8, R93). -/
def flushTh : F32 := 0x0DA24260#32

/-- `DB_FLOOR` (R8, R121). -/
def dbFloor : F32 := 0xC2C80000#32

/-- `NYQ_FACTOR` (R8, R71). -/
def nyqFactor : F32 := 0x3EFFBE77#32

/-- `Q_CALC_MIN` (R8, R72). -/
def qCalcMin : F32 := 0x3C23D70A#32

/-- `TWO_PI32` (R73). -/
def twoPi32 : F32 := 0x40C90FDB#32

/-- `TWO_PI32/2`, the end of the interval of R86 item 2. -/
def pi32 : F32 := 0x40490FDB#32

/-- The greatest binary32 value whose power of ten lies below `2^-126`, the least normal value. A result that small is what IEEE 754
calls an underflow, which is how R86 item 3 is read (DEDUCED, entry 17). `Laws/Transcend.lean` proves that it is that value. -/
def pow10Tiny : F32 := 0xC217B819#32

/-! The ranges of the parameter store (R21). -/

def freqMin : F32 := 0x41A00000#32
def freqMax : F32 := 0x469C4000#32
def qMin : F32 := 0x3DCCCCCD#32
def qMax : F32 := 0x41200000#32
def gainMin : F32 := 0xC1C00000#32
def gainMax : F32 := 0x41C00000#32

/-- `DEF_FREQ[i]` (R32). -/
def defFreq : Vector F32 10 :=
  #v[0x41A00000#32, 0x422C5AD3#32, 0x42B9A9DF#32, 0x43480000#32, 0x43D77187#32,
     0x44681456#32, 0x44FA0000#32, 0x4586A6F4#32, 0x46110CB6#32, 0x469C4000#32]

end Sys2Proof.Machine
end

