-- ==== Sys2Proof/Machine/State.lean ====
section
/-! DEFINITION. Every piece of state the spec gives the block (R16 to R37), as plain data, with its power-on value (R32, R172). -/

namespace Sys2Proof.Machine

/-! ## The parameter store and its snapshot -/

/-- The 45 fields of the parameter store (R20, R22). The snapshot registers have the same fields (R25). -/
structure Params where
  type : Vector FilterType 10
  freq : Vector F32 10
  q : Vector F32 10
  gain : Vector F32 10
  globalGain : F32
  mix : F32
  bypass : Bool
  analyzerEn : Bool
  bandCount : Fin 11
deriving DecidableEq, Repr

/-- The name of one field of the parameter store, the unit of a snapshot step (R25, R41). -/
inductive PField where
  | type (i : Fin 10)
  | freq (i : Fin 10)
  | q (i : Fin 10)
  | gain (i : Fin 10)
  | globalGain
  | mix
  | bypass
  | analyzerEn
  | bandCount
deriving DecidableEq, Repr

/-- The power-on parameter store (R20, R22, R32). -/
def Params.powerOn : Params :=
  { type := Vector.replicate 10 .peak, freq := defFreq, q := Vector.replicate 10 fOne, gain := Vector.replicate 10 posZero,
    globalGain := posZero, mix := fOne, bypass := false, analyzerEn := true, bandCount := 10 }

/-- What the snapshot registers hold at power-on: R25 leaves it unspecified (DESIGN CHOICE, entry 2). -/
def Params.zero : Params :=
  { type := Vector.replicate 10 .lowPass, freq := Vector.replicate 10 posZero, q := Vector.replicate 10 posZero,
    gain := Vector.replicate 10 posZero, globalGain := posZero, mix := posZero, bypass := false, analyzerEn := false,
    bandCount := 0 }

/-! ## Memory spaces -/

/-- A word-indexed space: pairs of an index and a word, indexes strictly rising, no word equal to the space's background. The block
has no bytes (R38), so the unit is the 32-bit word. -/
abbrev Memory := List (Nat × F32)

/-- The five memory spaces (R34). -/
inductive Space where
  | inp
  | out
  | dry
  | cap
  | spec
deriving DecidableEq, Repr

/-- What an index that a space does not list reads as: `+0.0` in `CAP` (R37), no value elsewhere (R36, R32). -/
def Space.background : Space → Option F32
  | .cap => some posZero
  | _ => none

/-- The contents of the five spaces (R34). -/
structure Mems where
  inp : Memory
  out : Memory
  dry : Memory
  cap : Memory
  spec : Memory
deriving DecidableEq, Repr

/-! ## Engine registers and band state -/

/-- The engine registers of R24, R26 and R29. -/
structure Engine where
  /-- `E.PREPARED`. -/
  prepared : Bool
  /-- `E.SR`. -/
  sr : F32
  /-- `E.MAXBLK`. -/
  maxBlk : Nat
  /-- `E.ACTIVE_COUNT`. -/
  activeCount : Fin 11
  /-- `E.WP`. -/
  wp : Nat
  /-- `E.SNAP_VALID`. -/
  snapValid : Bool
  /-- `E.SNAP_SEQ`. -/
  snapSeq : BitVec 32
deriving DecidableEq, Repr

/-- The five coefficient registers of a band, normalized so that `a0 = 1` (R27). -/
structure Coef where
  b0 : F32
  b1 : F32
  b2 : F32
  a1 : F32
  a2 : F32
deriving DecidableEq, Repr

/-- `IDENT` (R27, R70). -/
def Coef.ident : Coef := ⟨fOne, posZero, posZero, posZero, posZero⟩

/-- The inputs a band's coefficients were computed from, `USED[i]` (R27). -/
structure BandKey where
  type : FilterType
  freq : F32
  q : F32
  gain : F32
  sr : F32
deriving DecidableEq, Repr

/-- The delay registers of one band and channel (R28). -/
structure Taps where
  z1 : F32
  z2 : F32
deriving DecidableEq, Repr

/-- The band state of R27 and R28. `fs` holds the delay registers of every band and channel as a memory with background `+0.0`. -/
structure Bands where
  /-- `COEF[i]`. -/
  coef : Vector Coef 10
  /-- `COEF_VALID[i]`. -/
  valid : Vector Bool 10
  /-- `USED[i]`. -/
  used : Vector BandKey 10
  /-- `FS[i][c]`, by `tapIx`. -/
  fs : Memory
deriving DecidableEq, Repr

/-- The power-on band state (R27, R28, R32). `USED` is unspecified there (DESIGN CHOICE, entry 2). -/
def Bands.powerOn : Bands :=
  { coef := Vector.replicate 10 Coef.ident, valid := Vector.replicate 10 false,
    used := Vector.replicate 10 ⟨.lowPass, posZero, posZero, posZero, posZero⟩, fs := [] }

/-! ## Ports, the block in progress, the environment -/

/-- One port: the commands that have arrived and not yet been executed (R6, R19) and its response FIFO (R31), oldest first. -/
structure PortState where
  stream : List Command
  resp : List Response
deriving DecidableEq, Repr

structure Ports where
  ctrl : PortState
  audio : PortState
  disp : PortState
deriving DecidableEq, Repr

/-- Where an accepted `PROCESS` stands among its atomic steps (R41). -/
inductive Phase where
  /-- The fields still to be copied. When none is left the compute step is next. -/
  | snapshot (todo : List PField)
  /-- Samples `0` to `n - 1` are captured, sample `n` is next. -/
  | capture (n : Nat)
deriving DecidableEq, Repr

/-- A `PROCESS` between its atomic steps (R33, R41). -/
structure Job where
  numCh : Nat
  numSamples : Nat
  phase : Phase
deriving DecidableEq, Repr

/-- One event of an interleaving (R7, R43): a port's turn to take its next atomic step, or an action of the host, which supplies
command words and drains response words. -/
inductive Event where
  | turn (p : Port)
  | submit (p : Port) (w : Command)
  | drain (p : Port) (n : Nat)
deriving DecidableEq, Repr

/-- The model's own fields: the environment's choices still to come. A choice past the end of its list is a free value of Config,
applied to the counter `drawn` (U6, U7, entry 3). -/
structure Env where
  agenda : List Event
  drops : List Bool
  picks : List Nat
  drawn : Nat
deriving DecidableEq, Repr

/-- The whole state. `dims` never changes: it says which instance of the block this is (R9). -/
structure State where
  dims : Dims
  P : Params
  S : Params
  E : Engine
  bands : Bands
  /-- The sticky condition bits `EV`, bit `k - 1` for condition `k` (R30, R159). -/
  ev : BitVec 7
  mem : Mems
  ports : Ports
  /-- The accepted `PROCESS` that is between its steps, if any. -/
  job : Option Job
  env : Env
deriving DecidableEq, Repr

/-! ## Conditions, faults, refusals -/

/-- The conditions of R158, in the order of their codes 1 to 7. A condition is no fault: it sets a bit and the machine goes on. -/
inductive Cond where
  | invalidParam
  | unprepared
  | rateChange
  | analyzerUnderrun
  | blockRejected
  | illegalCmd
  | analyzeDropped
deriving DecidableEq, Repr

/-- The model faults of R36 and R165, reads of a sample word nothing has written since power-on. Both are safe: the model stops
where the block returns an unspecified word. -/
inductive Fault where
  /-- Raised by `PROCESS` for the first `IN` word of its block that no `WRITE_IN` has written. Safe. -/
  | unwrittenIn (ch n : Nat)
  /-- Raised by `READ_OUT` for an `OUT` word no `PROCESS` has written, and by a capture step for one. Safe. -/
  | unwrittenOut (ch n : Nat)
deriving DecidableEq, Repr

inductive Refusal where
  /-- Raised by an arm of `exec` that has no meaning yet. No arm does. Safe. -/
  | notModelled (mnemonic : String)
deriving DecidableEq, Repr

/-! ## Power-on reset -/

/-- The power-on state of an instance of the block (R32, R172). -/
def State.powerOn (d : Dims) : State :=
  { dims := d
    P := Params.powerOn
    S := Params.zero
    E := { prepared := false, sr := posZero, maxBlk := 0, activeCount := 0, wp := 0, snapValid := false, snapSeq := 0#32 }
    bands := Bands.powerOn
    ev := 0#7
    mem := { inp := [], out := [], dry := [], cap := [], spec := [] }
    ports := { ctrl := ⟨[], []⟩, audio := ⟨[], []⟩, disp := ⟨[], []⟩ }
    job := none
    env := { agenda := [], drops := [], picks := [], drawn := 0 } }

/-- The machine right after power-on reset, for the reference dimensions of R8. -/
def State.reset : State := State.powerOn Dims.reference

end Sys2Proof.Machine
end

