-- ==== Sys2Proof/Machine/Flags.lean ====
section
/-! DEFINITION. The condition bits `EV` and the `STATUS` word (R30, R158, R159). -/

namespace Sys2Proof.Machine

/-- The bit of `EV` that belongs to a condition: `EV[k-1]` for code `k` (R159). -/
def condIndex : Cond → Nat
  | .invalidParam => 0
  | .unprepared => 1
  | .rateChange => 2
  | .analyzerUnderrun => 3
  | .blockRejected => 4
  | .illegalCmd => 5
  | .analyzeDropped => 6

/-- `EV` with only a condition's bit set. -/
def condMask (c : Cond) : BitVec 7 := 1#7 <<< condIndex c

/-- Set a condition's bit, the others kept (R159). -/
def setCond (ev : BitVec 7) (c : Cond) : BitVec 7 := ev ||| condMask c

/-- Clear the bits a mask selects (R140). -/
def clearConds (ev mask : BitVec 7) : BitVec 7 := ev &&& ~~~mask

/-- `zext_32(EV) << 8 | E.SNAP_VALID << 1 | E.PREPARED` (R139, layout R30). -/
def statusWord (ev : BitVec 7) (snapValid prepared : Bool) : Response :=
  (ev.setWidth 32 <<< 8) ||| ((BitVec.ofBool snapValid).setWidth 32 <<< 1) ||| (BitVec.ofBool prepared).setWidth 32

end Sys2Proof.Machine
end

