-- ==== Sys2Proof/Machine/Ops.lean ====
section
/-! DEFINITION. The shared operations over memories, registers, ports and choices. Every meaning reads and writes the state through
them. -/

namespace Sys2Proof.Machine

/-! ## A memory with a background -/

/-- The canonical form: indexes strictly rising, and no word equal to what an unlisted index reads as. -/
abbrev Memory.wf (bg : Option F32) (m : Memory) : Prop :=
  m.Pairwise (fun a b => a.1 < b.1) ∧ ∀ e ∈ m, some e.2 ≠ bg

/-- The word at an index, if it has a value. -/
def Memory.read (bg : Option F32) (m : Memory) (k : Nat) : Option F32 :=
  match m with
  | [] => bg
  | e :: rest => if e.1 = k then some e.2 else Memory.read bg rest k

/-- Remove an index. -/
def Memory.erase (m : Memory) (k : Nat) : Memory := m.filter (fun e => e.1 != k)

/-- Put a word at an index, in order. -/
def Memory.insert (m : Memory) (k : Nat) (v : F32) : Memory :=
  match m with
  | [] => [(k, v)]
  | e :: rest =>
    if k < e.1 then (k, v) :: e :: rest
    else if k = e.1 then (k, v) :: rest
    else e :: Memory.insert rest k v

/-- Store a word, keeping the canonical form. -/
def Memory.write (bg : Option F32) (m : Memory) (k : Nat) (v : F32) : Memory :=
  if bg = some v then m.erase k else m.insert k v

/-- Store the words of a list at `k`, `k + 1`, ... -/
def Memory.writeRow (bg : Option F32) (m : Memory) (k : Nat) : List F32 → Memory
  | [] => m
  | v :: vs => Memory.writeRow bg (m.write bg k v) (k + 1) vs

/-! ## Indexes -/

/-- The index of `[c][n]` in `IN`, `OUT` and `DRY`, which are planar (R35). -/
def sampleIx (c n : Nat) : Nat := c * 65536 + n

def tapNum : Tap → Nat
  | .z1 => 0
  | .z2 => 1

/-- The index of a delay register of `FS[i][c]` (R28). -/
def tapIx (i c : Nat) (t : Tap) : Nat := (i * 256 + c) * 2 + tapNum t

/-- The band and the channel a delay-register index belongs to. -/
def tapBand (k : Nat) : Nat := k / 512
def tapChannel (k : Nat) : Nat := k / 2 % 256

/-! ## State updates, one per part -/

def State.withP (s : State) (x : Params) : State := { s with P := x }
def State.withS (s : State) (x : Params) : State := { s with S := x }
def State.withE (s : State) (x : Engine) : State := { s with E := x }
def State.withBands (s : State) (x : Bands) : State := { s with bands := x }
def State.withEv (s : State) (x : BitVec 7) : State := { s with ev := x }
def State.withMem (s : State) (x : Mems) : State := { s with mem := x }
def State.withPorts (s : State) (x : Ports) : State := { s with ports := x }
def State.withJob (s : State) (x : Option Job) : State := { s with job := x }
def State.withEnv (s : State) (x : Env) : State := { s with env := x }

/-! ## Memory spaces -/

def Mems.get (m : Mems) : Space → Memory
  | .inp => m.inp
  | .out => m.out
  | .dry => m.dry
  | .cap => m.cap
  | .spec => m.spec

def Mems.set (m : Mems) (sp : Space) (x : Memory) : Mems :=
  match sp with
  | .inp => { m with inp := x }
  | .out => { m with out := x }
  | .dry => { m with dry := x }
  | .cap => { m with cap := x }
  | .spec => { m with spec := x }

/-- `MemRead(space, index)`, `none` for a word without a value (R12, R36). -/
def memRead (s : State) (sp : Space) (k : Nat) : Option F32 := (s.mem.get sp).read sp.background k

/-- `MemWrite(space, index, v)` (R12). -/
def memWrite (sp : Space) (k : Nat) (v : F32) (s : State) : State :=
  s.withMem (s.mem.set sp ((s.mem.get sp).write sp.background k v))

/-- `MemWrite` of consecutive words. -/
def memWriteRow (sp : Space) (k : Nat) (vs : List F32) (s : State) : State :=
  s.withMem (s.mem.set sp ((s.mem.get sp).writeRow sp.background k vs))

/-! ## Band state -/

/-- A delay register of `FS[i][c]`. -/
def fsRead (s : State) (i c : Nat) (t : Tap) : F32 := (s.bands.fs.read (some posZero) (tapIx i c t)).getD posZero

/-- `FS[i][c]`. -/
def fsGet (fs : Memory) (i c : Nat) : Taps :=
  ⟨(fs.read (some posZero) (tapIx i c .z1)).getD posZero, (fs.read (some posZero) (tapIx i c .z2)).getD posZero⟩

/-- `FS[i][c] <- z`. -/
def fsSet (fs : Memory) (i c : Nat) (z : Taps) : Memory :=
  (fs.write (some posZero) (tapIx i c .z1) z.z1).write (some posZero) (tapIx i c .z2) z.z2

/-- `FS[i][c] <- (+0.0, +0.0)` for the bands and channels a test selects. -/
def fsZero (fs : Memory) (sel : Nat → Nat → Bool) : Memory := fs.filter (fun e => !sel (tapBand e.1) (tapChannel e.1))

/-! ## Conditions and responses -/

/-- `raise Cond(k)`: the condition's bit is set and execution goes on. Nothing is saved, no mode changes and nothing traps, which is
all of the block's exception model (R159, R163, R164). -/
def State.raise (s : State) (c : Cond) : State := s.withEv (setCond s.ev c)

/-- `if b: raise Cond(k)`. -/
def State.raiseIf (s : State) (b : Bool) (c : Cond) : State := if b then s.raise c else s

def Ports.get (x : Ports) : Port → PortState
  | .ctrl => x.ctrl
  | .audio => x.audio
  | .disp => x.disp

def Ports.set (x : Ports) (p : Port) (y : PortState) : Ports :=
  match p with
  | .ctrl => { x with ctrl := y }
  | .audio => { x with audio := y }
  | .disp => { x with disp := y }

/-- `respond(w)` for the words of a list, in order, on a port's response FIFO (R12, R31). -/
def State.respond (s : State) (p : Port) (ws : List Response) : State :=
  s.withPorts (s.ports.set p { s.ports.get p with resp := (s.ports.get p).resp ++ ws })

/-- A port's command stream replaced. -/
def State.setStream (s : State) (p : Port) (ws : List Command) : State :=
  s.withPorts (s.ports.set p { s.ports.get p with stream := ws })

/-- A port's response FIFO replaced. -/
def State.setResp (s : State) (p : Port) (ws : List Response) : State :=
  s.withPorts (s.ports.set p { s.ports.get p with resp := ws })

/-! ## Parameter fields -/

/-- Copy one field of one parameter set into another (R25, R41). -/
def copyField (src dst : Params) : PField → Params
  | .type i => { dst with type := dst.type.set i src.type[i] }
  | .freq i => { dst with freq := dst.freq.set i src.freq[i] }
  | .q i => { dst with q := dst.q.set i src.q[i] }
  | .gain i => { dst with gain := dst.gain.set i src.gain[i] }
  | .globalGain => { dst with globalGain := src.globalGain }
  | .mix => { dst with mix := src.mix }
  | .bypass => { dst with bypass := src.bypass }
  | .analyzerEn => { dst with analyzerEn := src.analyzerEn }
  | .bandCount => { dst with bandCount := src.bandCount }

/-- The 45 fields of R25. -/
def allFields : List PField :=
  (List.finRange 10).map .type ++ (List.finRange 10).map .freq ++ (List.finRange 10).map .q ++ (List.finRange 10).map .gain ++
    [.globalGain, .mix, .bypass, .analyzerEn, .bandCount]

/-! ## Free choices -/

/-- The next snapshot pick, and the state with it taken (U7). -/
def nextPick (s : State) : Nat :=
  match s.env.picks with
  | k :: _ => k
  | [] => Config.freePick s.env.drawn

def State.takePick (s : State) : State :=
  match s.env.picks with
  | _ :: ks => s.withEnv { s.env with picks := ks }
  | [] => s.withEnv { s.env with drawn := s.env.drawn + 1 }

/-- `DROP()`, the environment's choice (R154), and the state with it taken (U6). -/
def nextDrop (s : State) : Bool :=
  match s.env.drops with
  | b :: _ => b
  | [] => Config.freeDrop s.env.drawn

def State.takeDrop (s : State) : State :=
  match s.env.drops with
  | _ :: bs => s.withEnv { s.env with drops := bs }
  | [] => s.withEnv { s.env with drawn := s.env.drawn + 1 }

end Sys2Proof.Machine
end

