-- ==== Sys2Proof/Machine/Float.lean ====
section
/-! DEFINITION. The binary32 operations of R11 and R13: round to nearest, ties to even, subnormals kept, every operation rounded on
its own. A finite value is a whole number of units of `2^-149`, so each operation computes exactly and rounds once. -/

namespace Sys2Proof.Machine

/-! ## Fields and classes -/

def fSign (a : F32) : Bool := a.msb
def fExp (a : F32) : Nat := a.toNat / 8388608 % 256
def fFrac (a : F32) : Nat := a.toNat % 8388608

def fIsNaN (a : F32) : Bool := fExp a == 255 && fFrac a != 0
def fIsInf (a : F32) : Bool := fExp a == 255 && fFrac a == 0
def fIsFinite (a : F32) : Bool := fExp a != 255
def fIsZero (a : F32) : Bool := a == posZero || a == negZero

/-- `fneg` flips the sign bit (R11). -/
def fneg (a : F32) : F32 := a ^^^ 0x80000000#32

/-- `fabs` clears the sign bit (R11). -/
def fabs (a : F32) : F32 := a &&& 0x7FFFFFFF#32

/-- The magnitude of a finite value in units of `2^-149`. -/
def fMagUnits (a : F32) : Nat := if fExp a = 0 then fFrac a else (fFrac a + 8388608) * 2 ^ (fExp a - 1)

/-- A finite value in units of `2^-149`. -/
def fUnits (a : F32) : Int := if fSign a then -(fMagUnits a : Int) else (fMagUnits a : Int)

/-! ## Rounding -/

/-- The integer nearest `n / d`, ties to even. -/
def divNearestEven (n d : Nat) : Nat :=
  if 2 * (n % d) < d then n / d
  else if d < 2 * (n % d) then n / d + 1
  else n / d + n / d % 2

/-- The encoding, sign bit clear, of the binary32 value nearest `n / d` units, ties to even, infinity on overflow. Its last place is
worth `2^k` units. -/
def roundMag (n d : Nat) : Nat :=
  let k := Nat.log2 (n / d) - 23
  min (k * 8388608 + divNearestEven n (d * 2 ^ k)) 0x7F800000

/-- A rounded magnitude with its sign. -/
def fRound (neg : Bool) (n d : Nat) : F32 :=
  BitVec.ofNat 32 (roundMag n d) ||| (if neg then negZero else posZero)

/-- The whole part of a square root, by its bits from the top. -/
def isqrtFrom (n : Nat) : Nat → Nat → Nat
  | 0, r => r
  | k + 1, r => isqrtFrom n k (if (r + 2 ^ k) * (r + 2 ^ k) ≤ n then r + 2 ^ k else r)

def isqrt (n : Nat) : Nat := isqrtFrom n (Nat.log2 n / 2 + 1) 0

/-! ## Operations, `none` where the result is a NaN -/

def fAddCore (a b : F32) : Option F32 :=
  if fIsNaN a || fIsNaN b then none
  else if fIsInf a then (if fIsInf b && fSign a != fSign b then none else some a)
  else if fIsInf b then some b
  else
    let z := fUnits a + fUnits b
    if z = 0 then some (if fSign a && fSign b then negZero else posZero)
    else some (fRound (decide (z < 0)) z.natAbs 1)

def fMulCore (a b : F32) : Option F32 :=
  let neg := fSign a != fSign b
  if fIsNaN a || fIsNaN b then none
  else if fIsInf a || fIsInf b then
    (if fIsZero a || fIsZero b then none else some (if neg then negInf else posInf))
  else some (fRound neg (fMagUnits a * fMagUnits b) (2 ^ 149))

def fDivCore (a b : F32) : Option F32 :=
  let neg := fSign a != fSign b
  if fIsNaN a || fIsNaN b then none
  else if fIsInf a then (if fIsInf b then none else some (if neg then negInf else posInf))
  else if fIsInf b then some (if neg then negZero else posZero)
  else if fIsZero b then (if fIsZero a then none else some (if neg then negInf else posInf))
  else some (fRound neg (fMagUnits a * 2 ^ 149) (fMagUnits b))

/-- The root of `u` units is `sqrt (u * 2^149)` units. With `r` the whole part of twice that, the result rounds `r / 2` when the root
is exact and the middle of `r / 2` and `(r + 1) / 2` when it is not: no rounding boundary lies strictly between those two. -/
def fSqrtCore (a : F32) : Option F32 :=
  if fIsNaN a then none
  else if fIsZero a then some a
  else if fSign a then none
  else if fIsInf a then some a
  else
    let n := fMagUnits a * 2 ^ 151
    let r := isqrt n
    some (fRound false (2 * r + (if r * r = n then 0 else 1)) 4)

/-- A NaN result: any quiet NaN, its sign and payload a free value (R11, U3). -/
def quietNaN (op : FloatOp) (a b : F32) : F32 := Config.freeNaN op a b ||| 0x7FC00000#32

def fadd (a b : F32) : F32 := (fAddCore a b).getD (quietNaN .add a b)
def fsub (a b : F32) : F32 := (fAddCore a (fneg b)).getD (quietNaN .sub a b)
def fmul (a b : F32) : F32 := (fMulCore a b).getD (quietNaN .mul a b)
def fdiv (a b : F32) : F32 := (fDivCore a b).getD (quietNaN .div a b)
def fsqrt (a : F32) : F32 := (fSqrtCore a).getD (quietNaN .sqrt a a)

/-! ## Comparisons -/

/-- The place of a non-NaN value in the order of the extended reals: its encoding read as sign and magnitude. -/
def fOrd (a : F32) : Int := if fSign a then -(a.toNat % 2147483648 : Nat) else (a.toNat % 2147483648 : Nat)

/-- The ordered comparison `<`, false when either operand is a NaN (R11). -/
def flt (a b : F32) : Bool := !fIsNaN a && !fIsNaN b && decide (fOrd a < fOrd b)

/-- `≤` of the ranges R21 and R86, false when either operand is a NaN. -/
def fle (a b : F32) : Bool := !fIsNaN a && !fIsNaN b && decide (fOrd a ≤ fOrd b)

/-- The IEEE equality `==` of R13. -/
def feq (a b : F32) : Bool := !fIsNaN a && !fIsNaN b && decide (fOrd a = fOrd b)

/-- `fmin(a,b)` is `a` if `a < b` else `b` (R11). -/
def fmin (a b : F32) : F32 := if flt a b then a else b

/-- `fmax(a,b)` is `a` if `a > b` else `b` (R11). -/
def fmax (a b : F32) : F32 := if flt b a then a else b

end Sys2Proof.Machine
end

