-- ==== Sys2Proof/Machine/Transcend.lean ====
section
/-! DEFINITION. The configuration functions of R86 and R121. Each is a free value of Config on which the properties of its rule, and
nothing else, are imposed: a value that breaks a property is replaced by one that keeps it, so the functions reached are exactly those
the rule admits. -/

namespace Sys2Proof.Machine

/-- In `[-1.0, 1.0]` (R86 item 2). -/
def inUnit (v : F32) : Bool := fle 0xBF800000#32 v && fle v fOne

/-- `Sin32`: on a finite `x` in `[-1, 1]`, and not below zero on `[0, TWO_PI32/2]` (R86 item 2). `TWO_PI32/2` lies above π, so the
correctly rounded sine is below zero there, although R86 says that a correctly rounded function has each property. Item 2 is followed
as it is written, at that end too (DESIGN CHOICE, entry 16). -/
def sin32 (x : F32) : F32 :=
  let v := Config.freeSin x
  if fIsFinite x && !(inUnit v && (!(fle posZero x && fle x pi32) || fle posZero v)) then posZero else v

/-- `Cos32`: on a finite `x` in `[-1, 1]` (R86 item 2). -/
def cos32 (x : F32) : F32 :=
  let v := Config.freeCos x
  if fIsFinite x && !inUnit v then posZero else v

/-- `10^x` underflows (R86 item 3), read as IEEE 754 does: it lies below the least normal value (DEDUCED, entry 17). -/
def pow10Underflows (x : F32) : Bool := fle x pow10Tiny

/-- A value `Pow10_32` may have at a finite `x`: one above zero, or `+0.0` on underflow (R86 item 3). -/
def pow10Allowed (x v : F32) : Bool := flt posZero v || (v == posZero && pow10Underflows x)

/-- `Pow10_32`: 1.0 at `±0.0` (R86 item 1), `+inf` at `+inf`, `+0.0` at `-inf`, and on the other finite values above zero, or `+0.0`
on underflow (R86 item 3). -/
def pow10 (x : F32) : F32 :=
  let v := Config.freePow10 x
  if fIsZero x then fOne
  else if x = posInf then posInf
  else if x = negInf then posZero
  else if fIsFinite x && !pow10Allowed x v then fOne
  else v

/-- `Log10_32`: `+0.0` at 1.0, `-inf` at `+0.0`, a NaN below zero (R86 item 4). -/
def log10 (x : F32) : F32 :=
  let v := Config.freeLog10 x
  if x = fOne then posZero
  else if x = posZero then negInf
  else if flt x posZero then (if fIsNaN v then v else v ||| 0x7FC00000#32)
  else v

/-- Bin `k` of `SpectrumFn(X)`: the floor for an all-zero window, a finite value not below the floor for a finite one, any value for
a window that holds an infinity or a NaN (R121). -/
def spectrumBin (X : List F32) (k : Nat) : F32 :=
  let v := Config.freeBin X k
  if X.all fIsZero then dbFloor
  else if X.all fIsFinite && !(fIsFinite v && fle dbFloor v) then dbFloor
  else v

/-- `SpectrumFn`, from `N` values to `N/2` (R120, R121). -/
def spectrumFn (X : List F32) : List F32 := (List.range (X.length / 2)).map (spectrumBin X)

end Sys2Proof.Machine
end

