-- ==== Sys2Proof/Machine/Operands.lean ====
section
/-! DEFINITION. The operand checks and conversions the command rules share: index ranges, clamps, codes (R12, R21, R57, R128). -/

namespace Sys2Proof.Machine

/-- `clamp(v, lo, hi)` on `f32` (R12). `-0.0` and a NaN pass unchanged where neither comparison holds. -/
def clampF (v lo hi : F32) : F32 := if flt v lo then lo else if flt hi v then hi else v

/-- `clamp` on unsigned integers (R12). -/
def clampNat (v lo hi : Nat) : Nat := if v < lo then lo else if hi < v then hi else v

/-- `clamp(v, 0, 10)` of a band count (R138). -/
def clampCount (v : Int) : Fin 11 :=
  if v < 0 then 0
  else if h : v ≤ 10 then ⟨v.toNat, by omega⟩
  else 10

/-- The band slot of an index, `none` when `idx >= MAX_BANDS` (R128). -/
def bandSlot (idx : Nat) : Option (Fin 10) := if h : idx < 10 then some ⟨idx, h⟩ else none

/-- The FilterType of a code, `none` for 8 and above (R20, R57). -/
def filterTypeOf (code : Nat) : Option FilterType :=
  match code with
  | 0 => some .lowPass
  | 1 => some .highPass
  | 2 => some .bandPass
  | 3 => some .notch
  | 4 => some .allPass
  | 5 => some .peak
  | 6 => some .lowShelf
  | 7 => some .highShelf
  | _ => none

/-- The 3-bit code of a FilterType (R20). -/
def filterCode : FilterType → Nat
  | .lowPass => 0
  | .highPass => 1
  | .bandPass => 2
  | .notch => 3
  | .allPass => 4
  | .peak => 5
  | .lowShelf => 6
  | .highShelf => 7

/-- A positive finite sample rate (R70, R142). -/
def validRate (sr : F32) : Bool := flt posZero sr && sr != posInf

/-- The index lies in `IN` and `OUT` (R149, R150). -/
def sampleInRange (d : Dims) (ch n : Nat) : Bool := decide (ch < d.maxChannels) && decide (n < d.maxBlockCap)

/-- The selector of `RESET` names channels the block has (R148). -/
def resetValid (d : Dims) : ResetTarget → Bool
  | .all => true
  | .channel c => decide (c < d.maxChannels)

/-- The channels a `RESET` zeroes (R148). -/
def resetHits : ResetTarget → Nat → Bool
  | .all, _ => true
  | .channel c, ch => ch == c

/-! The band fields a parameter write stores to. -/

def putType (P : Params) (i : Fin 10) (v : FilterType) : Params := { P with type := P.type.set i v }
def putFreq (P : Params) (i : Fin 10) (v : F32) : Params := { P with freq := P.freq.set i v }
def putQ (P : Params) (i : Fin 10) (v : F32) : Params := { P with q := P.q.set i v }
def putGain (P : Params) (i : Fin 10) (v : F32) : Params := { P with gain := P.gain.set i v }

/-- `BandWrite(field, idx, v, lo, hi)` of R128, `put` storing to the field. -/
def bandWrite (put : Params → Fin 10 → F32 → Params) (idx : Nat) (v lo hi : F32) (s : State) : State :=
  match bandSlot idx with
  | none => s.raise .invalidParam
  | some i =>
    if fIsNaN v then s.raise .invalidParam
    else (s.raiseIf (clampF v lo hi != v) .invalidParam).withP (put s.P i (clampF v lo hi))

end Sys2Proof.Machine
end

