-- ==== Sys2Proof/Machine/Analyzer.lean ====
section
/-! DEFINITION. The spectrum analyzer's two halves (R116 to R126). -/

namespace Sys2Proof.Machine

/-- `CaptureStep(v)` (R116): one word of `CAP`, and the cursor on with wrap-around (R37). -/
def captureStep (v : F32) (s : State) : State :=
  (memWrite .cap s.E.wp v s).withE { s.E with wp := (s.E.wp + 1) % s.dims.window }

/-- A word of `CAP`, `+0.0` where nothing has been captured (R37). -/
def capWord (s : State) (j : Nat) : F32 := (memRead s .cap j).getD posZero

/-- `CopyWindow()` (R118): the `N` words of `CAP` from the cursor on, the oldest first. -/
def copyWindow (s : State) : List F32 := (List.range s.dims.window).map (fun i => capWord s ((s.E.wp + i) % s.dims.window))

/-- `Publish(B)` (R122). -/
def publish (B : List F32) (s : State) : State :=
  (memWriteRow .spec 0 B s).withE { s.E with snapValid := true, snapSeq := s.E.snapSeq + 1#32 }

/-- A word of `SPEC`. It is read only while a snapshot is published (R29). -/
def specWord (s : State) (k : Nat) : F32 := (memRead s .spec k).getD (Config.freeSpec k)

end Sys2Proof.Machine
end

