-- ==== Sys2Proof/Machine/Coefficient.lean ====
section
/-! DEFINITION. The coefficient calculator (R68 to R89), a function of its five inputs and the configuration functions. -/

namespace Sys2Proof.Machine

/-- The un-normalized coefficients of one filter type (R75 to R82). -/
structure RawCoef where
  b0 : F32
  b1 : F32
  b2 : F32
  a0 : F32
  a1 : F32
  a2 : F32
deriving DecidableEq, Repr

/-- The denominator the types 0 to 4 share (R75 to R79). -/
def plainRaw (cw alpha b0 b1 b2 : F32) : RawCoef :=
  { b0 := b0, b1 := b1, b2 := b2, a0 := fadd fOne alpha, a1 := fmul fNegTwo cw, a2 := fsub fOne alpha }

/-- R75. -/
def rawLowPass (cw alpha : F32) : RawCoef :=
  plainRaw cw alpha (fmul (fsub fOne cw) fHalf) (fsub fOne cw) (fmul (fsub fOne cw) fHalf)

/-- R76. -/
def rawHighPass (cw alpha : F32) : RawCoef :=
  plainRaw cw alpha (fmul (fadd fOne cw) fHalf) (fneg (fadd fOne cw)) (fmul (fadd fOne cw) fHalf)

/-- R77. -/
def rawBandPass (cw alpha : F32) : RawCoef := plainRaw cw alpha alpha posZero (fneg alpha)

/-- R78. -/
def rawNotch (cw alpha : F32) : RawCoef := plainRaw cw alpha fOne (fmul fNegTwo cw) fOne

/-- R79. -/
def rawAllPass (cw alpha : F32) : RawCoef :=
  plainRaw cw alpha (fsub fOne alpha) (fmul fNegTwo cw) (fadd fOne alpha)

/-- R80. -/
def rawPeak (cw alpha A : F32) : RawCoef :=
  let aA := fmul alpha A
  let aD := fdiv alpha A
  { b0 := fadd fOne aA, b1 := fmul fNegTwo cw, b2 := fsub fOne aA,
    a0 := fadd fOne aD, a1 := fmul fNegTwo cw, a2 := fsub fOne aD }

/-- R81. -/
def rawLowShelf (cw alpha A : F32) : RawCoef :=
  let k := fmul (fmul fTwo (fsqrt A)) alpha
  let Ap1 := fadd A fOne
  let Am1 := fsub A fOne
  let mc := fmul Am1 cw
  let pc := fmul Ap1 cw
  { b0 := fmul A (fadd (fsub Ap1 mc) k)
    b1 := fmul (fmul fTwo A) (fsub Am1 pc)
    b2 := fmul A (fsub (fsub Ap1 mc) k)
    a0 := fadd (fadd Ap1 mc) k
    a1 := fmul fNegTwo (fadd Am1 pc)
    a2 := fsub (fadd Ap1 mc) k }

/-- R82. -/
def rawHighShelf (cw alpha A : F32) : RawCoef :=
  let k := fmul (fmul fTwo (fsqrt A)) alpha
  let Ap1 := fadd A fOne
  let Am1 := fsub A fOne
  let mc := fmul Am1 cw
  let pc := fmul Ap1 cw
  { b0 := fmul A (fadd (fadd Ap1 mc) k)
    b1 := fmul (fmul fNegTwo A) (fadd Am1 pc)
    b2 := fmul A (fsub (fadd Ap1 mc) k)
    a0 := fadd (fsub Ap1 mc) k
    a1 := fmul fTwo (fsub Am1 pc)
    a2 := fsub (fsub Ap1 mc) k }

/-- The exhaustive switch of R84. -/
def rawCoef (ty : FilterType) (cw alpha A : F32) : RawCoef :=
  match ty with
  | .lowPass => rawLowPass cw alpha
  | .highPass => rawHighPass cw alpha
  | .bandPass => rawBandPass cw alpha
  | .notch => rawNotch cw alpha
  | .allPass => rawAllPass cw alpha
  | .peak => rawPeak cw alpha A
  | .lowShelf => rawLowShelf cw alpha A
  | .highShelf => rawHighShelf cw alpha A

/-- Normalization by `a0` (R83). -/
def normalizeCoef (r : RawCoef) : Coef :=
  { b0 := fdiv r.b0 r.a0, b1 := fdiv r.b1 r.a0, b2 := fdiv r.b2 r.a0, a1 := fdiv r.a1 r.a0, a2 := fdiv r.a2 r.a0 }

/-- `fc`, the frequency under its ceiling (R71). -/
def ceilFreq (f sr : F32) : F32 := fmin f (fmul sr nyqFactor)

/-- `w0` (R73). -/
def angularFreq (f sr : F32) : F32 := fdiv (fmul twoPi32 (ceilFreq f sr)) sr

/-- `alpha` from `sin(w0)` and `q` (R72, R73). -/
def alphaOf (sw q : F32) : F32 := fdiv sw (fmul fTwo (fmax q qCalcMin))

/-- The normalized coefficients once the values of the configuration functions are known (R73 to R83). -/
def coefOf (ty : FilterType) (cw sw q A : F32) : Coef := normalizeCoef (rawCoef ty cw (alphaOf sw q) A)

/-- `CoefCalc(type, sr, f, q, gdb)` (R68, R70, R73). -/
def coefCalc (ty : FilterType) (sr f q gdb : F32) : Coef :=
  if validRate sr then
    coefOf ty (cos32 (angularFreq f sr)) (sin32 (angularFreq f sr)) q (pow10 (fdiv gdb fForty))
  else Coef.ident

end Sys2Proof.Machine
end

