-- ==== Sys2Proof/Machine/Biquad.lean ====
section
/-! DEFINITION. Filter bands and the cascade (R90 to R103), all of it inside the compute step of a `PROCESS`. -/

namespace Sys2Proof.Machine

/-- `Flush(v)` (R93). -/
def flush (v : F32) : F32 := if flt (fabs v) flushTh then posZero else v

/-- The output sample of `BiquadStep` (R92). -/
def biquadOut (c : Coef) (z : Taps) (x : F32) : F32 := fadd (fmul c.b0 x) z.z1

/-- The new delay registers of `BiquadStep`, given its output (R92). -/
def biquadState (c : Coef) (z : Taps) (x y : F32) : Taps :=
  { z1 := flush (fadd (fsub (fmul c.b1 x) (fmul c.a1 y)) z.z2)
    z2 := flush (fsub (fmul c.b2 x) (fmul c.a2 y)) }

/-- `BiquadStep(c, z, x)` (R92). R94(a) says that a non-finite state makes the next output and the next state non-finite. Where `z2`
alone is non-finite R92 gives that only for the next `z1`, and it is followed (DEDUCED, entry 20). -/
def biquadStep (c : Coef) (z : Taps) (x : F32) : F32 × Taps :=
  (biquadOut c z x, biquadState c z x (biquadOut c z x))

/-- `BandProcess` on one channel's buffer (R96): the filtered buffer and the state after its last sample. -/
def bandProcess (c : Coef) (z : Taps) : List F32 → List F32 × Taps
  | [] => ([], z)
  | x :: xs =>
    let r := bandProcess c (biquadStep c z x).2 xs
    ((biquadStep c z x).1 :: r.1, r.2)

/-- The active band slots in index order (R26, R98). -/
def activeBands (n : Fin 11) : List (Fin 10) := (List.finRange 10).filter (fun i => decide (i.val < n.val))

/-- `ChainProcess` on one channel (R97): every band of a list in turn, each on its own delay registers. -/
def chainProcess (coef : Vector Coef 10) (c : Nat) : List (Fin 10) → List F32 → Memory → List F32 × Memory
  | [], buf, fs => (buf, fs)
  | i :: is, buf, fs =>
    let r := bandProcess coef[i] (fsGet fs i c) buf
    chainProcess coef c is r.1 (fsSet fs i c r.2)

/-- The band slots a growth from `old` to `n` makes active (R100, R101). -/
def grownBand (old n : Fin 11) (i : Nat) : Bool := decide (old.val ≤ i) && decide (i < n.val)

/-- `BandCountUpdate()` (R100 to R102). -/
def bandCountUpdate (s : State) : State :=
  (s.withBands { s.bands with
      fs := fsZero s.bands.fs (fun i _ => grownBand s.E.activeCount s.S.bandCount i)
      valid := Vector.ofFn (fun i => s.bands.valid[i] && !grownBand s.E.activeCount s.S.bandCount i.val) }).withE
    { s.E with activeCount := s.S.bandCount }

/-- `key` of R90: what band `i`'s coefficients are computed from in this block. -/
def bandKey (s : State) (i : Fin 10) : BandKey :=
  { type := s.S.type[i], freq := s.S.freq[i], q := s.S.q[i], gain := s.S.gain[i], sr := s.E.sr }

/-- Band `i` is Fresh (R27, R90). -/
def bandFresh (s : State) (i : Fin 10) : Bool := s.bands.valid[i] && decide (s.bands.used[i] = bandKey s i)

/-- `CoefCalc` of a key. -/
def coefOfKey (k : BandKey) : Coef := coefCalc k.type k.sr k.freq k.q k.gain

/-- `UpdateCoefficients(i)` (R90). -/
def updateCoefficients (i : Fin 10) (s : State) : State :=
  if bandFresh s i then s
  else s.withBands { s.bands with
    coef := s.bands.coef.set i (coefOfKey (bandKey s i))
    used := s.bands.used.set i (bandKey s i)
    valid := s.bands.valid.set i true }

/-- `UpdateCoefficients` for the bands of a list, in order (R145). -/
def updateAll : List (Fin 10) → State → State
  | [], s => s
  | i :: is, s => updateAll is (updateCoefficients i s)

end Sys2Proof.Machine
end

