-- ==== Sys2Proof/Machine/Mix.lean ====
section
/-! DEFINITION. The mixer and the bypass gate (R104 to R115), inside the compute step of a `PROCESS`. -/

namespace Sys2Proof.Machine

/-- `LinearGain(gdb)` (R104). -/
def linearGain (gdb : F32) : F32 := pow10 (fdiv gdb fTwenty)

/-- `MixSample(wet, dry, g, m)` (R105): the gain is on the wet path only (R106). R109(b) says that `MixSample(x, x, 1.0, 0.5)` is `x`
for every normal `x`. It is not for a normal `x` below `2^-125` in magnitude whose encoding is odd, whose half is no binary32 value:
R105 and R11 are followed there (DEDUCED, entry 19). -/
def mixSample (wet dry g m : F32) : F32 :=
  if feq m posZero then dry
  else if feq m fOne then fmul wet g
  else fadd (fmul (fmul wet g) m) (fmul dry (fsub fOne m))

/-- A word of `IN` that is known to be written. -/
def inWord (s : State) (c n : Nat) : F32 := (memRead s .inp (sampleIx c n)).getD posZero

/-- A word of `DRY`. A block writes it before it reads it (R37). -/
def dryWord (s : State) (c n : Nat) : F32 := (memRead s .dry (sampleIx c n)).getD (Config.freeDry (sampleIx c n))

/-- The `IN` words `[c][0]` to `[c][ns - 1]`. -/
def inRow (s : State) (c ns : Nat) : List F32 := (List.range ns).map (inWord s c)

/-- The `DRY` words `[c][0]` to `[c][ns - 1]`. -/
def dryRow (s : State) (c ns : Nat) : List F32 := (List.range ns).map (dryWord s c)

/-- The dry copy of one channel (R108). -/
def dryCopy (c ns : Nat) (s : State) : State := memWriteRow .dry (sampleIx c 0) (inRow s c ns) s

/-- The bypassed output of one channel (R111), and the pass-through of an unprepared block (R147): a bit copy of `IN`. -/
def copyThrough (c ns : Nat) (s : State) : State := memWriteRow .out (sampleIx c 0) (inRow s c ns) s

/-- `MixBlock(c, wetbuf, ns, g, m)` (R107). -/
def mixBlock (c : Nat) (wet : List F32) (g m : F32) (s : State) : State :=
  memWriteRow .out (sampleIx c 0) (List.zipWith (fun w d => mixSample w d g m) wet (dryRow s c wet.length)) s

/-- One channel of an unbypassed block: the cascade on a working buffer, then gain and mix (R145). -/
def filterChannel (ns : Nat) (g : F32) (c : Nat) (s : State) : State :=
  let r := chainProcess s.bands.coef c (activeBands s.E.activeCount) (inRow s c ns) s.bands.fs
  mixBlock c r.1 g s.S.mix (s.withBands { s.bands with fs := r.2 })

/-- `for c in 0 .. C-1` over a step of the state (R13). -/
def forChannels (f : Nat → State → State) (C : Nat) (s : State) : State := (List.range C).foldl (fun t c => f c t) s

end Sys2Proof.Machine
end

