-- ==== Sys2Proof/Machine/Block.lean ====
section
/-! DEFINITION. The block processing commands of the AUDIO port (R142 to R152), and the atomic steps of an accepted `PROCESS` (R41,
R145). -/

namespace Sys2Proof.Machine

/-! ## PREPARE -/

/-- The registers and memories `PREPARE` sets, `mb` being its block size after the clamp (R142). -/
def prepareState (mb : Nat) (sr : F32) (s : State) : State :=
  ((s.withE { s.E with prepared := true, sr := sr, maxBlk := mb, activeCount := 0, wp := 0, snapValid := false }).withBands
    { s.bands with valid := Vector.replicate 10 false, fs := [] }).withMem (s.mem.set .cap [])

/-- R142, R143. -/
def execPrepare (maxBlock : Nat) (sr : F32) (s : State) : Host.Outcome State Fault Refusal :=
  .next (prepareState (clampNat maxBlock 1 s.dims.maxBlockCap) sr
    ((s.raiseIf (clampNat maxBlock 1 s.dims.maxBlockCap != maxBlock || !validRate sr) .invalidParam).raiseIf
      (s.E.prepared && sr != s.E.sr) .rateChange))

/-! ## PROCESS -/

/-- The index pairs of a block, channels outer, samples inner (R145). -/
def blockIndexes (C ns : Nat) : List (Nat × Nat) :=
  (List.range C).flatMap (fun c => (List.range ns).map (fun n => (c, n)))

/-- The first `IN` word of a block that nothing has written since power-on (R36, R146). -/
def firstUnwritten (s : State) (C ns : Nat) : Option (Nat × Nat) :=
  (blockIndexes C ns).find? (fun ix => (memRead s .inp (sampleIx ix.1 ix.2)).isNone)

/-- The compute step of a block whose `IN` words are all written (R145, step 46): band count, coefficients, dry copy, then the bypass
copy or the chain with gain and mix. -/
def computeBlock (C ns : Nat) (s : State) : State :=
  let s1 := bandCountUpdate s
  let s2 := updateAll (activeBands s1.E.activeCount) s1
  let s3 := forChannels (fun c => dryCopy c ns) C s2
  if s3.S.bypass then forChannels (fun c => copyThrough c ns) C s3
  else forChannels (filterChannel ns (linearGain s3.S.globalGain)) C s3

/-- What follows the compute step: capture, when the block's snapshot enables it and there is a sample to capture (R41, R116, R117). -/
def afterCompute (C ns : Nat) (s : State) : Option Job :=
  if s.S.analyzerEn && decide (1 ≤ C) && decide (1 ≤ ns) then some ⟨C, ns, .capture 0⟩ else none

/-- The compute step (R145). -/
def computeStep (C ns : Nat) (s : State) : Host.Outcome State Fault Refusal :=
  match firstUnwritten s C ns with
  | some (c, n) => .fault (.unwrittenIn c n)
  | none => .next ((computeBlock C ns s).withJob (afterCompute C ns s))

/-- The field a snapshot step copies out of those that remain: the model fixes no order (R41, U7). -/
def pickField (s : State) (f : PField) (todo : List PField) : PField :=
  (f :: todo).getD (nextPick s % (todo.length + 1)) f

/-- One snapshot step: one field of the parameter store is copied (R25, R41). -/
def snapshotStep (C ns : Nat) (f : PField) (todo : List PField) (s : State) : State :=
  ((s.withS (copyField s.P s.S (pickField s f todo))).withJob
    (some ⟨C, ns, .snapshot ((f :: todo).erase (pickField s f todo))⟩)).takePick

/-- One capture step: sample `n` of channel `ANALYZER_CHANNEL` (R116). -/
def captureNext (C ns n : Nat) (s : State) : Host.Outcome State Fault Refusal :=
  match memRead s .out (sampleIx analyzerChannel n) with
  | none => .fault (.unwrittenOut analyzerChannel n)
  | some v => .next ((captureStep v s).withJob (if n + 1 < ns then some ⟨C, ns, .capture (n + 1)⟩ else none))

/-- The next atomic step of a block in progress (R41). -/
def blockStep (j : Job) (s : State) : Host.Outcome State Fault Refusal :=
  match j.phase with
  | .snapshot [] => computeStep j.numCh j.numSamples s
  | .snapshot (f :: todo) => .next (snapshotStep j.numCh j.numSamples f todo s)
  | .capture n => captureNext j.numCh j.numSamples n s

/-- An accepted block before its first step (R41). -/
def startJob (C ns : Nat) : Job := ⟨C, ns, .snapshot allFields⟩

/-- The unprepared pass-through (R147). -/
def passThrough (C ns : Nat) (s : State) : Host.Outcome State Fault Refusal :=
  match firstUnwritten s C ns with
  | some (c, n) => .fault (.unwrittenIn c n)
  | none => .next ((forChannels (fun c => copyThrough c ns) C s).raise .unprepared)

/-- `PROCESS` up to its first atomic step, the checks in the order of R144. An accepted block takes its first snapshot step here and
its other steps by `blockStep`, so that it takes the `45 + 1 + numSamples` steps of R185. -/
def execProcess (numCh numSamples : Nat) (s : State) : Host.Outcome State Fault Refusal :=
  if s.dims.maxChannels < numCh ∨ s.dims.maxBlockCap < numSamples then .next (s.raise .blockRejected)
  else if s.E.prepared = false then passThrough numCh numSamples s
  else if s.E.maxBlk < numSamples then .next (s.raise .blockRejected)
  else blockStep (startJob numCh numSamples) s

/-! ## RESET, sample memories, debug reads -/

/-- R148. -/
def execReset (target : ResetTarget) (s : State) : Host.Outcome State Fault Refusal :=
  if resetValid s.dims target then
    .next (s.withBands { s.bands with fs := fsZero s.bands.fs (fun _ c => resetHits target c) })
  else .next (s.raise .invalidParam)

/-- R149. -/
def execWriteIn (ch n : Nat) (v : F32) (s : State) : Host.Outcome State Fault Refusal :=
  if sampleInRange s.dims ch n then .next (memWrite .inp (sampleIx ch n) v s)
  else .next (s.raise .invalidParam)

/-- The answer of a read whose index is outside its space (R39, R150 to R152). -/
def readOutside (s : State) : State := (s.raise .invalidParam).respond .audio [0#32]

/-- R150. A word never written is a model fault (R36, R165). -/
def execReadOut (ch n : Nat) (s : State) : Host.Outcome State Fault Refusal :=
  if sampleInRange s.dims ch n then
    match memRead s .out (sampleIx ch n) with
    | none => .fault (.unwrittenOut ch n)
    | some v => .next (s.respond .audio [v])
  else .next (readOutside s)

/-- R151. -/
def execReadState (band ch : Nat) (tap : Tap) (s : State) : Host.Outcome State Fault Refusal :=
  if band < maxBands ∧ ch < s.dims.maxChannels then .next (s.respond .audio [fsRead s band ch tap])
  else .next (readOutside s)

/-- The coefficient a selector names, in the order of R152. -/
def coefSelect (c : Coef) (k : Nat) : Option F32 :=
  match k with
  | 0 => some c.b0
  | 1 => some c.b1
  | 2 => some c.b2
  | 3 => some c.a1
  | 4 => some c.a2
  | _ => none

/-- R152. -/
def execReadCoef (band k : Nat) (s : State) : Host.Outcome State Fault Refusal :=
  match bandSlot band with
  | none => .next (readOutside s)
  | some i =>
    match coefSelect s.bands.coef[i] k with
    | none => .next (readOutside s)
    | some v => .next (s.respond .audio [v])

end Sys2Proof.Machine
end

