-- ==== Sys2Proof/Machine/Display.lean ====
section
/-! DEFINITION. The display commands of the DISP port (R153 to R157). Each is one atomic step (R42). -/

namespace Sys2Proof.Machine

/-- R153, R154: nothing while the analyzer is disabled, condition 7 when the environment drops the frame, else a publication. -/
def execAnalyze (s : State) : Host.Outcome State Fault Refusal :=
  if s.P.analyzerEn then
    .next (if nextDrop s then s.takeDrop.raise .analyzeDropped else (publish (spectrumFn (copyWindow s)) s).takeDrop)
  else .next s

/-- The words of a published snapshot: header, sequence number, bins (R155). -/
def snapshotWords (s : State) : List Response :=
  1#32 :: s.E.snapSeq :: (List.range (s.dims.window / 2)).map (specWord s)

/-- R155. -/
def execGetSpectrum (s : State) : Host.Outcome State Fault Refusal :=
  if s.E.snapValid then .next (s.respond .disp (snapshotWords s))
  else .next ((s.respond .disp [0#32]).raise .analyzerUnderrun)

end Sys2Proof.Machine
end

