-- ==== Sys2Proof/Machine/Param.lean ====
section
/-! DEFINITION. The parameter and status commands of the CTRL port (R128 to R141). Each is one atomic step (R40). -/

namespace Sys2Proof.Machine

/-- `NOP` changes nothing (R129). -/
def execNop (s : State) : Host.Outcome State Fault Refusal := .next s

/-- R130. -/
def execSetBandType (band code : Nat) (s : State) : Host.Outcome State Fault Refusal :=
  match bandSlot band, filterTypeOf code with
  | some i, some ty => .next (s.withP (putType s.P i ty))
  | _, _ => .next (s.raise .invalidParam)

/-- R131. -/
def execSetBandFreq (band : Nat) (hz : F32) (s : State) : Host.Outcome State Fault Refusal :=
  .next (bandWrite putFreq band hz freqMin freqMax s)

/-- R132. -/
def execSetBandQ (band : Nat) (q : F32) (s : State) : Host.Outcome State Fault Refusal :=
  .next (bandWrite putQ band q qMin qMax s)

/-- R133. -/
def execSetBandGain (band : Nat) (db : F32) (s : State) : Host.Outcome State Fault Refusal :=
  .next (bandWrite putGain band db gainMin gainMax s)

/-- R134: no range, any value but a NaN. -/
def execSetGlobalGain (db : F32) (s : State) : Host.Outcome State Fault Refusal :=
  if fIsNaN db then .next (s.raise .invalidParam)
  else .next (s.withP { s.P with globalGain := db })

/-- R135. -/
def execSetMix (m : F32) (s : State) : Host.Outcome State Fault Refusal :=
  if fIsNaN m then .next (s.raise .invalidParam)
  else .next ((s.raiseIf (clampF m posZero fOne != m) .invalidParam).withP { s.P with mix := clampF m posZero fOne })

/-- R136. -/
def execSetBypass (v : Bool) (s : State) : Host.Outcome State Fault Refusal :=
  .next (s.withP { s.P with bypass := v })

/-- R137. -/
def execSetAnalyzerEn (v : Bool) (s : State) : Host.Outcome State Fault Refusal :=
  .next (s.withP { s.P with analyzerEn := v })

/-- The staged slots `P.bandCount` to `n - 1` set to the default flat parameters, and the count stored (R138). -/
def stageCount (n : Fin 11) (P : Params) : Params :=
  { P with
    type := Vector.ofFn (fun i => if P.bandCount.val ≤ i.val ∧ i.val < n.val then .peak else P.type[i])
    freq := Vector.ofFn (fun i => if P.bandCount.val ≤ i.val ∧ i.val < n.val then defFreq[i] else P.freq[i])
    q := Vector.ofFn (fun i => if P.bandCount.val ≤ i.val ∧ i.val < n.val then fOne else P.q[i])
    gain := Vector.ofFn (fun i => if P.bandCount.val ≤ i.val ∧ i.val < n.val then posZero else P.gain[i])
    bandCount := n }

/-- R138. -/
def execSetBandCount (n : Int) (s : State) : Host.Outcome State Fault Refusal :=
  .next ((s.raiseIf (decide (((clampCount n).val : Int) ≠ n)) .invalidParam).withP (stageCount (clampCount n) s.P))

/-- R139. -/
def execGetStatus (s : State) : Host.Outcome State Fault Refusal :=
  .next (s.respond .ctrl [statusWord s.ev s.E.snapValid s.E.prepared])

/-- R140. -/
def execClearStatus (mask : BitVec 7) (s : State) : Host.Outcome State Fault Refusal :=
  .next (s.withEv (clearConds s.ev mask))

end Sys2Proof.Machine
end

