-- ==== Sys2Proof/Machine/Dispatch.lean ====
section
/-! DEFINITION. One arm per command of R54, each one call of the command's meaning. -/

namespace Sys2Proof.Machine

def exec (i : Instr) (s : State) : Host.Outcome State Fault Refusal :=
  match i with
  | .nop => Sys2Proof.Machine.execNop s
  | .setBandType band code => Sys2Proof.Machine.execSetBandType band code s
  | .setBandFreq band hz => Sys2Proof.Machine.execSetBandFreq band hz s
  | .setBandQ band q => Sys2Proof.Machine.execSetBandQ band q s
  | .setBandGain band db => Sys2Proof.Machine.execSetBandGain band db s
  | .setGlobalGain db => Sys2Proof.Machine.execSetGlobalGain db s
  | .setMix m => Sys2Proof.Machine.execSetMix m s
  | .setBypass v => Sys2Proof.Machine.execSetBypass v s
  | .setAnalyzerEn v => Sys2Proof.Machine.execSetAnalyzerEn v s
  | .setBandCount n => Sys2Proof.Machine.execSetBandCount n s
  | .getStatus => Sys2Proof.Machine.execGetStatus s
  | .clearStatus mask => Sys2Proof.Machine.execClearStatus mask s
  | .prepare maxBlock sr => Sys2Proof.Machine.execPrepare maxBlock sr s
  | .process numCh numSamples => Sys2Proof.Machine.execProcess numCh numSamples s
  | .reset target => Sys2Proof.Machine.execReset target s
  | .writeIn ch n v => Sys2Proof.Machine.execWriteIn ch n v s
  | .readOut ch n => Sys2Proof.Machine.execReadOut ch n s
  | .readState band ch tap => Sys2Proof.Machine.execReadState band ch tap s
  | .readCoef band k => Sys2Proof.Machine.execReadCoef band k s
  | .analyze => Sys2Proof.Machine.execAnalyze s
  | .getSpectrum => Sys2Proof.Machine.execGetSpectrum s

end Sys2Proof.Machine
end

