-- ==== Sys2Proof/Machine/Schedule.lean ====
section
/-! DEFINITION. The ports as agents: when a port has an atomic step, which one it is, and how the steps and the host's actions
interleave (R6, R7, R19, R31, R41 to R43). -/

namespace Sys2Proof.Machine

/-- How many words a command appends to its port's response FIFO (R54, R155). -/
def respCount (i : Instr) (s : State) : Nat :=
  match i with
  | .getStatus => 1
  | .readOut _ _ => 1
  | .readState _ _ _ => 1
  | .readCoef _ _ => 1
  | .getSpectrum => if s.E.snapValid then 2 + s.dims.window / 2 else 1
  | _ => 0

/-- How many words a command word makes a port append. An illegal one makes none (R56). -/
def wordRespCount (p : Port) (w : Command) (s : State) : Nat :=
  match decode p w with
  | .command i => respCount i s
  | .illegal _ => 0

/-- The words a command would append fit the port's response FIFO. A port whose next command's words do not fit holds it (R31). -/
def hasRoom (p : Port) (w : Command) (s : State) : Bool :=
  decide ((s.ports.get p).resp.length + wordRespCount p w s ≤ s.dims.respDepth)

/-- The AUDIO port has a block in progress (R41). -/
def blockPending (p : Port) (s : State) : Option Job :=
  match p with
  | .audio => s.job
  | _ => none

/-- The port has an atomic step to take (R31, R169). -/
def portReady (p : Port) (s : State) : Bool :=
  match blockPending p s with
  | some _ => true
  | none =>
    match (s.ports.get p).stream with
    | [] => false
    | w :: _ => hasRoom p w s

/-- A port takes the next command of its stream: it decodes the word and executes it. `ILLEGAL` raises condition 6 and does nothing
else (R19, R56, R59). -/
def runWord (p : Port) (w : Command) (s : State) : Host.Outcome State Fault Refusal :=
  match decode p w with
  | .illegal _ => .next (s.raise .illegalCmd)
  | .command i => exec i s

/-- The port's next atomic step. A port with none does nothing (R169, U10). -/
def portStep (p : Port) (s : State) : Host.Outcome State Fault Refusal :=
  match blockPending p s with
  | some j => blockStep j s
  | none =>
    match (s.ports.get p).stream with
    | [] => .next s
    | w :: rest => if hasRoom p w s then runWord p w (s.setStream p rest) else .next s

/-- The host appends a command word to a port's stream (R6). -/
def hostSubmit (p : Port) (w : Command) (s : State) : State := s.setStream p ((s.ports.get p).stream ++ [w])

/-- The host removes the `n` oldest words of a port's response FIFO (R31). -/
def hostDrain (p : Port) (n : Nat) (s : State) : State := s.setResp p ((s.ports.get p).resp.drop n)

/-- The ports that have a step. -/
def readyPorts (s : State) : List Port := [Port.ctrl, Port.audio, Port.disp].filter (fun p => portReady p s)

/-- The next event of the interleaving. Past the end of the agenda a port with a step takes it, a free choice among several (R43). -/
def nextStep (s : State) : Host.Outcome State Fault Refusal :=
  match s.env.agenda with
  | .turn p :: rest => portStep p (s.withEnv { s.env with agenda := rest })
  | .submit p w :: rest => .next (hostSubmit p w (s.withEnv { s.env with agenda := rest }))
  | .drain p n :: rest => .next (hostDrain p n (s.withEnv { s.env with agenda := rest }))
  | [] =>
    match readyPorts s with
    | [] => .next s
    | [p] => portStep p s
    | p :: ps =>
      portStep ((p :: ps).getD (Config.freeTurn s.env.drawn % (ps.length + 1)) p)
        (s.withEnv { s.env with drawn := s.env.drawn + 1 })

/-- `s` with a word placed so that the very next step runs it: at the head of its port's stream, with that port's turn first, no block
in progress on that port, and room in its response FIFO. -/
def placeCommand (p : Port) (w : Command) (s : State) : State :=
  let s1 := s.setStream p (w :: (s.ports.get p).stream)
  let s2 := s1.withEnv { s1.env with agenda := .turn p :: s1.env.agenda }
  let s3 := if p = .audio then s2.withJob none else s2
  if hasRoom p w s3 then s3 else s3.setResp p []

end Sys2Proof.Machine
end

