-- ==== Sys2Proof/Machine/Step.lean ====
section
/-! DEFINITION. One step of the machine, and the placing of a command where the next step takes it. -/

namespace Sys2Proof.Machine

/-- One event of the interleaving of the three ports (R43). -/
def step (s : State) : Host.Outcome State Fault Refusal := nextStep s

/-- `s` with the command of a table row where the next step takes it (entry 6). -/
def State.withFetchWord (s : State) (nbits w : Nat) : State :=
  placeCommand (homePort (tableWord nbits w)) (tableWord nbits w) s

end Sys2Proof.Machine
end

