-- ==== Sys2Proof/Safety.lean ====
section
/-! DEFINITION. The terms the claims use: legal parameter values, the machine's invariant, a block's inputs being present, and an
accepted block as the one composition R145 writes. -/

namespace Sys2Proof.Machine

/-! ## Legal values -/

/-- A closed interval (R21). -/
def inRange (v lo hi : F32) : Bool := fle lo v && fle v hi

/-- A field holds a value of its range (R20 to R22). The other fields' types hold legal values only. -/
def fieldLegal (P : Params) : PField → Prop
  | .freq i => inRange P.freq[i] freqMin freqMax = true
  | .q i => inRange P.q[i] qMin qMax = true
  | .gain i => inRange P.gain[i] gainMin gainMax = true
  | .globalGain => fIsNaN P.globalGain = false
  | .mix => inRange P.mix posZero fOne = true
  | _ => True

/-- "no command stores a value outside the ranges of rule R21" (R20). -/
def Params.legal (P : Params) : Prop := ∀ f : PField, fieldLegal P f

/-! ## Rounding, said by what it means -/

/-- The magnitude, in units of `2^-149`, from which a result rounds to infinity: the largest finite value and half its last place. -/
def overflowUnits : Int := (2 ^ 25 - 1) * 2 ^ 252

/-- `r` is finite, no finite value is nearer to `n / d` units, and `r` has an even last bit where another value is as near (R11). -/
def isNearestEven (n d : Int) (r : F32) : Prop :=
  fIsFinite r = true ∧
  ∀ c : F32, fIsFinite c = true →
    |fUnits r * d - n| ≤ |fUnits c * d - n| ∧
    (|fUnits r * d - n| = |fUnits c * d - n| → fUnits c ≠ fUnits r → r.getLsbD 0 = false)

/-- `r` is `n / d` units rounded to nearest, ties to even, infinity of the same sign on overflow (R11). -/
def isRounded (n d : Int) (r : F32) : Prop :=
  (|n| < overflowUnits * d → isNearestEven n d r) ∧
  (overflowUnits * d ≤ |n| → r = if n < 0 then negInf else posInf)

/-- A quiet NaN (R11). -/
def isQuietNaN (a : F32) : Prop := fIsNaN a = true ∧ a.getLsbD 22 = true

/-! ## Ports -/

/-- The port whose response FIFO and stream a command uses (R54, R58). `NOP` uses none. -/
def portOf (i : Instr) : Port := (ownerOf (opcodeOf i)).getD .ctrl

/-- The opcodes legal on a port (R54, R55). -/
def legalOpcodes : Port → List (BitVec 8)
  | .ctrl => [0x00, 0x10, 0x11, 0x12, 0x13, 0x14, 0x15, 0x16, 0x17, 0x18, 0x19, 0x1A]
  | .audio => [0x00, 0x20, 0x21, 0x22, 0x23, 0x24, 0x25, 0x26]
  | .disp => [0x00, 0x30, 0x31]

/-- The next command of a port's stream. -/
def nextCommand (p : Port) (s : State) : Option Instr :=
  match blockPending p s, (s.ports.get p).stream with
  | none, w :: _ => match decode p w with
    | .command i => some i
    | .illegal _ => none
  | _, _ => none

/-! ## The invariant -/

/-- Every memory is in its canonical form. -/
def State.memCanonical (s : State) : Prop :=
  (∀ sp : Space, Memory.wf sp.background (s.mem.get sp)) ∧ Memory.wf (some posZero) s.bands.fs

/-- A sample index the block has (R35). -/
def sampleIndex (d : Dims) (k : Nat) : Prop := ∃ c n, c < d.maxChannels ∧ n < d.maxBlockCap ∧ k = sampleIx c n

/-- A delay-register index the block has (R28). -/
def tapIndex (d : Dims) (k : Nat) : Prop := ∃ i c t, i < maxBands ∧ c < d.maxChannels ∧ k = tapIx i c t

/-- No memory lists an index outside its space (R34, R39). -/
def State.memInRange (s : State) : Prop :=
  (∀ e ∈ s.mem.inp, sampleIndex s.dims e.1) ∧ (∀ e ∈ s.mem.out, sampleIndex s.dims e.1) ∧
  (∀ e ∈ s.mem.dry, sampleIndex s.dims e.1) ∧ (∀ e ∈ s.mem.cap, e.1 < s.dims.window) ∧
  (∀ e ∈ s.mem.spec, e.1 < s.dims.window / 2) ∧ (∀ e ∈ s.bands.fs, tapIndex s.dims e.1)

/-- No response FIFO holds more than its depth (R31). -/
def State.fifosFit (s : State) : Prop := ∀ p : Port, (s.ports.get p).resp.length ≤ s.dims.respDepth

/-- A published snapshot is whole (R29, R122). -/
def State.snapshotWhole (s : State) : Prop :=
  s.E.snapValid = true → ∀ k, k < s.dims.window / 2 → (memRead s .spec k).isSome = true

/-- A valid band's coefficients are those of its key, and its key's sample rate is the block's (R27, R143). -/
def State.coefsTrue (s : State) : Prop :=
  ∀ i : Fin 10, s.bands.valid[i] = true → s.bands.coef[i] = coefOfKey s.bands.used[i] ∧ s.bands.used[i].sr = s.E.sr

/-- What holds of a block at its place among its steps (R41): the fields already copied are legal, and every sample to be captured is
written. -/
def phaseOk (s : State) (j : Job) : Prop :=
  match j.phase with
  | .snapshot todo => ∀ f : PField, f ∈ todo ∨ fieldLegal s.S f
  | .capture n => n < j.numSamples ∧ 1 ≤ j.numCh ∧
      ∀ m, m < j.numSamples → (memRead s .out (sampleIx analyzerChannel m)).isSome = true

/-- A block in progress was accepted (R144). -/
def State.jobOk (s : State) : Prop :=
  ∀ j, s.job = some j →
    s.E.prepared = true ∧ j.numCh ≤ s.dims.maxChannels ∧ j.numSamples ≤ s.E.maxBlk ∧ phaseOk s j

/-- The machine's invariant. -/
structure State.Inv (s : State) : Prop where
  dims : s.dims.wf
  params : s.P.legal
  canonical : s.memCanonical
  inRange : s.memInRange
  cursor : s.E.wp < s.dims.window
  blockLimit : s.E.maxBlk ≤ s.dims.maxBlockCap
  fifos : s.fifosFit
  snapshot : s.snapshotWhole
  coefs : s.coefsTrue
  job : s.jobOk

/-! ## Blocks -/

/-- Every `IN` word of a block has been written (R36, R174). -/
def blockFed (s : State) (C ns : Nat) : Prop :=
  ∀ c n, c < C → n < ns → (memRead s .inp (sampleIx c n)).isSome = true

/-- `PROCESS` passes the checks of R144. -/
def blockAccepted (s : State) (C ns : Nat) : Prop :=
  C ≤ s.dims.maxChannels ∧ ns ≤ s.dims.maxBlockCap ∧ s.E.prepared = true ∧ ns ≤ s.E.maxBlk

/-- The wet signal of a channel: the input through the active bands of a state (R97). -/
def wetRow (s : State) (c ns : Nat) : List F32 :=
  (chainProcess s.bands.coef c (activeBands s.E.activeCount) (inRow s c ns) s.bands.fs).1

/-- The `OUT` words `[c][0]` to `[c][ns - 1]`. -/
def outRow (s : State) (c ns : Nat) : List F32 :=
  (List.range ns).map (fun n => (memRead s .out (sampleIx c n)).getD posZero)

/-- `CaptureStep` of each sample of a list, in order (R116). -/
def captureMany (vs : List F32) (s : State) : State := vs.foldl (fun t v => captureStep v t) s

/-- How many samples a block captures (R116, R117). -/
def captureCount (P : Params) (C ns : Nat) : Nat := if P.analyzerEn && decide (1 ≤ C) then ns else 0

/-- `PROCESS_ACCEPTED(C, Sn)` of R145 with nothing in between: all 45 fields, the compute step, the captures. -/
def wholeBlock (C ns : Nat) (s : State) : State :=
  let t := computeBlock C ns (s.withS s.P)
  captureMany (outRow t analyzerChannel (captureCount t.S C ns)) t

/-- The cascade one sample at a time through all bands, the other order R97 names. -/
def sampleThroughBands (coef : Vector Coef 10) (c : Nat) : List (Fin 10) → F32 → Memory → F32 × Memory
  | [], x, fs => (x, fs)
  | i :: is, x, fs =>
    sampleThroughBands coef c is (biquadStep coef[i] (fsGet fs i c) x).1 (fsSet fs i c (biquadStep coef[i] (fsGet fs i c) x).2)

/-- `ChainProcess` in sample-major order (R97). -/
def chainSampleMajor (coef : Vector Coef 10) (c : Nat) (bands : List (Fin 10)) : List F32 → Memory → List F32 × Memory
  | [], fs => ([], fs)
  | x :: xs, fs =>
    let r := sampleThroughBands coef c bands x fs
    let q := chainSampleMajor coef c bands xs r.2
    (r.1 :: q.1, q.2)

end Sys2Proof.Machine
end

