-- ==== Sys2Proof/Safety/SpectrumRef.lean ====
section
/-! DEFINITION. `SpectrumRef` of R119, the reference in exact real arithmetic that a claim about the accuracy of `SpectrumFn` names as
its premise (R121, U13). No step of the machine computes it. -/

namespace Sys2Proof.Machine

/-- The real value of a finite encoding. -/
noncomputable def fReal (a : F32) : ℝ := (fUnits a : ℝ) / 2 ^ 149

/-- The Hann window, symmetric form (R119 step 2). -/
noncomputable def hann (N n : ℕ) : ℝ := (1 - Real.cos (2 * Real.pi * n / (N - 1))) / 2

/-- Bin `k` of the DFT of the windowed samples (R119 step 3). -/
noncomputable def dftBin (X : List F32) (k : ℕ) : ℂ :=
  ∑ n ∈ Finset.range X.length,
    ((hann X.length n * fReal (X.getD n posZero) : ℝ) : ℂ) * Complex.exp (-2 * Real.pi * Complex.I * k * n / X.length)

/-- The normalized magnitude, bin 0 halved (R119 steps 4 and 5). -/
noncomputable def refMag (X : List F32) (k : ℕ) : ℝ := ‖dftBin X k‖ / X.length / (if k = 0 then 2 else 1)

/-- A magnitude in dB over the floor, `log10(0)` being below every floor (R119 step 6). -/
noncomputable def refDb (mag : ℝ) : ℝ := if mag = 0 then -100 else max (20 * Real.logb 10 mag) (-100)

/-- `SpectrumRef(X)[k]` (R119, R120). -/
noncomputable def spectrumRef (X : List F32) (k : ℕ) : ℝ := refDb (refMag X k)

/-- The frequency in Hz a bin stands for (R123). -/
noncomputable def binHz (N : ℕ) (sr : F32) (k : ℕ) : ℝ := k * fReal sr / N

end Sys2Proof.Machine
end

