-- ==== Sys2Proof/Certificates/Slice0/Obligations.lean ====
section
/-! DEFINITION. The statements for the provers, each with the rule of spec/ it formalises. -/

open Sys2Proof Sys2Proof.Machine

/-! ## Encoding -/

/-- R53, R54, R57: decoding the encoding of a well-formed command on a port where its opcode is legal gives it back. -/
def Obligations.DecodeOfEncodeIsTheCommand : Prop :=
  ∀ (i : Instr) (p : Port), i.wf = true → legalOn p (opcodeOf i) = true → decode p (encode i) = .command i

/-- R53, R54, R57, R60: a word that decodes is the encoding of its command on the bits that command reads, and the command is well
formed. -/
def Obligations.EncodeOfDecodeKeepsTheUsedBits : Prop :=
  ∀ (p : Port) (w : Command) (i : Instr), decode p w = .command i → i.wf = true ∧ encode i = w &&& usedBits (opField w)

/-- R60: "two words that differ only in ignored bits are the same command". -/
def Obligations.IgnoredBitsDoNotChangeTheCommand : Prop :=
  ∀ (p : Port) (w v : Command), opField w = opField v → w &&& usedBits (opField w) = v &&& usedBits (opField v) →
    decode p w = decode p v

/-- R54, R55, R56, R59: a word decodes on a port exactly when its opcode stands in the port's rows of the opcode map. -/
def Obligations.DecodesExactlyTheLegalOpcodes : Prop :=
  ∀ (p : Port) (w : Command), (∃ i, decode p w = .command i) ↔ opField w ∈ legalOpcodes p

/-- R63, R130, R131, R138, R142, R144, R148, R149, R151, R155: words the spec writes out decode to the commands it names. -/
def Obligations.WordsOfTheSpecDecode : Prop :=
  decode .ctrl 0x11030000447A0000#64 = .command (.setBandFreq 3 0x447A0000#32) ∧
  decode .ctrl 0x1002000000000003#64 = .command (.setBandType 2 3) ∧
  decode .ctrl 0x18000000FFFFFFFF#64 = .command (.setBandCount (-1)) ∧
  decode .ctrl 0x1A00000000007F00#64 = .command (.clearStatus 0x7F#7) ∧
  decode .audio 0x20000200473B8000#64 = .command (.prepare 512 0x473B8000#32) ∧
  decode .audio 0x2101000900000000#64 = .command (.process 1 9) ∧
  decode .audio 0x22FF000000000000#64 = .command (.reset .all) ∧
  decode .audio 0x230000053F800000#64 = .command (.writeIn 0 5 0x3F800000#32) ∧
  decode .audio 0x2500000300000000#64 = .command (.readState 0 1 .z2) ∧
  decode .disp 0x3100000000000000#64 = .command .getSpectrum ∧
  decode .disp 0x1900000000000000#64 = .illegal (.wrongPort 0x19#8 .disp)

/-! ## Steps of the ports -/

/-- R19, R31, R43: on a port's turn, with no block in progress there and room for the answer, a step executes the command at the
head of the port's stream, on the state with that word and that turn taken. -/
def Obligations.StepExecutesTheDecodedCommand : Prop :=
  ∀ (s : State) (p : Port) (w : Command) (ws : List Command) (rest : List Event) (i : Instr),
    s.env.agenda = .turn p :: rest → (s.ports.get p).stream = w :: ws → (p = .audio → s.job = none) →
    decode p w = .command i → (s.ports.get p).resp.length + respCount i s ≤ s.dims.respDepth →
    step s = exec i ((s.withEnv { s.env with agenda := rest }).setStream p ws)

/-- R43, R169: with nothing on the agenda a step is that of the one port that has one, none where no port has, and that of some port
that has one where several have, one free choice being drawn. The step of any port can be the next one, on that port's turn. R6, R31: the
host's events append a command word at the end of one port's stream, or remove the oldest words of one port's response FIFO, and change
nothing else. The agenda and the counter of choices drawn are the model's (entries 3 and 9), and so is where a host event may fall and
that a drain of more words than there are removes those there are (entry 10). -/
def Obligations.StepOfTheOnlyReadyPort : Prop :=
  (∀ s : State, s.env.agenda = [] →
    (readyPorts s = [] → step s = .next s) ∧ (∀ p, readyPorts s = [p] → step s = portStep p s) ∧
    (2 ≤ (readyPorts s).length → ∃ p ∈ readyPorts s, step s = portStep p (s.withEnv { s.env with drawn := s.env.drawn + 1 }))) ∧
  (∀ (s : State) (p : Port) (rest : List Event), s.env.agenda = .turn p :: rest →
    step s = portStep p (s.withEnv { s.env with agenda := rest })) ∧
  (∀ (s : State) (p : Port) (w : Command) (rest : List Event), s.env.agenda = .submit p w :: rest → ∃ t, step s = .next t ∧
    (t.ports.get p).stream = (s.ports.get p).stream ++ [w] ∧ (t.ports.get p).resp = (s.ports.get p).resp ∧
    (∀ q, q ≠ p → t.ports.get q = s.ports.get q) ∧ t = { s with ports := t.ports, env := { s.env with agenda := rest } }) ∧
  (∀ (s : State) (p : Port) (n : Nat) (rest : List Event), s.env.agenda = .drain p n :: rest → ∃ t, step s = .next t ∧
    (s.ports.get p).resp = (s.ports.get p).resp.take n ++ (t.ports.get p).resp ∧
    (t.ports.get p).stream = (s.ports.get p).stream ∧
    (∀ q, q ≠ p → t.ports.get q = s.ports.get q) ∧ t = { s with ports := t.ports, env := { s.env with agenda := rest } }) ∧
  (∀ (s : State) (p : Port), p ∈ readyPorts s ↔
    (p = .audio ∧ s.job ≠ none) ∨ ((p ≠ .audio ∨ s.job = none) ∧ ∃ w ws, (s.ports.get p).stream = w :: ws ∧ hasRoom p w s = true))

/-- R56: "`ILLEGAL` executes as `raise Cond(6)` and nothing else". -/
def Obligations.IllegalWordOnlyRaisesCondition6 : Prop :=
  ∀ (s : State) (p : Port) (w : Command) (ws : List Command) (rest : List Event),
    s.env.agenda = .turn p :: rest → (s.ports.get p).stream = w :: ws → (p = .audio → s.job = none) →
    opField w ∉ legalOpcodes p → (s.ports.get p).resp.length ≤ s.dims.respDepth →
    ∃ t, step s = .next (((s.withEnv { s.env with agenda := rest }).setStream p ws).withEv t) ∧
      t.getLsbD 5 = true ∧ ∀ k, k < 7 → k ≠ 5 → t.getLsbD k = s.ev.getLsbD k

/-- R31: a port whose next command's words do not fit its response FIFO takes no step, and keeps the command. That its turn is used up
is the model's (entry 9). -/
def Obligations.FullFifoHoldsTheCommand : Prop :=
  ∀ (s : State) (p : Port) (w : Command) (ws : List Command) (rest : List Event) (i : Instr),
    s.env.agenda = .turn p :: rest → (s.ports.get p).stream = w :: ws → (p = .audio → s.job = none) →
    decode p w = .command i → s.dims.respDepth < (s.ports.get p).resp.length + respCount i s →
    step s = .next (s.withEnv { s.env with agenda := rest })

/-- R54, R58: a command that completes appends exactly its number of response words, at the end of its own port's FIFO, and touches no
other FIFO and no command stream. -/
def Obligations.CommandsAppendTheirResponses : Prop :=
  ∀ (i : Instr) (s t : State), exec i s = .next t →
    (∃ ws, (t.ports.get (portOf i)).resp = (s.ports.get (portOf i)).resp ++ ws ∧ ws.length = respCount i s) ∧
    (∀ q, q ≠ portOf i → (t.ports.get q).resp = (s.ports.get q).resp) ∧
    (∀ q, (t.ports.get q).stream = (s.ports.get q).stream)

/-! ## Arithmetic -/

/-- R11: `fadd` and `fsub` of finite values are the exact sum and difference, rounded to nearest, ties to even. An exact zero is `-0.0`
when both terms are zeros of negative sign (the second one's sign flipped for `fsub`) and `+0.0` otherwise. A term that is an infinity
is the result, unless the other one is a NaN or makes the operation invalid. -/
def Obligations.AddAndSubRoundTheExactResult : Prop :=
  ∀ a b : F32,
    (fIsFinite a = true → fIsFinite b = true →
      isRounded (fUnits a + fUnits b) 1 (fadd a b) ∧ isRounded (fUnits a - fUnits b) 1 (fsub a b) ∧
      (fUnits a + fUnits b = 0 → fadd a b = if a = negZero ∧ b = negZero then negZero else posZero) ∧
      (fUnits a - fUnits b = 0 → fsub a b = if a = negZero ∧ b = posZero then negZero else posZero)) ∧
    (a = posInf ∨ a = negInf → fIsNaN b = false → (b ≠ fneg a → fadd a b = a) ∧ (b ≠ a → fsub a b = a)) ∧
    (b = posInf ∨ b = negInf → fIsFinite a = true → fadd a b = b ∧ fsub a b = fneg b)

/-- R11: `fmul` of finite values is the exact product rounded to nearest, ties to even. Its sign, a zero's too, is that of the product
of the signs, and an infinity times a value that is no zero and no NaN is an infinity of that sign. -/
def Obligations.MulRoundsTheExactProduct : Prop :=
  ∀ a b : F32,
    (fIsFinite a = true → fIsFinite b = true →
      isRounded (fUnits a * fUnits b) (2 ^ 149) (fmul a b) ∧ fSign (fmul a b) = (fSign a != fSign b)) ∧
    (fIsInf a = true ∨ fIsInf b = true → fIsNaN a = false → fIsNaN b = false → fIsZero a = false → fIsZero b = false →
      fmul a b = if fSign a = fSign b then posInf else negInf)

/-- R11: `fdiv` of a finite value by a finite value that is not zero is the exact quotient rounded to nearest, ties to even, and its
sign, a zero's too, is that of the quotient of the signs. So is the sign of the infinity that a value other than zero divided by a
zero, or an infinity divided by a finite value, gives, and of the zero that a finite value divided by an infinity gives. -/
def Obligations.DivRoundsTheExactQuotient : Prop :=
  ∀ a b : F32,
    (fIsFinite a = true → fIsFinite b = true → fIsZero b = false →
      isRounded (fUnits a * (fUnits b).sign * 2 ^ 149) |fUnits b| (fdiv a b) ∧ fSign (fdiv a b) = (fSign a != fSign b)) ∧
    (fIsFinite a = true → fIsZero a = false → fIsZero b = true → fdiv a b = if fSign a = fSign b then posInf else negInf) ∧
    (fIsInf a = true → fIsFinite b = true → fdiv a b = if fSign a = fSign b then posInf else negInf) ∧
    (fIsFinite a = true → fIsInf b = true → fdiv a b = if fSign a = fSign b then posZero else negZero)

/-- R11: `fsqrt` of a finite value above zero is finite, not below zero, and no finite value is nearer to the exact root. The root of a
zero is that zero, of `+inf` is `+inf`. -/
def Obligations.SqrtIsTheNearestValue : Prop :=
  (∀ a c : F32, fIsFinite a = true → fSign a = false → fIsZero a = false → fIsFinite c = true →
    fIsFinite (fsqrt a) = true ∧ fSign (fsqrt a) = false ∧
    |(fUnits (fsqrt a) : ℝ) - Real.sqrt (fUnits a * 2 ^ 149)| ≤ |(fUnits c : ℝ) - Real.sqrt (fUnits a * 2 ^ 149)|) ∧
  fsqrt posZero = posZero ∧ fsqrt negZero = negZero ∧ fsqrt posInf = posInf

/-- R11: an operation answers a NaN exactly on a NaN operand or an invalid operation of IEEE 754, and the NaN is quiet. -/
def Obligations.NaNResultsAreTheInvalidOperations : Prop :=
  ∀ a b : F32,
    (fIsNaN (fadd a b) = true ↔ fIsNaN a = true ∨ fIsNaN b = true ∨ (fIsInf a = true ∧ fIsInf b = true ∧ fSign a ≠ fSign b)) ∧
    (fIsNaN (fsub a b) = true ↔ fIsNaN a = true ∨ fIsNaN b = true ∨ (fIsInf a = true ∧ fIsInf b = true ∧ fSign a = fSign b)) ∧
    (fIsNaN (fmul a b) = true ↔ fIsNaN a = true ∨ fIsNaN b = true ∨ (fIsInf a = true ∧ fIsZero b = true) ∨
      (fIsZero a = true ∧ fIsInf b = true)) ∧
    (fIsNaN (fdiv a b) = true ↔ fIsNaN a = true ∨ fIsNaN b = true ∨ (fIsInf a = true ∧ fIsInf b = true) ∨
      (fIsZero a = true ∧ fIsZero b = true)) ∧
    (fIsNaN (fsqrt a) = true ↔ fIsNaN a = true ∨ (fSign a = true ∧ fIsZero a = false)) ∧
    (∀ r, r = fadd a b ∨ r = fsub a b ∨ r = fmul a b ∨ r = fdiv a b ∨ r = fsqrt a → fIsNaN r = true → isQuietNaN r)

/-- R11, R13: `<` and `==` compare the numbers, and are false on a NaN. The infinities lie beyond every finite value and each equals
itself alone. `fmin` and `fmax` answer by `<`, `fneg` flips the sign bit and `fabs` clears it. -/
def Obligations.ComparisonsFollowTheNumbers : Prop :=
  ∀ a b : F32,
    (fIsFinite a = true → fIsFinite b = true →
      (flt a b = true ↔ fUnits a < fUnits b) ∧ (feq a b = true ↔ fUnits a = fUnits b)) ∧
    (fIsNaN a = true ∨ fIsNaN b = true → flt a b = false ∧ feq a b = false) ∧
    (fIsFinite a = true → flt a posInf = true ∧ flt negInf a = true ∧ feq a posInf = false ∧ feq a negInf = false) ∧
    (flt a negInf = false ∧ flt posInf a = false ∧ flt negInf posInf = true ∧ feq posInf posInf = true ∧ feq negInf negInf = true) ∧
    (fmin a b = if flt a b = true then a else b) ∧ (fmax a b = if flt b a = true then a else b) ∧
    (∀ k, k < 32 → (fneg a).getLsbD k = (if k = 31 then !a.getLsbD k else a.getLsbD k) ∧
      (fabs a).getLsbD k = (if k = 31 then false else a.getLsbD k))

/-! ## Coefficient calculator -/

/-- R70: a sample rate that is zero, negative, a NaN or infinite gives `IDENT`. -/
def Obligations.BadSampleRateGivesIdent : Prop :=
  ∀ (ty : FilterType) (sr f q gdb : F32), flt posZero sr = false ∨ sr = posInf →
    coefCalc ty sr f q gdb = ⟨0x3F800000#32, 0#32, 0#32, 0#32, 0#32⟩

/-- R71 to R73, R75 to R83: the calculator's result for each of the eight types on a positive finite sample rate, as the rules write it. -/
def Obligations.CookbookFormsOfTheEightTypes : Prop :=
  ∀ sr f q gdb : F32, flt posZero sr = true → sr ≠ posInf →
    let fc := fmin f (fmul sr 0x3EFFBE77#32)
    let qc := fmax q 0x3C23D70A#32
    let w0 := fdiv (fmul 0x40C90FDB#32 fc) sr
    let cw := cos32 w0
    let sw := sin32 w0
    let alpha := fdiv sw (fmul fTwo qc)
    let A := pow10 (fdiv gdb fForty)
    let norm := fun (b0 b1 b2 a0 a1 a2 : F32) => (⟨fdiv b0 a0, fdiv b1 a0, fdiv b2 a0, fdiv a1 a0, fdiv a2 a0⟩ : Coef)
    let a0 := fadd fOne alpha
    let a1 := fmul fNegTwo cw
    let a2 := fsub fOne alpha
    let k := fmul (fmul fTwo (fsqrt A)) alpha
    let Ap1 := fadd A fOne
    let Am1 := fsub A fOne
    let mc := fmul Am1 cw
    let pc := fmul Ap1 cw
    coefCalc .lowPass sr f q gdb =
      norm (fmul (fsub fOne cw) fHalf) (fsub fOne cw) (fmul (fsub fOne cw) fHalf) a0 a1 a2 ∧
    coefCalc .highPass sr f q gdb =
      norm (fmul (fadd fOne cw) fHalf) (fneg (fadd fOne cw)) (fmul (fadd fOne cw) fHalf) a0 a1 a2 ∧
    coefCalc .bandPass sr f q gdb = norm alpha posZero (fneg alpha) a0 a1 a2 ∧
    coefCalc .notch sr f q gdb = norm fOne a1 fOne a0 a1 a2 ∧
    coefCalc .allPass sr f q gdb = norm a2 a1 a0 a0 a1 a2 ∧
    coefCalc .peak sr f q gdb =
      norm (fadd fOne (fmul alpha A)) a1 (fsub fOne (fmul alpha A)) (fadd fOne (fdiv alpha A)) a1 (fsub fOne (fdiv alpha A)) ∧
    coefCalc .lowShelf sr f q gdb =
      norm (fmul A (fadd (fsub Ap1 mc) k)) (fmul (fmul fTwo A) (fsub Am1 pc)) (fmul A (fsub (fsub Ap1 mc) k))
        (fadd (fadd Ap1 mc) k) (fmul fNegTwo (fadd Am1 pc)) (fsub (fadd Ap1 mc) k) ∧
    coefCalc .highShelf sr f q gdb =
      norm (fmul A (fadd (fadd Ap1 mc) k)) (fmul (fmul fNegTwo A) (fadd Am1 pc)) (fmul A (fsub (fadd Ap1 mc) k))
        (fadd (fsub Ap1 mc) k) (fmul fTwo (fsub Am1 pc)) (fsub (fsub Ap1 mc) k)

/-- R87: a Peak band at `±0.0` dB has `b0 = 1.0`, `b1 = a1` and `b2 = a2`, bit for bit. Stated where `alpha` is finite and not below
zero, which R73 gives for every sample rate but some of the least subnormals. -/
def Obligations.PeakAtZeroDecibelsIsFlat : Prop :=
  ∀ sr f q gdb : F32, validRate sr = true → fIsZero gdb = true →
    fIsFinite (alphaOf (sin32 (angularFreq f sr)) q) = true → fle posZero (alphaOf (sin32 (angularFreq f sr)) q) = true →
    (coefCalc .peak sr f q gdb).b0 = fOne ∧
    (coefCalc .peak sr f q gdb).b1 = (coefCalc .peak sr f q gdb).a1 ∧
    (coefCalc .peak sr f q gdb).b2 = (coefCalc .peak sr f q gdb).a2

/-- R86, R121: the properties of the configuration functions. Two readings of R86 are the model's: at `TWO_PI32/2`, which lies above π,
`Sin32` is not below zero (DESIGN CHOICE, entry 16), and `Pow10_32` underflows where the power lies below `2^-126`, the least normal
value (DEDUCED, entry 17). -/
def Obligations.ConfigurationFunctionsKeepTheirProperties : Prop :=
  (pow10 posZero = fOne ∧ pow10 negZero = fOne) ∧
  (∀ x, fIsFinite x = true → inRange (sin32 x) 0xBF800000#32 fOne = true ∧ inRange (cos32 x) 0xBF800000#32 fOne = true ∧
    (inRange x posZero 0x40490FDB#32 = true → fle posZero (sin32 x) = true)) ∧
  (∀ x, fIsFinite x = true → flt posZero (pow10 x) = true ∨ (pow10 x = posZero ∧ (10 : ℝ) ^ fReal x < 1 / 2 ^ 126)) ∧
  (pow10 posInf = posInf ∧ pow10 negInf = posZero) ∧
  (log10 fOne = posZero ∧ log10 posZero = negInf ∧ ∀ x, flt x posZero = true → fIsNaN (log10 x) = true) ∧
  (∀ X : List F32, (spectrumFn X).length = X.length / 2 ∧
    ((∀ x ∈ X, fIsZero x = true) → ∀ b ∈ spectrumFn X, b = 0xC2C80000#32) ∧
    ((∀ x ∈ X, fIsFinite x = true) → ∀ b ∈ spectrumFn X, fIsFinite b = true ∧ fle 0xC2C80000#32 b = true))

/-! ## Bands, cascade, mix -/

/-- R93: `Flush` answers `+0.0` for a value nearer to zero than `FLUSH_TH` and the value itself otherwise, NaNs and infinities too. -/
def Obligations.FlushZeroesOnlyTinyValues : Prop :=
  ∀ v : F32, (fIsFinite v = true → |fUnits v| < fUnits 0x0DA24260#32 → flush v = 0x00000000#32) ∧
    (fIsFinite v = false ∨ fUnits 0x0DA24260#32 ≤ |fUnits v| → flush v = v)

/-- R97: running the cascade band by band or sample by sample gives the same samples and the same delay registers. Where a NaN arises
this rests on the model's NaN payloads, which are a function of the operation and its operands (DEDUCED, entry 5). -/
def Obligations.BandMajorEqualsSampleMajor : Prop :=
  ∀ (coef : Vector Coef 10) (c : Nat) (bands : List (Fin 10)) (buf : List F32) (fs : Memory), bands.Nodup →
    (chainProcess coef c bands buf fs).1 = (chainSampleMajor coef c bands buf fs).1 ∧
    ∀ k, (chainProcess coef c bands buf fs).2.read (some posZero) k =
      (chainSampleMajor coef c bands buf fs).2.read (some posZero) k

/-- R99: a channel's result does not depend on another channel's delay registers, and leaves them alone. Where a NaN arises this rests
on the model's NaN payloads, which are a function of the operation and its operands (DEDUCED, entry 5). -/
def Obligations.ChannelsAreIndependent : Prop :=
  ∀ (coef : Vector Coef 10) (c : Nat) (bands : List (Fin 10)) (buf : List F32) (fs gs : Memory), c < 256 →
    (∀ i : Fin 10, fsGet fs i c = fsGet gs i c) →
    (chainProcess coef c bands buf fs).1 = (chainProcess coef c bands buf gs).1 ∧
    (∀ i : Fin 10, fsGet (chainProcess coef c bands buf fs).2 i c = fsGet (chainProcess coef c bands buf gs).2 i c) ∧
    (∀ (i : Fin 10) (d : Nat), d < 256 → d ≠ c → fsGet (chainProcess coef c bands buf fs).2 i d = fsGet fs i d)

/-- R95: a flat Peak band with zero state passes every finite input on, `-0.0` as `+0.0`, and its state stays zero. Stated where the
two products of the recurrence are finite: when they overflow, their difference is a NaN (R11), which R95 does not mention. -/
def Obligations.FlatBandIsTheIdentity : Prop :=
  ∀ (c1 c2 : F32) (xs : List F32),
    (∀ x ∈ xs, fIsFinite x = true ∧ fIsFinite (fmul c1 x) = true ∧ fIsFinite (fmul c2 x) = true) →
    bandProcess ⟨fOne, c1, c2, c1, c2⟩ ⟨posZero, posZero⟩ xs =
      (xs.map (fun x => if x = negZero then posZero else x), ⟨posZero, posZero⟩)

/-- R100, R101, R102: the band-count update zeroes the delay registers of the slots a growth adds, makes them Stale, keeps the others,
sets the active count, and changes nothing else. -/
def Obligations.BandCountUpdateZeroesGrownSlots : Prop :=
  ∀ s : State,
    (bandCountUpdate s).E = { s.E with activeCount := s.S.bandCount } ∧
    (∀ (i : Fin 10) (c : Nat), c < 256 →
      fsGet (bandCountUpdate s).bands.fs i c =
        if s.E.activeCount.val ≤ i.val ∧ i.val < s.S.bandCount.val then ⟨posZero, posZero⟩ else fsGet s.bands.fs i c) ∧
    (∀ i : Fin 10, (bandCountUpdate s).bands.valid[i] =
      if s.E.activeCount.val ≤ i.val ∧ i.val < s.S.bandCount.val then false else s.bands.valid[i]) ∧
    (bandCountUpdate s).bands.coef = s.bands.coef ∧ (bandCountUpdate s).bands.used = s.bands.used ∧
    (bandCountUpdate s).P = s.P ∧ (bandCountUpdate s).S = s.S ∧ (bandCountUpdate s).mem = s.mem ∧ (bandCountUpdate s).ev = s.ev ∧
    (bandCountUpdate s).dims = s.dims ∧ (bandCountUpdate s).ports = s.ports ∧ (bandCountUpdate s).job = s.job ∧
    (bandCountUpdate s).env = s.env

/-- R90: the coefficient update leaves a Fresh band's coefficients, recomputes a Stale one's from the snapshot and `E.SR`, leaves every
active band Fresh, and touches no inactive band, no delay register and nothing outside the band state. -/
def Obligations.UpdateRecomputesExactlyTheStaleBands : Prop :=
  ∀ (s : State) (i : Fin 10),
    let t := updateAll (activeBands s.E.activeCount) s
    (i.val < s.E.activeCount.val →
      t.bands.used[i] = bandKey s i ∧ t.bands.valid[i] = true ∧
      t.bands.coef[i] =
        if s.bands.valid[i] = true ∧ s.bands.used[i] = bandKey s i then s.bands.coef[i]
        else coefCalc s.S.type[i] s.E.sr s.S.freq[i] s.S.q[i] s.S.gain[i]) ∧
    (s.E.activeCount.val ≤ i.val →
      t.bands.used[i] = s.bands.used[i] ∧ t.bands.valid[i] = s.bands.valid[i] ∧ t.bands.coef[i] = s.bands.coef[i]) ∧
    t.bands.fs = s.bands.fs ∧ t = { s with bands := t.bands }

/-- R104, R105, R106: the mix at its two endpoints and between, with the gain on the wet path only. The linear gain is `Pow10_32` of the
gain over 20.0, for every gain, so 1.0 at `±0.0` dB, `+inf` at `+inf` and `+0.0` at `-inf`. -/
def Obligations.MixEndpointsAndFormula : Prop :=
  (∀ wet dry g : F32, mixSample wet dry g posZero = dry ∧ mixSample wet dry g negZero = dry ∧ mixSample wet dry g fOne = fmul wet g) ∧
  (∀ wet dry g m : F32, feq m posZero = false → feq m fOne = false →
    mixSample wet dry g m = fadd (fmul (fmul wet g) m) (fmul dry (fsub fOne m))) ∧
  (∀ gdb : F32, linearGain gdb = pow10 (fdiv gdb 0x41A00000#32)) ∧
  linearGain posZero = fOne ∧ linearGain negZero = fOne ∧ linearGain posInf = posInf ∧ linearGain negInf = posZero

/-! ## Parameter commands -/

/-- R128, R130: `SET_BAND_TYPE` stores a code below 8 in a slot below 10, and otherwise raises condition 1 and stores nothing. -/
def Obligations.SetBandTypeStoresAValidCode : Prop :=
  ∀ (s : State) (band code : Nat),
    (∀ (h : band < 10) (ty : FilterType), filterCode ty = code →
      exec (.setBandType band code) s = .next { s with P := { s.P with type := s.P.type.set band ty } }) ∧
    (10 ≤ band ∨ 8 ≤ code → exec (.setBandType band code) s = .next { s with ev := s.ev ||| 0x01#7 })

/-- R128, R131, R132, R133: the band writes clamp to their range and store, raising condition 1 when the clamp changed the value. An
index from 10 on or a NaN raises condition 1 and stores nothing. -/
def Obligations.BandWritesClampAndStore : Prop :=
  ∀ (s : State) (band : Nat) (v : F32),
    (∀ h : band < 10, fIsNaN v = false →
      let hz := if flt v 0x41A00000#32 then 0x41A00000#32 else if flt 0x469C4000#32 v then 0x469C4000#32 else v
      let q := if flt v 0x3DCCCCCD#32 then 0x3DCCCCCD#32 else if flt 0x41200000#32 v then 0x41200000#32 else v
      let db := if flt v 0xC1C00000#32 then 0xC1C00000#32 else if flt 0x41C00000#32 v then 0x41C00000#32 else v
      exec (.setBandFreq band v) s =
        .next { s with P := { s.P with freq := s.P.freq.set band hz }, ev := if hz = v then s.ev else s.ev ||| 0x01#7 } ∧
      exec (.setBandQ band v) s =
        .next { s with P := { s.P with q := s.P.q.set band q }, ev := if q = v then s.ev else s.ev ||| 0x01#7 } ∧
      exec (.setBandGain band v) s =
        .next { s with P := { s.P with gain := s.P.gain.set band db }, ev := if db = v then s.ev else s.ev ||| 0x01#7 }) ∧
    (10 ≤ band ∨ fIsNaN v = true →
      exec (.setBandFreq band v) s = .next { s with ev := s.ev ||| 0x01#7 } ∧
      exec (.setBandQ band v) s = .next { s with ev := s.ev ||| 0x01#7 } ∧
      exec (.setBandGain band v) s = .next { s with ev := s.ev ||| 0x01#7 })

/-- R134, R135: `SET_GLOBAL_GAIN` stores any value but a NaN. `SET_MIX` clamps to [0, 1]. Both raise condition 1 on a NaN and store
nothing. -/
def Obligations.GlobalGainAndMixWrites : Prop :=
  ∀ (s : State) (v : F32),
    (fIsNaN v = false →
      let m := if flt v 0x00000000#32 then 0x00000000#32 else if flt 0x3F800000#32 v then 0x3F800000#32 else v
      exec (.setGlobalGain v) s = .next { s with P := { s.P with globalGain := v } } ∧
      exec (.setMix v) s =
        .next { s with P := { s.P with mix := m }, ev := if m = v then s.ev else s.ev ||| 0x01#7 }) ∧
    (fIsNaN v = true →
      exec (.setGlobalGain v) s = .next { s with ev := s.ev ||| 0x01#7 } ∧
      exec (.setMix v) s = .next { s with ev := s.ev ||| 0x01#7 })

/-- R129, R136, R137: `NOP` changes no state, and the two flag commands store their bit and nothing else. -/
def Obligations.NopAndFlagWrites : Prop :=
  ∀ (s : State) (v : Bool),
    exec .nop s = .next s ∧
    exec (.setBypass v) s = .next { s with P := { s.P with bypass := v } } ∧
    exec (.setAnalyzerEn v) s = .next { s with P := { s.P with analyzerEn := v } }

/-- R138: `SET_BAND_COUNT` clamps to 0..10, raises condition 1 when that changed the count, sets the slots it grows over to the default
flat parameters, and stores the count. -/
def Obligations.SetBandCountStagesTheCount : Prop :=
  ∀ (s : State) (n : Int), ∃ t, exec (.setBandCount n) s = .next t ∧
    ((t.P.bandCount.val : Int) = max 0 (min n 10)) ∧
    (t.ev = if 0 ≤ n ∧ n ≤ 10 then s.ev else s.ev ||| 0x01#7) ∧
    (∀ i : Fin 10, s.P.bandCount.val ≤ i.val ∧ i.val < t.P.bandCount.val →
      t.P.type[i] = .peak ∧
      t.P.freq[i] = (#v[0x41A00000#32, 0x422C5AD3#32, 0x42B9A9DF#32, 0x43480000#32, 0x43D77187#32, 0x44681456#32, 0x44FA0000#32,
        0x4586A6F4#32, 0x46110CB6#32, 0x469C4000#32] : Vector (BitVec 32) 10)[i] ∧
      t.P.q[i] = 0x3F800000#32 ∧ t.P.gain[i] = 0#32) ∧
    (∀ i : Fin 10, ¬(s.P.bandCount.val ≤ i.val ∧ i.val < t.P.bandCount.val) →
      t.P.type[i] = s.P.type[i] ∧ t.P.freq[i] = s.P.freq[i] ∧ t.P.q[i] = s.P.q[i] ∧ t.P.gain[i] = s.P.gain[i]) ∧
    t.P.globalGain = s.P.globalGain ∧ t.P.mix = s.P.mix ∧ t.P.bypass = s.P.bypass ∧ t.P.analyzerEn = s.P.analyzerEn ∧
    t = { s with P := t.P, ev := t.ev }

/-- R30, R139, R140: `GET_STATUS` answers the `STATUS` word, bit 0 `PREPARED`, bit 1 `SNAP_VALID`, bits 14:8 `EV`, every other bit 0,
and `CLEAR_STATUS` clears the bits of `EV` its mask sets. Neither changes anything else. -/
def Obligations.StatusIsReadAndCleared : Prop :=
  ∀ (s : State) (mask : BitVec 7),
    (∃ w : BitVec 32, exec .getStatus s = .next (s.respond .ctrl [w]) ∧
      ∀ k, k < 32 → w.getLsbD k =
        if k = 0 then s.E.prepared else if k = 1 then s.E.snapValid
        else if 8 ≤ k ∧ k ≤ 14 then s.ev.getLsbD (k - 8) else false) ∧
    (∃ e, exec (.clearStatus mask) s = .next { s with ev := e } ∧
      ∀ k, k < 7 → e.getLsbD k = (s.ev.getLsbD k && !mask.getLsbD k))

/-! ## Block commands -/

/-- R142, R143: what `PREPARE` sets, what it resets, which conditions it raises, and what it keeps. -/
def Obligations.PrepareStartsTheStream : Prop :=
  ∀ (s : State) (maxBlock : Nat) (sr : F32), s.dims.wf → ∃ t, exec (.prepare maxBlock sr) s = .next t ∧
    t.E = { s.E with prepared := true, sr := sr, maxBlk := max 1 (min maxBlock s.dims.maxBlockCap), activeCount := 0, wp := 0,
                     snapValid := false } ∧
    (∀ i : Fin 10, t.bands.valid[i] = false) ∧ (∀ i c, fsGet t.bands.fs i c = ⟨posZero, posZero⟩) ∧
    t.bands.coef = s.bands.coef ∧ t.bands.used = s.bands.used ∧
    (∀ j, memRead t .cap j = some posZero) ∧ (∀ sp k, sp ≠ Space.cap → memRead t sp k = memRead s sp k) ∧
    (t.ev = s.ev |||
      (if (1 ≤ maxBlock ∧ maxBlock ≤ s.dims.maxBlockCap) ∧ flt posZero sr = true ∧ sr ≠ posInf then 0x00#7 else 0x01#7) |||
      (if s.E.prepared = true ∧ sr ≠ s.E.sr then 0x04#7 else 0x00#7)) ∧
    t.P = s.P ∧ t.S = s.S ∧ t.ports = s.ports ∧ t.job = s.job ∧ t.env = s.env ∧ t.dims = s.dims

/-- R144: a block that does not fit the memories, or exceeds `E.MAXBLK` when prepared, raises condition 5 and nothing else. -/
def Obligations.OversizeBlockIsRejected : Prop :=
  ∀ (s : State) (C n : Nat),
    s.dims.maxChannels < C ∨ s.dims.maxBlockCap < n ∨ (s.E.prepared = true ∧ s.E.maxBlk < n) →
    exec (.process C n) s = .next { s with ev := s.ev ||| 0x10#7 }

/-- R147: before any `PREPARE` a block that fits is a bit copy of `IN` to `OUT` with condition 2, and nothing else. -/
def Obligations.UnpreparedBlockPassesThrough : Prop :=
  ∀ (s : State) (C n : Nat), s.dims.wf → C ≤ s.dims.maxChannels → n ≤ s.dims.maxBlockCap → s.E.prepared = false →
    blockFed s C n → ∃ t, exec (.process C n) s = .next t ∧
      (∀ c k, c < C → k < n → memRead t .out (sampleIx c k) = memRead s .inp (sampleIx c k)) ∧
      (∀ j, (∀ c k, c < C → k < n → j ≠ sampleIx c k) → memRead t .out j = memRead s .out j) ∧
      (∀ sp j, sp ≠ Space.out → memRead t sp j = memRead s sp j) ∧
      t = { s with mem := t.mem, ev := s.ev ||| 0x02#7 }

/-- R25, R41, R144, R145: an accepted, prepared `PROCESS` completes its first atomic step, and every snapshot step copies one of the
fields that remain into the snapshot, takes it off them, and changes nothing else but the free choice taken, the next of `env.picks` or,
when none is left there, one drawn. Every field that remains can be the one copied. Where the first of these steps falls (entry 8) and
where the choice is held (entry 3) are the model's. -/
def Obligations.SnapshotStepsCopyOneFieldEach : Prop :=
  ∀ (s : State) (C n : Nat),
    let env : Env := { s.env with picks := s.env.picks.tail, drawn := if s.env.picks = [] then s.env.drawn + 1 else s.env.drawn }
    (blockAccepted s C n →
      (∃ f ∈ allFields, exec (.process C n) s =
        .next { s with S := copyField s.P s.S f, job := some ⟨C, n, .snapshot (allFields.erase f)⟩, env := env }) ∧
      (∀ f : PField, ∃ k, ∀ ks, exec (.process C n) (s.withEnv { s.env with picks := k :: ks }) =
        .next { s with S := copyField s.P s.S f, job := some ⟨C, n, .snapshot (allFields.erase f)⟩,
                       env := { s.env with picks := ks } })) ∧
    (∀ todo : List PField, todo ≠ [] →
      (∃ f ∈ todo, blockStep ⟨C, n, .snapshot todo⟩ s =
        .next { s with S := copyField s.P s.S f, job := some ⟨C, n, .snapshot (todo.erase f)⟩, env := env }) ∧
      (∀ f ∈ todo, ∃ k, ∀ ks, blockStep ⟨C, n, .snapshot todo⟩ (s.withEnv { s.env with picks := k :: ks }) =
        .next { s with S := copyField s.P s.S f, job := some ⟨C, n, .snapshot (todo.erase f)⟩,
                       env := { s.env with picks := ks } }))

/-- R105, R107, R108, R145: an unbypassed block's compute step writes to each `OUT` word of the block the mix of its wet and dry
sample, on the state after the band-count and coefficient updates, and leaves every other `OUT` word, all of `IN`, `CAP` and `SPEC`, the
parameters and the conditions. -/
def Obligations.ComputeStepWritesTheMixedBlock : Prop :=
  ∀ (s : State) (C n : Nat), s.dims.wf → C ≤ s.dims.maxChannels → n ≤ s.dims.maxBlockCap → blockFed s C n → s.S.bypass = false →
    let u := updateAll (activeBands s.S.bandCount) (bandCountUpdate s)
    ∃ t, blockStep ⟨C, n, .snapshot []⟩ s = .next t ∧
      (∀ c k, c < C → k < n → memRead t .out (sampleIx c k) =
        some (mixSample ((wetRow u c n).getD k posZero) (inWord s c k) (linearGain s.S.globalGain) s.S.mix)) ∧
      (∀ c k, c < C → k < n → memRead t .dry (sampleIx c k) = memRead s .inp (sampleIx c k)) ∧
      (∀ sp j, (sp = .out ∨ sp = .dry) → (∀ c k, c < C → k < n → j ≠ sampleIx c k) → memRead t sp j = memRead s sp j) ∧
      (∀ sp j, sp ≠ .out → sp ≠ .dry → memRead t sp j = memRead s sp j) ∧
      (∀ (i : Fin 10) (c : Nat), C ≤ c → c < 256 → fsGet t.bands.fs i c = fsGet u.bands.fs i c) ∧
      t.E = { s.E with activeCount := s.S.bandCount } ∧ t.bands = { u.bands with fs := t.bands.fs } ∧ t.P = s.P ∧ t.S = s.S ∧
      t.ev = s.ev ∧ t.ports = s.ports ∧ t.env = s.env ∧ t.dims = s.dims ∧
      t.job = if s.S.analyzerEn = true ∧ 1 ≤ C ∧ 1 ≤ n then some ⟨C, n, .capture 0⟩ else none

/-- R92, R93, R96, R97, R98, R146: one sample through one band is R92's recurrence, operation by operation, on every coefficient set,
state and input. A band takes its samples in order, each on the registers the one before left. The cascade runs the active bands, which
are 0 to the count less one in rising order, each on its own registers and on the samples the band before left. The compute step of an unbypassed
block whose inputs are written completes, and after it the delay registers of a channel in the block are those the cascade leaves when
it runs the channel's samples from the registers it had, and the inactive bands keep theirs. -/
def Obligations.ComputeStepAdvancesTheFilterState : Prop :=
  (∀ (b0 b1 b2 a1 a2 z1 z2 x : F32),
    let y := fadd (fmul b0 x) z1
    let n1 := fadd (fsub (fmul b1 x) (fmul a1 y)) z2
    let n2 := fsub (fmul b2 x) (fmul a2 y)
    biquadStep ⟨b0, b1, b2, a1, a2⟩ ⟨z1, z2⟩ x =
      (y, ⟨if flt (fabs n1) 0x0DA24260#32 then 0x00000000#32 else n1, if flt (fabs n2) 0x0DA24260#32 then 0x00000000#32 else n2⟩)) ∧
  (∀ (c : Coef) (z : Taps), bandProcess c z [] = ([], z) ∧ ∀ (xs : List F32) (x : F32),
    bandProcess c z (xs ++ [x]) =
      ((bandProcess c z xs).1 ++ [(biquadStep c (bandProcess c z xs).2 x).1], (biquadStep c (bandProcess c z xs).2 x).2)) ∧
  (∀ n : Fin 11, (activeBands n).map Fin.val = List.range n.val) ∧
  (∀ (coef : Vector Coef 10) (c : Nat) (buf : List F32) (fs : Memory), chainProcess coef c [] buf fs = (buf, fs) ∧
    ∀ (is : List (Fin 10)) (i : Fin 10),
      let r := chainProcess coef c is buf fs
      let q := bandProcess coef[i] (fsGet r.2 i c) r.1
      chainProcess coef c (is ++ [i]) buf fs = (q.1, fsSet r.2 i c q.2)) ∧
  ∀ (s : State) (C n : Nat), s.dims.wf → C ≤ s.dims.maxChannels → n ≤ s.dims.maxBlockCap → blockFed s C n → s.S.bypass = false →
    let u := updateAll (activeBands s.S.bandCount) (bandCountUpdate s)
    ∃ t, blockStep ⟨C, n, .snapshot []⟩ s = .next t ∧ ∀ (c : Nat) (i : Fin 10), c < C →
      fsGet t.bands.fs i c =
        fsGet (chainProcess u.bands.coef c (activeBands s.S.bandCount) (inRow s c n) u.bands.fs).2 i c ∧
      (s.S.bandCount.val ≤ i.val → fsGet t.bands.fs i c = fsGet u.bands.fs i c)

/-- R110, R111, R112, R113, R114: a bypassed block copies `IN` to `OUT` bit for bit, still updates the band count and the coefficients,
and changes no delay register of a band that was active already. -/
def Obligations.BypassedBlockCopiesAndKeepsState : Prop :=
  ∀ (s : State) (C n : Nat), s.dims.wf → C ≤ s.dims.maxChannels → n ≤ s.dims.maxBlockCap → blockFed s C n → s.S.bypass = true →
    let u := updateAll (activeBands s.S.bandCount) (bandCountUpdate s)
    ∃ t, blockStep ⟨C, n, .snapshot []⟩ s = .next t ∧
      (∀ c k, c < C → k < n → memRead t .out (sampleIx c k) = memRead s .inp (sampleIx c k)) ∧
      (∀ c k, c < C → k < n → memRead t .dry (sampleIx c k) = memRead s .inp (sampleIx c k)) ∧
      (∀ sp j, (sp = .out ∨ sp = .dry) → (∀ c k, c < C → k < n → j ≠ sampleIx c k) → memRead t sp j = memRead s sp j) ∧
      (∀ sp j, sp ≠ .out → sp ≠ .dry → memRead t sp j = memRead s sp j) ∧
      t.bands = u.bands ∧ (∀ (i : Fin 10) (c : Nat), i.val < s.E.activeCount.val → c < 256 → fsGet t.bands.fs i c = fsGet s.bands.fs i c) ∧
      t.E = { s.E with activeCount := s.S.bandCount } ∧ t.P = s.P ∧ t.S = s.S ∧ t.ev = s.ev ∧ t.ports = s.ports ∧ t.env = s.env ∧
      t.dims = s.dims ∧ t.job = if s.S.analyzerEn = true ∧ 1 ≤ C ∧ 1 ≤ n then some ⟨C, n, .capture 0⟩ else none

/-- R36, R146, R147, R165: a compute step whose block has an unwritten `IN` word stops with the model fault that names the first one,
and so does an unprepared `PROCESS` that fits the memories. Which one it names is the model's (entry 11). -/
def Obligations.UnwrittenInputStopsTheBlock : Prop :=
  ∀ (s : State) (C n c k : Nat), c < C → k < n → memRead s .inp (sampleIx c k) = none →
    (∀ d j, d < C → j < n → d < c ∨ (d = c ∧ j < k) → (memRead s .inp (sampleIx d j)).isSome = true) →
    blockStep ⟨C, n, .snapshot []⟩ s = .fault (.unwrittenIn c k) ∧
    (C ≤ s.dims.maxChannels → n ≤ s.dims.maxBlockCap → s.E.prepared = false →
      exec (.process C n) s = .fault (.unwrittenIn c k))

/-- R41, R116, R145, R185: when the AUDIO port alone moves, an accepted block whose inputs are written takes `45 + 1 + numSamples` steps,
or 46 without capture, and ends in the state R145 writes as one composition: all 45 fields copied, the compute step, and the `OUT` words
of channel 0 captured in order, whatever order its snapshot steps took. The agenda that gives AUDIO its turns and the choices of that
order are the model's (entry 3), and where a NaN arises this rests on its NaN payloads (DEDUCED, entry 5). -/
def Obligations.BlockRunsToItsEnd : Prop :=
  ∀ (s : State) (C n : Nat) (w : Command) (ws : List Command) (rest : List Event),
    s.dims.wf → blockAccepted s C n → blockFed s C n → s.job = none →
    s.ports.audio.stream = w :: ws → decode .audio w = .command (.process C n) → s.ports.audio.resp.length ≤ s.dims.respDepth →
    let captured := if s.P.analyzerEn = true ∧ 1 ≤ C then n else 0
    let u := computeBlock C n { s with S := s.P }
    let v := wholeBlock C n s
    s.env.agenda = List.replicate (45 + 1 + captured) (.turn .audio) ++ rest →
    ∃ t, Sys2Proof.core.run (45 + 1 + captured) s = .next t ∧
      v = captureMany ((List.range captured).map (fun k => (memRead u .out (sampleIx 0 k)).getD 0x00000000#32)) u ∧
      t.E = v.E ∧ t.bands = v.bands ∧ t.mem = v.mem ∧
      t.P = s.P ∧ t.S = s.P ∧ t.ev = s.ev ∧ t.dims = s.dims ∧ t.job = none ∧ t.env.agenda = rest ∧
      t.ports = (s.setStream .audio ws).ports

/-- R44: once its snapshot is taken, a block's steps do not depend on the parameter store. Where a NaN arises this rests on the model's
NaN payloads, which are a function of the operation and its operands (DEDUCED, entry 5). -/
def Obligations.BlockIgnoresLaterParameterWrites : Prop :=
  ∀ (s t : State) (j : Job) (P : Params), (∃ k, j.phase = .capture k) ∨ j.phase = .snapshot [] →
    blockStep j s = .next t → blockStep j (s.withP P) = .next (t.withP P)

/-- R148: `RESET` zeroes the delay registers of every band of the channels it selects and nothing else. A channel the block does not have
raises condition 1. -/
def Obligations.ResetZeroesTheSelectedChannels : Prop :=
  ∀ (s : State),
    (∃ t, exec (.reset .all) s = .next t ∧ (∀ i c, c < 256 → fsGet t.bands.fs i c = ⟨posZero, posZero⟩) ∧
      t = { s with bands := { s.bands with fs := t.bands.fs } }) ∧
    (∀ c, c < s.dims.maxChannels → c < 256 → ∃ t, exec (.reset (.channel c)) s = .next t ∧
      (∀ i d, d < 256 → fsGet t.bands.fs i d = if d = c then ⟨posZero, posZero⟩ else fsGet s.bands.fs i d) ∧
      t = { s with bands := { s.bands with fs := t.bands.fs } }) ∧
    (∀ c, s.dims.maxChannels ≤ c → exec (.reset (.channel c)) s = .next { s with ev := s.ev ||| 0x01#7 })

/-- R149: `WRITE_IN` stores its word at its index and changes nothing else. An index outside `IN` stores nothing and raises condition 1. -/
def Obligations.WriteInStoresOneWord : Prop :=
  ∀ (s : State) (c n : Nat) (v : F32),
    (c < s.dims.maxChannels → n < s.dims.maxBlockCap → ∃ t, exec (.writeIn c n v) s = .next t ∧
      memRead t .inp (sampleIx c n) = some v ∧
      (∀ sp j, sp ≠ Space.inp ∨ j ≠ sampleIx c n → memRead t sp j = memRead s sp j) ∧ t = { s with mem := t.mem }) ∧
    (s.dims.maxChannels ≤ c ∨ s.dims.maxBlockCap ≤ n → exec (.writeIn c n v) s = .next { s with ev := s.ev ||| 0x01#7 })

/-- R36, R150: `READ_OUT` answers a written word, stops on one nothing has written, and answers 0 with condition 1 outside `OUT`. -/
def Obligations.ReadOutAnswersTheWord : Prop :=
  ∀ (s : State) (c n : Nat),
    (c < s.dims.maxChannels → n < s.dims.maxBlockCap →
      (∀ v, memRead s .out (sampleIx c n) = some v → exec (.readOut c n) s = .next (s.respond .audio [v])) ∧
      (memRead s .out (sampleIx c n) = none → exec (.readOut c n) s = .fault (.unwrittenOut c n))) ∧
    (s.dims.maxChannels ≤ c ∨ s.dims.maxBlockCap ≤ n →
      exec (.readOut c n) s = .next ({ s with ev := s.ev ||| 0x01#7 }.respond .audio [0#32]))

/-- R151, R152: the debug reads answer the delay register or the coefficient they name and change nothing but their FIFO. An index out
of range answers 0 with condition 1. -/
def Obligations.DebugReadsAnswerTheRegister : Prop :=
  ∀ (s : State) (band ch k : Nat),
    (band < 10 → ch < s.dims.maxChannels →
      exec (.readState band ch .z1) s = .next (s.respond .audio [(fsGet s.bands.fs band ch).z1]) ∧
      exec (.readState band ch .z2) s = .next (s.respond .audio [(fsGet s.bands.fs band ch).z2])) ∧
    (10 ≤ band ∨ s.dims.maxChannels ≤ ch → ∀ tap,
      exec (.readState band ch tap) s = .next ({ s with ev := s.ev ||| 0x01#7 }.respond .audio [0#32])) ∧
    (∀ h : band < 10, k < 5 → exec (.readCoef band k) s = .next (s.respond .audio
      [[s.bands.coef[band].b0, s.bands.coef[band].b1, s.bands.coef[band].b2, s.bands.coef[band].a1, s.bands.coef[band].a2].getD k 0#32])) ∧
    (10 ≤ band ∨ 5 ≤ k →
      exec (.readCoef band k) s = .next ({ s with ev := s.ev ||| 0x01#7 }.respond .audio [0#32]))

/-! ## Analyzer and display commands -/

/-- R41, R116, R118, R126: a capture step, in every state where the `OUT` word it reads is written, stores that word of channel 0 at the
cursor, advances the cursor modulo `N`, and changes no other word of `CAP` and nothing else but the block's place: the next sample, or
the block's end. Where the word is not written it stops with the fault that names it (the model's, entry 11). Captures change only `CAP`
and the cursor, the window is the last `N` samples of what the window held before followed by the samples captured since, oldest first,
and the cursor has advanced by their number modulo `N`. -/
def Obligations.WindowIsTheNewestSamples : Prop :=
  (∀ (s : State) (C n k : Nat),
    (∀ v, memRead s .out (sampleIx 0 k) = some v → ∃ t, blockStep ⟨C, n, .capture k⟩ s = .next t ∧
      memRead t .cap s.E.wp = some v ∧ (∀ j, j ≠ s.E.wp → memRead t .cap j = memRead s .cap j) ∧
      t = { s with mem := { s.mem with cap := t.mem.cap }, E := { s.E with wp := (s.E.wp + 1) % s.dims.window },
                   job := if k + 1 < n then some ⟨C, n, .capture (k + 1)⟩ else none }) ∧
    (memRead s .out (sampleIx 0 k) = none → blockStep ⟨C, n, .capture k⟩ s = .fault (.unwrittenOut 0 k))) ∧
  (∀ (s : State) (vs : List F32),
    let t := captureMany vs s
    t = { s with mem := { s.mem with cap := t.mem.cap }, E := { s.E with wp := t.E.wp } } ∧
    (0 < s.dims.window → s.E.wp < s.dims.window →
      copyWindow t = (copyWindow s ++ vs).drop vs.length ∧ t.E.wp = (s.E.wp + vs.length) % s.dims.window))

/-- R122, R153, R154: `ANALYZE` does nothing while the analyzer is disabled, raises condition 7 alone when the frame is dropped, and else
publishes the spectrum of the window: all of `SPEC`, `E.SNAP_VALID` and the sequence number. Where the choice to drop is held is the
model's (entry 3). -/
def Obligations.AnalyzePublishesUnlessDropped : Prop :=
  ∀ s : State,
    (s.P.analyzerEn = false → exec .analyze s = .next s) ∧
    (s.P.analyzerEn = true → nextDrop s = true →
      exec .analyze s = .next { s.takeDrop with ev := s.ev ||| 0x40#7 }) ∧
    (s.P.analyzerEn = true → nextDrop s = false → ∃ t, exec .analyze s = .next t ∧
      (∀ k, k < s.dims.window / 2 → memRead t .spec k = (spectrumFn (copyWindow s))[k]?) ∧
      (∀ sp k, sp ≠ Space.spec ∨ s.dims.window / 2 ≤ k → memRead t sp k = memRead s sp k) ∧
      t = { s with mem := t.mem, E := { s.E with snapValid := true, snapSeq := s.E.snapSeq + 1#32 }, env := s.takeDrop.env })

/-- R155, R156: `GET_SPECTRUM` answers the one word 0 and raises condition 4 while no snapshot is published, and else the header 1, the
sequence number and the `N/2` bins in order. -/
def Obligations.GetSpectrumAnswersTheSnapshot : Prop :=
  ∀ s : State,
    (s.E.snapValid = false → exec .getSpectrum s = .next ({ s with ev := s.ev ||| 0x08#7 }.respond .disp [0x00000000#32])) ∧
    (s.E.snapValid = true → ∃ bins, exec .getSpectrum s = .next (s.respond .disp (0x00000001#32 :: s.E.snapSeq :: bins)) ∧
      bins.length = s.dims.window / 2 ∧
      ∀ k v, k < s.dims.window / 2 → memRead s .spec k = some v → bins[k]? = some v)

/-- R119, R120, R121 item 2: the reference spectrum of a silent window is the floor in every bin, and no bin of any window is below it.
For every window of four words, whose Hann weights are 0, 3/4, 3/4 and 0, the two magnitudes are those of the weighted DFT, so those of
R119's example `[1, 1, 1, 1]` are 3/16 and 3√2/16. A bin whose magnitude is not zero is `20·log10` of it over the floor. -/
def Obligations.ReferenceSpectrumOfSilenceIsTheFloor : Prop :=
  (∀ a b c d : F32, refMag [a, b, c, d] 0 = 3 / 32 * |fReal b + fReal c| ∧
    refMag [a, b, c, d] 1 = 3 / 16 * Real.sqrt (fReal b ^ 2 + fReal c ^ 2)) ∧
  (refMag [fOne, fOne, fOne, fOne] 0 = 3 / 16 ∧ refMag [fOne, fOne, fOne, fOne] 1 = 3 * Real.sqrt 2 / 16) ∧
  (∀ (X : List F32) (k : Nat), refMag X k ≠ 0 → spectrumRef X k = max (20 * Real.logb 10 (refMag X k)) (-100)) ∧
  (∀ (X : List F32) (k : Nat), (∀ x ∈ X, fIsZero x = true) → spectrumRef X k = -100) ∧
  (∀ (X : List F32) (k : Nat), -100 ≤ spectrumRef X k)

/-! ## Rules of the whole machine -/

/-- R32, R172: the power-on values the rules give, for every instance of the block. -/
def Obligations.PowerOnValues : Prop :=
  ∀ d : Dims, let s := State.powerOn d
    s.P.freq = #v[0x41A00000#32, 0x422C5AD3#32, 0x42B9A9DF#32, 0x43480000#32, 0x43D77187#32, 0x44681456#32, 0x44FA0000#32,
      0x4586A6F4#32, 0x46110CB6#32, 0x469C4000#32] ∧
    (∀ i : Fin 10, s.P.type[i] = .peak ∧ s.P.q[i] = 0x3F800000#32 ∧ s.P.gain[i] = 0#32) ∧
    s.P.globalGain = 0#32 ∧ s.P.mix = 0x3F800000#32 ∧ s.P.bypass = false ∧ s.P.analyzerEn = true ∧ s.P.bandCount = 10 ∧
    s.E = ⟨false, 0#32, 0, 0, 0, false, 0#32⟩ ∧
    (∀ i : Fin 10, s.bands.coef[i] = ⟨0x3F800000#32, 0#32, 0#32, 0#32, 0#32⟩ ∧ s.bands.valid[i] = false) ∧
    (∀ i c, fsGet s.bands.fs i c = ⟨0#32, 0#32⟩) ∧ (∀ j, memRead s .cap j = some 0#32) ∧
    (∀ k, memRead s .inp k = none ∧ memRead s .out k = none) ∧ s.ev = 0#7 ∧ s.job = none ∧
    (∀ p, (s.ports.get p).stream = [] ∧ (s.ports.get p).resp = [])

/-- R16, R40, R42: each port's steps change only the state it writes. CTRL: the parameter store, `EV`, its FIFO and stream. AUDIO: not
the parameter store, nor `SPEC` and `E.SNAP_SEQ`. DISP: `SPEC`, `E.SNAP_VALID`, `E.SNAP_SEQ`, `EV`, its FIFO and stream, and the free
choice taken. -/
def Obligations.PortsChangeOnlyTheirOwnState : Prop :=
  ∀ s t : State,
    (portStep .ctrl s = .next t →
      t.S = s.S ∧ t.E = s.E ∧ t.bands = s.bands ∧ t.mem = s.mem ∧ t.job = s.job ∧ t.env = s.env ∧ t.dims = s.dims ∧
      t.ports.audio = s.ports.audio ∧ t.ports.disp = s.ports.disp) ∧
    (portStep .audio s = .next t →
      t.P = s.P ∧ t.mem.spec = s.mem.spec ∧ t.E.snapSeq = s.E.snapSeq ∧ t.dims = s.dims ∧
      t.ports.ctrl = s.ports.ctrl ∧ t.ports.disp = s.ports.disp) ∧
    (portStep .disp s = .next t →
      t.P = s.P ∧ t.S = s.S ∧ t.bands = s.bands ∧ t.job = s.job ∧ t.dims = s.dims ∧
      t.ports.ctrl = s.ports.ctrl ∧ t.ports.audio = s.ports.audio ∧ t.mem = { s.mem with spec := t.mem.spec } ∧
      t.E = { s.E with snapValid := t.E.snapValid, snapSeq := t.E.snapSeq })

/-- R159: "Bits are sticky: only `CLEAR_STATUS` clears them". -/
def Obligations.OnlyClearStatusClearsConditions : Prop :=
  ∀ (s t : State) (p : Port) (k : Nat), portStep p s = .next t →
    (∀ mask, nextCommand p s ≠ some (.clearStatus mask)) → s.ev.getLsbD k = true → t.ev.getLsbD k = true

/-- R24: `E.PREPARED` "is never cleared except by power-on reset", and `E.SR` and `E.MAXBLK` change only by `PREPARE`. -/
def Obligations.PreparedIsNeverCleared : Prop :=
  ∀ (s t : State) (p : Port), portStep p s = .next t →
    (s.E.prepared = true → t.E.prepared = true) ∧
    ((∀ mb sr, nextCommand p s ≠ some (.prepare mb sr)) →
      t.E.prepared = s.E.prepared ∧ t.E.sr = s.E.sr ∧ t.E.maxBlk = s.E.maxBlk)

/-- R34, R35: only `WRITE_IN` writes `IN`. -/
def Obligations.OnlyWriteInWritesIn : Prop :=
  ∀ (s t : State) (p : Port), portStep p s = .next t →
    (∀ c n v, nextCommand p s ≠ some (.writeIn c n v)) → t.mem.inp = s.mem.inp

/-- R38, R52: no rule of the block reads `HOST_BYTE_ORDER` or `PORT_MAP`: a step does the same whatever they are. -/
def Obligations.PlatformParametersAreNotRead : Prop :=
  ∀ (s t : State) (o : ByteOrder) (m : PortMap), step s = .next t →
    step { s with dims := { s.dims with hostByteOrder := o, portMap := m } } =
      .next { t with dims := { t.dims with hostByteOrder := o, portMap := m } }

/-! ## Invariants -/

/-- R8, R32: the invariant holds at power-on, for every instance of the block. -/
def Obligations.PowerOnMeetsTheInvariant : Prop := ∀ d : Dims, d.wf → (State.powerOn d).Inv

/-- R20, R21, R128: every step keeps the parameter store within its ranges, whatever else the state holds. -/
def Obligations.StepKeepsParametersInRange : Prop :=
  ∀ s t : State, s.P.legal → step s = .next t → t.P.legal

/-- R20, R27, R29, R31, R34, R41, R143: every step keeps the machine's invariant. -/
def Obligations.StepKeepsTheInvariant : Prop :=
  ∀ s t : State, s.Inv → step s = .next t → t.Inv
end

