-- ==== Sys2Proof/Laws/State.lean ====
section
/-! SUPPORT. One lemma per part of the state per update, and the small lemmas of the updates built from them. -/

namespace Sys2Proof.Machine

variable (s : State) (p : Port) (c : Cond) (b : Bool)

/-! `withP` -/

@[simp] theorem State.withP_dims (x : Params) : (s.withP x).dims = s.dims := rfl
@[simp] theorem State.withP_P (x : Params) : (s.withP x).P = x := rfl
@[simp] theorem State.withP_S (x : Params) : (s.withP x).S = s.S := rfl
@[simp] theorem State.withP_E (x : Params) : (s.withP x).E = s.E := rfl
@[simp] theorem State.withP_bands (x : Params) : (s.withP x).bands = s.bands := rfl
@[simp] theorem State.withP_ev (x : Params) : (s.withP x).ev = s.ev := rfl
@[simp] theorem State.withP_mem (x : Params) : (s.withP x).mem = s.mem := rfl
@[simp] theorem State.withP_ports (x : Params) : (s.withP x).ports = s.ports := rfl
@[simp] theorem State.withP_job (x : Params) : (s.withP x).job = s.job := rfl
@[simp] theorem State.withP_env (x : Params) : (s.withP x).env = s.env := rfl

/-! `withS` -/

@[simp] theorem State.withS_dims (x : Params) : (s.withS x).dims = s.dims := rfl
@[simp] theorem State.withS_P (x : Params) : (s.withS x).P = s.P := rfl
@[simp] theorem State.withS_S (x : Params) : (s.withS x).S = x := rfl
@[simp] theorem State.withS_E (x : Params) : (s.withS x).E = s.E := rfl
@[simp] theorem State.withS_bands (x : Params) : (s.withS x).bands = s.bands := rfl
@[simp] theorem State.withS_ev (x : Params) : (s.withS x).ev = s.ev := rfl
@[simp] theorem State.withS_mem (x : Params) : (s.withS x).mem = s.mem := rfl
@[simp] theorem State.withS_ports (x : Params) : (s.withS x).ports = s.ports := rfl
@[simp] theorem State.withS_job (x : Params) : (s.withS x).job = s.job := rfl
@[simp] theorem State.withS_env (x : Params) : (s.withS x).env = s.env := rfl

/-! `withE` -/

@[simp] theorem State.withE_dims (x : Engine) : (s.withE x).dims = s.dims := rfl
@[simp] theorem State.withE_P (x : Engine) : (s.withE x).P = s.P := rfl
@[simp] theorem State.withE_S (x : Engine) : (s.withE x).S = s.S := rfl
@[simp] theorem State.withE_E (x : Engine) : (s.withE x).E = x := rfl
@[simp] theorem State.withE_bands (x : Engine) : (s.withE x).bands = s.bands := rfl
@[simp] theorem State.withE_ev (x : Engine) : (s.withE x).ev = s.ev := rfl
@[simp] theorem State.withE_mem (x : Engine) : (s.withE x).mem = s.mem := rfl
@[simp] theorem State.withE_ports (x : Engine) : (s.withE x).ports = s.ports := rfl
@[simp] theorem State.withE_job (x : Engine) : (s.withE x).job = s.job := rfl
@[simp] theorem State.withE_env (x : Engine) : (s.withE x).env = s.env := rfl

/-! `withBands` -/

@[simp] theorem State.withBands_dims (x : Bands) : (s.withBands x).dims = s.dims := rfl
@[simp] theorem State.withBands_P (x : Bands) : (s.withBands x).P = s.P := rfl
@[simp] theorem State.withBands_S (x : Bands) : (s.withBands x).S = s.S := rfl
@[simp] theorem State.withBands_E (x : Bands) : (s.withBands x).E = s.E := rfl
@[simp] theorem State.withBands_bands (x : Bands) : (s.withBands x).bands = x := rfl
@[simp] theorem State.withBands_ev (x : Bands) : (s.withBands x).ev = s.ev := rfl
@[simp] theorem State.withBands_mem (x : Bands) : (s.withBands x).mem = s.mem := rfl
@[simp] theorem State.withBands_ports (x : Bands) : (s.withBands x).ports = s.ports := rfl
@[simp] theorem State.withBands_job (x : Bands) : (s.withBands x).job = s.job := rfl
@[simp] theorem State.withBands_env (x : Bands) : (s.withBands x).env = s.env := rfl

/-! `withEv` -/

@[simp] theorem State.withEv_dims (x : BitVec 7) : (s.withEv x).dims = s.dims := rfl
@[simp] theorem State.withEv_P (x : BitVec 7) : (s.withEv x).P = s.P := rfl
@[simp] theorem State.withEv_S (x : BitVec 7) : (s.withEv x).S = s.S := rfl
@[simp] theorem State.withEv_E (x : BitVec 7) : (s.withEv x).E = s.E := rfl
@[simp] theorem State.withEv_bands (x : BitVec 7) : (s.withEv x).bands = s.bands := rfl
@[simp] theorem State.withEv_ev (x : BitVec 7) : (s.withEv x).ev = x := rfl
@[simp] theorem State.withEv_mem (x : BitVec 7) : (s.withEv x).mem = s.mem := rfl
@[simp] theorem State.withEv_ports (x : BitVec 7) : (s.withEv x).ports = s.ports := rfl
@[simp] theorem State.withEv_job (x : BitVec 7) : (s.withEv x).job = s.job := rfl
@[simp] theorem State.withEv_env (x : BitVec 7) : (s.withEv x).env = s.env := rfl

/-! `withMem` -/

@[simp] theorem State.withMem_dims (x : Mems) : (s.withMem x).dims = s.dims := rfl
@[simp] theorem State.withMem_P (x : Mems) : (s.withMem x).P = s.P := rfl
@[simp] theorem State.withMem_S (x : Mems) : (s.withMem x).S = s.S := rfl
@[simp] theorem State.withMem_E (x : Mems) : (s.withMem x).E = s.E := rfl
@[simp] theorem State.withMem_bands (x : Mems) : (s.withMem x).bands = s.bands := rfl
@[simp] theorem State.withMem_ev (x : Mems) : (s.withMem x).ev = s.ev := rfl
@[simp] theorem State.withMem_mem (x : Mems) : (s.withMem x).mem = x := rfl
@[simp] theorem State.withMem_ports (x : Mems) : (s.withMem x).ports = s.ports := rfl
@[simp] theorem State.withMem_job (x : Mems) : (s.withMem x).job = s.job := rfl
@[simp] theorem State.withMem_env (x : Mems) : (s.withMem x).env = s.env := rfl

/-! `withPorts` -/

@[simp] theorem State.withPorts_dims (x : Ports) : (s.withPorts x).dims = s.dims := rfl
@[simp] theorem State.withPorts_P (x : Ports) : (s.withPorts x).P = s.P := rfl
@[simp] theorem State.withPorts_S (x : Ports) : (s.withPorts x).S = s.S := rfl
@[simp] theorem State.withPorts_E (x : Ports) : (s.withPorts x).E = s.E := rfl
@[simp] theorem State.withPorts_bands (x : Ports) : (s.withPorts x).bands = s.bands := rfl
@[simp] theorem State.withPorts_ev (x : Ports) : (s.withPorts x).ev = s.ev := rfl
@[simp] theorem State.withPorts_mem (x : Ports) : (s.withPorts x).mem = s.mem := rfl
@[simp] theorem State.withPorts_ports (x : Ports) : (s.withPorts x).ports = x := rfl
@[simp] theorem State.withPorts_job (x : Ports) : (s.withPorts x).job = s.job := rfl
@[simp] theorem State.withPorts_env (x : Ports) : (s.withPorts x).env = s.env := rfl

/-! `withJob` -/

@[simp] theorem State.withJob_dims (x : Option Job) : (s.withJob x).dims = s.dims := rfl
@[simp] theorem State.withJob_P (x : Option Job) : (s.withJob x).P = s.P := rfl
@[simp] theorem State.withJob_S (x : Option Job) : (s.withJob x).S = s.S := rfl
@[simp] theorem State.withJob_E (x : Option Job) : (s.withJob x).E = s.E := rfl
@[simp] theorem State.withJob_bands (x : Option Job) : (s.withJob x).bands = s.bands := rfl
@[simp] theorem State.withJob_ev (x : Option Job) : (s.withJob x).ev = s.ev := rfl
@[simp] theorem State.withJob_mem (x : Option Job) : (s.withJob x).mem = s.mem := rfl
@[simp] theorem State.withJob_ports (x : Option Job) : (s.withJob x).ports = s.ports := rfl
@[simp] theorem State.withJob_job (x : Option Job) : (s.withJob x).job = x := rfl
@[simp] theorem State.withJob_env (x : Option Job) : (s.withJob x).env = s.env := rfl

/-! `withEnv` -/

@[simp] theorem State.withEnv_dims (x : Env) : (s.withEnv x).dims = s.dims := rfl
@[simp] theorem State.withEnv_P (x : Env) : (s.withEnv x).P = s.P := rfl
@[simp] theorem State.withEnv_S (x : Env) : (s.withEnv x).S = s.S := rfl
@[simp] theorem State.withEnv_E (x : Env) : (s.withEnv x).E = s.E := rfl
@[simp] theorem State.withEnv_bands (x : Env) : (s.withEnv x).bands = s.bands := rfl
@[simp] theorem State.withEnv_ev (x : Env) : (s.withEnv x).ev = s.ev := rfl
@[simp] theorem State.withEnv_mem (x : Env) : (s.withEnv x).mem = s.mem := rfl
@[simp] theorem State.withEnv_ports (x : Env) : (s.withEnv x).ports = s.ports := rfl
@[simp] theorem State.withEnv_job (x : Env) : (s.withEnv x).job = s.job := rfl
@[simp] theorem State.withEnv_env (x : Env) : (s.withEnv x).env = x := rfl

/-! `raise` -/

@[simp] theorem State.raise_dims : (s.raise c).dims = s.dims := rfl
@[simp] theorem State.raise_P : (s.raise c).P = s.P := rfl
@[simp] theorem State.raise_S : (s.raise c).S = s.S := rfl
@[simp] theorem State.raise_E : (s.raise c).E = s.E := rfl
@[simp] theorem State.raise_bands : (s.raise c).bands = s.bands := rfl
@[simp] theorem State.raise_ev : (s.raise c).ev = setCond s.ev c := rfl
@[simp] theorem State.raise_mem : (s.raise c).mem = s.mem := rfl
@[simp] theorem State.raise_ports : (s.raise c).ports = s.ports := rfl
@[simp] theorem State.raise_job : (s.raise c).job = s.job := rfl
@[simp] theorem State.raise_env : (s.raise c).env = s.env := rfl

/-! `raiseIf` -/

@[simp] theorem State.raiseIf_dims : (s.raiseIf b c).dims = s.dims := by cases b <;> rfl
@[simp] theorem State.raiseIf_P : (s.raiseIf b c).P = s.P := by cases b <;> rfl
@[simp] theorem State.raiseIf_S : (s.raiseIf b c).S = s.S := by cases b <;> rfl
@[simp] theorem State.raiseIf_E : (s.raiseIf b c).E = s.E := by cases b <;> rfl
@[simp] theorem State.raiseIf_bands : (s.raiseIf b c).bands = s.bands := by cases b <;> rfl
@[simp] theorem State.raiseIf_mem : (s.raiseIf b c).mem = s.mem := by cases b <;> rfl
@[simp] theorem State.raiseIf_ports : (s.raiseIf b c).ports = s.ports := by cases b <;> rfl
@[simp] theorem State.raiseIf_job : (s.raiseIf b c).job = s.job := by cases b <;> rfl
@[simp] theorem State.raiseIf_env : (s.raiseIf b c).env = s.env := by cases b <;> rfl
@[simp] theorem State.raiseIf_ev : (s.raiseIf b c).ev = if b then setCond s.ev c else s.ev := by cases b <;> rfl
@[simp] theorem State.raiseIf_true : s.raiseIf true c = s.raise c := rfl
@[simp] theorem State.raiseIf_false : s.raiseIf false c = s := rfl

/-! `respond` -/

@[simp] theorem State.respond_dims (ws : List Response) : (s.respond p ws).dims = s.dims := rfl
@[simp] theorem State.respond_P (ws : List Response) : (s.respond p ws).P = s.P := rfl
@[simp] theorem State.respond_S (ws : List Response) : (s.respond p ws).S = s.S := rfl
@[simp] theorem State.respond_E (ws : List Response) : (s.respond p ws).E = s.E := rfl
@[simp] theorem State.respond_bands (ws : List Response) : (s.respond p ws).bands = s.bands := rfl
@[simp] theorem State.respond_ev (ws : List Response) : (s.respond p ws).ev = s.ev := rfl
@[simp] theorem State.respond_mem (ws : List Response) : (s.respond p ws).mem = s.mem := rfl
@[simp] theorem State.respond_ports (ws : List Response) : (s.respond p ws).ports = s.ports.set p { s.ports.get p with resp := (s.ports.get p).resp ++ ws } := rfl
@[simp] theorem State.respond_job (ws : List Response) : (s.respond p ws).job = s.job := rfl
@[simp] theorem State.respond_env (ws : List Response) : (s.respond p ws).env = s.env := rfl

/-! `setStream` -/

@[simp] theorem State.setStream_dims (ws : List Command) : (s.setStream p ws).dims = s.dims := rfl
@[simp] theorem State.setStream_P (ws : List Command) : (s.setStream p ws).P = s.P := rfl
@[simp] theorem State.setStream_S (ws : List Command) : (s.setStream p ws).S = s.S := rfl
@[simp] theorem State.setStream_E (ws : List Command) : (s.setStream p ws).E = s.E := rfl
@[simp] theorem State.setStream_bands (ws : List Command) : (s.setStream p ws).bands = s.bands := rfl
@[simp] theorem State.setStream_ev (ws : List Command) : (s.setStream p ws).ev = s.ev := rfl
@[simp] theorem State.setStream_mem (ws : List Command) : (s.setStream p ws).mem = s.mem := rfl
@[simp] theorem State.setStream_ports (ws : List Command) : (s.setStream p ws).ports = s.ports.set p { s.ports.get p with stream := ws } := rfl
@[simp] theorem State.setStream_job (ws : List Command) : (s.setStream p ws).job = s.job := rfl
@[simp] theorem State.setStream_env (ws : List Command) : (s.setStream p ws).env = s.env := rfl

/-! `setResp` -/

@[simp] theorem State.setResp_dims (ws : List Response) : (s.setResp p ws).dims = s.dims := rfl
@[simp] theorem State.setResp_P (ws : List Response) : (s.setResp p ws).P = s.P := rfl
@[simp] theorem State.setResp_S (ws : List Response) : (s.setResp p ws).S = s.S := rfl
@[simp] theorem State.setResp_E (ws : List Response) : (s.setResp p ws).E = s.E := rfl
@[simp] theorem State.setResp_bands (ws : List Response) : (s.setResp p ws).bands = s.bands := rfl
@[simp] theorem State.setResp_ev (ws : List Response) : (s.setResp p ws).ev = s.ev := rfl
@[simp] theorem State.setResp_mem (ws : List Response) : (s.setResp p ws).mem = s.mem := rfl
@[simp] theorem State.setResp_ports (ws : List Response) : (s.setResp p ws).ports = s.ports.set p { s.ports.get p with resp := ws } := rfl
@[simp] theorem State.setResp_job (ws : List Response) : (s.setResp p ws).job = s.job := rfl
@[simp] theorem State.setResp_env (ws : List Response) : (s.setResp p ws).env = s.env := rfl

/-! `takePick` -/

/-- What taking a snapshot pick does: the next of the list goes, or with none left one choice is drawn. -/
theorem State.takePick_eq : s.takePick = s.withEnv
    { s.env with picks := s.env.picks.tail, drawn := if s.env.picks = [] then s.env.drawn + 1 else s.env.drawn } := by
  unfold State.takePick
  split <;> next h => simp [h]

@[simp] theorem State.takePick_dims : s.takePick.dims = s.dims := by unfold State.takePick; split <;> rfl
@[simp] theorem State.takePick_P : s.takePick.P = s.P := by unfold State.takePick; split <;> rfl
@[simp] theorem State.takePick_S : s.takePick.S = s.S := by unfold State.takePick; split <;> rfl
@[simp] theorem State.takePick_E : s.takePick.E = s.E := by unfold State.takePick; split <;> rfl
@[simp] theorem State.takePick_bands : s.takePick.bands = s.bands := by unfold State.takePick; split <;> rfl
@[simp] theorem State.takePick_ev : s.takePick.ev = s.ev := by unfold State.takePick; split <;> rfl
@[simp] theorem State.takePick_mem : s.takePick.mem = s.mem := by unfold State.takePick; split <;> rfl
@[simp] theorem State.takePick_ports : s.takePick.ports = s.ports := by unfold State.takePick; split <;> rfl
@[simp] theorem State.takePick_job : s.takePick.job = s.job := by unfold State.takePick; split <;> rfl
@[simp] theorem State.takePick_agenda : s.takePick.env.agenda = s.env.agenda := by unfold State.takePick; split <;> rfl

/-! `takeDrop` -/

@[simp] theorem State.takeDrop_dims : s.takeDrop.dims = s.dims := by unfold State.takeDrop; split <;> rfl
@[simp] theorem State.takeDrop_P : s.takeDrop.P = s.P := by unfold State.takeDrop; split <;> rfl
@[simp] theorem State.takeDrop_S : s.takeDrop.S = s.S := by unfold State.takeDrop; split <;> rfl
@[simp] theorem State.takeDrop_E : s.takeDrop.E = s.E := by unfold State.takeDrop; split <;> rfl
@[simp] theorem State.takeDrop_bands : s.takeDrop.bands = s.bands := by unfold State.takeDrop; split <;> rfl
@[simp] theorem State.takeDrop_ev : s.takeDrop.ev = s.ev := by unfold State.takeDrop; split <;> rfl
@[simp] theorem State.takeDrop_mem : s.takeDrop.mem = s.mem := by unfold State.takeDrop; split <;> rfl
@[simp] theorem State.takeDrop_ports : s.takeDrop.ports = s.ports := by unfold State.takeDrop; split <;> rfl
@[simp] theorem State.takeDrop_job : s.takeDrop.job = s.job := by unfold State.takeDrop; split <;> rfl
@[simp] theorem State.takeDrop_agenda : s.takeDrop.env.agenda = s.env.agenda := by unfold State.takeDrop; split <;> rfl

/-! `memWrite` -/

@[simp] theorem memWrite_dims (sp : Space) (k : Nat) (v : F32) : (memWrite sp k v s).dims = s.dims := rfl
@[simp] theorem memWrite_P (sp : Space) (k : Nat) (v : F32) : (memWrite sp k v s).P = s.P := rfl
@[simp] theorem memWrite_S (sp : Space) (k : Nat) (v : F32) : (memWrite sp k v s).S = s.S := rfl
@[simp] theorem memWrite_E (sp : Space) (k : Nat) (v : F32) : (memWrite sp k v s).E = s.E := rfl
@[simp] theorem memWrite_bands (sp : Space) (k : Nat) (v : F32) : (memWrite sp k v s).bands = s.bands := rfl
@[simp] theorem memWrite_ev (sp : Space) (k : Nat) (v : F32) : (memWrite sp k v s).ev = s.ev := rfl
@[simp] theorem memWrite_ports (sp : Space) (k : Nat) (v : F32) : (memWrite sp k v s).ports = s.ports := rfl
@[simp] theorem memWrite_job (sp : Space) (k : Nat) (v : F32) : (memWrite sp k v s).job = s.job := rfl
@[simp] theorem memWrite_env (sp : Space) (k : Nat) (v : F32) : (memWrite sp k v s).env = s.env := rfl

/-! `memWriteRow` -/

@[simp] theorem memWriteRow_dims (sp : Space) (k : Nat) (vs : List F32) : (memWriteRow sp k vs s).dims = s.dims := rfl
@[simp] theorem memWriteRow_P (sp : Space) (k : Nat) (vs : List F32) : (memWriteRow sp k vs s).P = s.P := rfl
@[simp] theorem memWriteRow_S (sp : Space) (k : Nat) (vs : List F32) : (memWriteRow sp k vs s).S = s.S := rfl
@[simp] theorem memWriteRow_E (sp : Space) (k : Nat) (vs : List F32) : (memWriteRow sp k vs s).E = s.E := rfl
@[simp] theorem memWriteRow_bands (sp : Space) (k : Nat) (vs : List F32) : (memWriteRow sp k vs s).bands = s.bands := rfl
@[simp] theorem memWriteRow_ev (sp : Space) (k : Nat) (vs : List F32) : (memWriteRow sp k vs s).ev = s.ev := rfl
@[simp] theorem memWriteRow_ports (sp : Space) (k : Nat) (vs : List F32) : (memWriteRow sp k vs s).ports = s.ports := rfl
@[simp] theorem memWriteRow_job (sp : Space) (k : Nat) (vs : List F32) : (memWriteRow sp k vs s).job = s.job := rfl
@[simp] theorem memWriteRow_env (sp : Space) (k : Nat) (vs : List F32) : (memWriteRow sp k vs s).env = s.env := rfl

/-! Ports -/

@[simp] theorem Ports.get_set_same (x : Ports) (y : PortState) : (x.set p y).get p = y := by cases p <;> rfl

theorem Ports.get_set (x : Ports) (q : Port) (y : PortState) : (x.set p y).get q = if q = p then y else x.get q := by
  cases p <;> cases q <;> rfl

theorem Ports.get_set_ne (x : Ports) {p q : Port} (y : PortState) (h : q ≠ p) : (x.set p y).get q = x.get q := by
  rw [Ports.get_set, if_neg h]

@[simp] theorem Ports.set_set (x : Ports) (y z : PortState) : (x.set p y).set p z = x.set p z := by cases p <;> rfl

/-! Memory spaces -/

@[simp] theorem Mems.get_set_same (m : Mems) (sp : Space) (x : Memory) : (m.set sp x).get sp = x := by cases sp <;> rfl

theorem Mems.get_set (m : Mems) (sp tp : Space) (x : Memory) : (m.set sp x).get tp = if tp = sp then x else m.get tp := by
  cases sp <;> cases tp <;> rfl

theorem Mems.get_set_ne (m : Mems) {sp tp : Space} (x : Memory) (h : tp ≠ sp) : (m.set sp x).get tp = m.get tp := by
  rw [Mems.get_set, if_neg h]

/-! Conditions -/

/-- Raising a condition sets its bit and keeps the others (R159). -/
theorem setCond_bit (ev : BitVec 7) (k : Nat) (h : k < 7) :
    (setCond ev c).getLsbD k = (ev.getLsbD k || decide (k = condIndex c)) := by
  have hk : k = 0 ∨ k = 1 ∨ k = 2 ∨ k = 3 ∨ k = 4 ∨ k = 5 ∨ k = 6 := by omega
  rcases hk with rfl | rfl | rfl | rfl | rfl | rfl | rfl <;> cases c <;> simp [setCond, condMask, condIndex]

theorem setCond_comm (ev : BitVec 7) (d : Cond) : setCond (setCond ev c) d = setCond (setCond ev d) c := by
  simp only [setCond, BitVec.or_assoc, BitVec.or_comm (condMask c) (condMask d)]

@[simp] theorem setCond_idem (ev : BitVec 7) : setCond (setCond ev c) c = setCond ev c := by
  simp [setCond, BitVec.or_assoc]

end Sys2Proof.Machine
end

