-- ==== Sys2Proof/Laws/Memory.lean ====
section
/-! SUPPORT. What the memory operations do: read after write, the words left alone, the canonical form kept. -/

namespace Sys2Proof.Machine

namespace Memory

variable (bg : Option F32) (m : Memory) (k j : Nat) (v : F32)

@[simp] theorem read_nil : Memory.read bg [] k = bg := rfl

theorem read_cons (e : Nat × F32) : Memory.read bg (e :: m) k = if e.1 = k then some e.2 else Memory.read bg m k := rfl

/-- A filter that keeps an index keeps its word, and one that drops it leaves the background. -/
theorem read_filter (f : Nat → Bool) :
    Memory.read bg (m.filter (fun e => f e.1)) k = if f k then Memory.read bg m k else bg := by
  induction m with
  | nil => simp
  | cons e rest ih =>
    by_cases hf : f e.1 = true <;> by_cases hk : e.1 = k <;> simp_all [read_cons]

theorem read_erase : (m.erase k).read bg j = if j = k then bg else m.read bg j := by
  unfold Memory.erase
  rw [read_filter bg m j (fun i => i != k)]
  by_cases h : j = k <;> simp [h]

theorem read_insert : (m.insert k v).read bg j = if j = k then some v else m.read bg j := by
  induction m with
  | nil => simp [Memory.insert, read_cons, eq_comm (a := j)]
  | cons e rest ih =>
    by_cases h1 : k < e.1
    · by_cases h : j = k
      · simp [Memory.insert, h1, read_cons, h]
      · simp [Memory.insert, h1, read_cons, h, Ne.symm h]
    · by_cases h2 : k = e.1
      · by_cases h : j = k
        · simp [Memory.insert, ← h2, read_cons, h]
        · simp [Memory.insert, ← h2, read_cons, h, Ne.symm h]
      · by_cases h : j = k
        · subst h
          have hne : e.1 ≠ j := fun hh => h2 hh.symm
          simp [Memory.insert, h1, h2, read_cons, ih, hne]
        · simp [Memory.insert, h1, h2, read_cons, ih, h]

/-- Read after write, at the written index and at every other one. -/
theorem read_write : (m.write bg k v).read bg j = if j = k then some v else m.read bg j := by
  unfold Memory.write
  split
  · next h => rw [read_erase, h]
  · exact read_insert bg m k j v

@[simp] theorem read_write_same : (m.write bg k v).read bg k = some v := by simp [read_write]

theorem read_write_ne (h : j ≠ k) : (m.write bg k v).read bg j = m.read bg j := by simp [read_write, h]

/-- Read after a row of writes. -/
theorem read_writeRow (vs : List F32) :
    (m.writeRow bg k vs).read bg j = if k ≤ j ∧ j < k + vs.length then vs[j - k]? else m.read bg j := by
  induction vs generalizing m k with
  | nil => simp [Memory.writeRow]
  | cons x xs ih =>
    simp only [Memory.writeRow, ih, read_write, List.length_cons]
    by_cases h1 : j = k
    · subst h1; simp
    · by_cases h2 : k ≤ j ∧ j < k + (xs.length + 1)
      · have h3 : k + 1 ≤ j ∧ j < k + 1 + xs.length := by omega
        have h4 : j - k = (j - (k + 1)) + 1 := by omega
        rw [if_pos h3, if_pos h2, h4, List.getElem?_cons_succ]
      · have h3 : ¬(k + 1 ≤ j ∧ j < k + 1 + xs.length) := by omega
        rw [if_neg h3, if_neg h2, if_neg h1]

theorem wf_nil : Memory.wf bg [] := ⟨List.Pairwise.nil, by simp⟩

theorem wf_filter {f : Nat × F32 → Bool} (h : m.wf bg) : Memory.wf bg (m.filter f) :=
  ⟨h.1.filter _, fun e he => h.2 e (List.mem_filter.1 he).1⟩

theorem mem_insert {e : Nat × F32} (h : e ∈ m.insert k v) : e = (k, v) ∨ e ∈ m := by
  induction m with
  | nil => simpa [Memory.insert] using h
  | cons x rest ih =>
    by_cases h1 : k < x.1
    · simpa [Memory.insert, h1] using h
    · by_cases h2 : k = x.1
      · rw [Memory.insert, if_neg h1, if_pos h2, List.mem_cons] at h
        exact h.imp id (List.mem_cons_of_mem _)
      · rw [Memory.insert, if_neg h1, if_neg h2, List.mem_cons] at h
        rcases h with h | h
        · exact .inr (h ▸ List.mem_cons_self ..)
        · exact (ih h).imp id (List.mem_cons_of_mem _)

theorem wf_insert (hv : bg ≠ some v) (h : m.wf bg) : (m.insert k v).wf bg := by
  refine ⟨?_, fun e he => ?_⟩
  · have hp := h.1
    clear h
    induction m with
    | nil => simp [Memory.insert]
    | cons x rest ih =>
      rw [List.pairwise_cons] at hp
      by_cases h1 : k < x.1
      · rw [Memory.insert, if_pos h1, List.pairwise_cons]
        refine ⟨fun y hy => ?_, List.pairwise_cons.2 hp⟩
        rcases List.mem_cons.1 hy with rfl | hy
        · exact h1
        · exact h1.trans (hp.1 y hy)
      · by_cases h2 : k = x.1
        · rw [Memory.insert, if_neg h1, if_pos h2, List.pairwise_cons]
          exact ⟨fun y hy => by simpa [h2] using hp.1 y hy, hp.2⟩
        · rw [Memory.insert, if_neg h1, if_neg h2, List.pairwise_cons]
          refine ⟨fun y hy => ?_, ih hp.2⟩
          rcases mem_insert rest k v hy with rfl | hy
          · show x.1 < k; omega
          · exact hp.1 y hy
  · rcases mem_insert m k v he with rfl | he
    · exact fun hh => hv hh.symm
    · exact h.2 e he

/-- A write keeps the canonical form. -/
theorem wf_write (h : m.wf bg) : (m.write bg k v).wf bg := by
  unfold Memory.write
  split
  · exact wf_filter bg m h
  · next hv => exact wf_insert bg m k v hv h

theorem wf_writeRow (vs : List F32) (h : m.wf bg) : (m.writeRow bg k vs).wf bg := by
  induction vs generalizing m k with
  | nil => exact h
  | cons x xs ih => exact ih (m.write bg k x) (k + 1) (wf_write bg m k x h)

/-- What a write lists was listed before or is the word written. -/
theorem mem_write {e : Nat × F32} (h : e ∈ m.write bg k v) : e.1 = k ∨ e ∈ m := by
  unfold Memory.write at h
  split at h
  · exact .inr (List.mem_filter.1 h).1
  · exact (mem_insert m k v h).imp (fun h => by rw [h]) id

theorem mem_writeRow {e : Nat × F32} (vs : List F32) (h : e ∈ m.writeRow bg k vs) :
    (k ≤ e.1 ∧ e.1 < k + vs.length) ∨ e ∈ m := by
  induction vs generalizing m k with
  | nil => exact .inr h
  | cons x xs ih =>
    simp only [List.length_cons]
    rcases ih (m.write bg k x) (k + 1) h with h | h
    · exact .inl (by omega)
    · exact (mem_write bg m k x h).imp (fun h => by omega) id

/-- In a canonical memory every listed index is at least the first. -/
theorem read_of_lt_head (h : ∀ e ∈ m, k < e.1) : m.read bg k = bg := by
  induction m with
  | nil => rfl
  | cons e rest ih =>
    have h1 : e.1 ≠ k := Nat.ne_of_gt (h e (List.mem_cons_self ..))
    rw [read_cons, if_neg h1]
    exact ih (fun x hx => h x (List.mem_cons_of_mem _ hx))

/-- Two canonical memories that read the same everywhere are the same list. -/
theorem eq_of_read_eq {m₁ m₂ : Memory} (h₁ : m₁.wf bg) (h₂ : m₂.wf bg) (h : ∀ k, m₁.read bg k = m₂.read bg k) : m₁ = m₂ := by
  induction m₁ generalizing m₂ with
  | nil =>
    cases m₂ with
    | nil => rfl
    | cons e rest => exact absurd (by simpa [read_cons] using (h e.1).symm) (h₂.2 e (List.mem_cons_self ..))
  | cons e rest ih =>
    cases m₂ with
    | nil => exact absurd (by simpa [read_cons] using h e.1) (h₁.2 e (List.mem_cons_self ..))
    | cons e' rest' =>
      have p₁ := List.pairwise_cons.1 h₁.1
      have p₂ := List.pairwise_cons.1 h₂.1
      have w₁ : Memory.wf bg rest := ⟨p₁.2, fun x hx => h₁.2 x (List.mem_cons_of_mem _ hx)⟩
      have w₂ : Memory.wf bg rest' := ⟨p₂.2, fun x hx => h₂.2 x (List.mem_cons_of_mem _ hx)⟩
      have hk : e.1 = e'.1 := by
        rcases Nat.lt_trichotomy e.1 e'.1 with hl | hl | hl
        · have hr : Memory.read bg (e' :: rest') e.1 = bg := read_of_lt_head bg _ _ (by
            intro x hx
            rcases List.mem_cons.1 hx with rfl | hx
            · exact hl
            · exact hl.trans (p₂.1 x hx))
          exact absurd (by rw [← hr, ← h, read_cons, if_pos rfl]) (h₁.2 e (List.mem_cons_self ..))
        · exact hl
        · have hr : Memory.read bg (e :: rest) e'.1 = bg := read_of_lt_head bg _ _ (by
            intro x hx
            rcases List.mem_cons.1 hx with rfl | hx
            · exact hl
            · exact hl.trans (p₁.1 x hx))
          exact absurd (by rw [← hr, h, read_cons, if_pos rfl]) (h₂.2 e' (List.mem_cons_self ..))
      have hv : e = e' := by
        have := h e.1
        rw [read_cons, read_cons, if_pos rfl, if_pos hk.symm] at this
        exact Prod.ext hk (Option.some.inj this)
      subst hv
      congr 1
      refine ih w₁ w₂ (fun k => ?_)
      by_cases hke : e.1 = k
      · subst hke
        rw [read_of_lt_head bg rest _ p₁.1, read_of_lt_head bg rest' _ p₂.1]
      · simpa [read_cons, hke] using h k

end Memory

/-! ## Memory spaces of the state -/

theorem memRead_memWrite (s : State) (sp tp : Space) (k j : Nat) (v : F32) :
    memRead (memWrite sp k v s) tp j = if tp = sp ∧ j = k then some v else memRead s tp j := by
  unfold memRead memWrite
  simp only [State.withMem_mem, Mems.get_set]
  by_cases h : tp = sp
  · subst h; simp [Memory.read_write]
  · simp [h]

theorem memRead_memWriteRow (s : State) (sp tp : Space) (k j : Nat) (vs : List F32) :
    memRead (memWriteRow sp k vs s) tp j =
      if tp = sp ∧ k ≤ j ∧ j < k + vs.length then vs[j - k]? else memRead s tp j := by
  unfold memRead memWriteRow
  simp only [State.withMem_mem, Mems.get_set]
  by_cases h : tp = sp
  · subst h; simp [Memory.read_writeRow]
  · simp [h]

/-! ## Delay registers -/

theorem tapBand_tapIx {i c : Nat} (t : Tap) (h : c < 256) : tapBand (tapIx i c t) = i := by
  cases t <;> simp only [tapBand, tapIx, tapNum] <;> omega

theorem tapChannel_tapIx {i c : Nat} (t : Tap) (h : c < 256) : tapChannel (tapIx i c t) = c := by
  cases t <;> simp only [tapChannel, tapIx, tapNum] <;> omega

theorem tapIx_inj {i i' c c' : Nat} {t t' : Tap} (h : c < 256) (h' : c' < 256) (e : tapIx i c t = tapIx i' c' t') :
    i = i' ∧ c = c' ∧ t = t' := by
  cases t <;> cases t' <;> simp only [tapIx, tapNum] at e <;> refine ⟨by omega, by omega, ?_⟩ <;> first | rfl | omega

theorem sampleIx_inj {c c' n n' : Nat} (h : n < 65536) (h' : n' < 65536) (e : sampleIx c n = sampleIx c' n') : c = c' ∧ n = n' := by
  simp only [sampleIx] at e
  omega

theorem fsGet_fsSet_same (fs : Memory) (i c : Nat) (z : Taps) : fsGet (fsSet fs i c z) i c = z := by
  have h : tapIx i c .z1 ≠ tapIx i c .z2 := by simp [tapIx, tapNum]
  simp [fsGet, fsSet, Memory.read_write, h]

theorem fsGet_fsSet_ne (fs : Memory) {i i' c c' : Nat} (z : Taps) (h : i' * 256 + c' ≠ i * 256 + c) :
    fsGet (fsSet fs i c z) i' c' = fsGet fs i' c' := by
  have e : ∀ t t', tapIx i' c' t ≠ tapIx i c t' := by
    intro t t'
    cases t <;> cases t' <;> simp only [tapIx, tapNum] <;> omega
  simp [fsGet, fsSet, Memory.read_write, e]

/-- Zeroing the selected delay registers, read back. -/
theorem read_fsZero (fs : Memory) (sel : Nat → Nat → Bool) (k : Nat) :
    (fsZero fs sel).read (some posZero) k =
      if sel (tapBand k) (tapChannel k) then some posZero else fs.read (some posZero) k := by
  unfold fsZero
  rw [Memory.read_filter (some posZero) fs k (fun k => !sel (tapBand k) (tapChannel k))]
  cases sel (tapBand k) (tapChannel k) <;> rfl

theorem fsGet_fsZero (fs : Memory) (sel : Nat → Nat → Bool) {i c : Nat} (h : c < 256) :
    fsGet (fsZero fs sel) i c = if sel i c then ⟨posZero, posZero⟩ else fsGet fs i c := by
  simp only [fsGet, read_fsZero, tapBand_tapIx _ h, tapChannel_tapIx _ h]
  cases sel i c <;> rfl

theorem wf_fsSet (fs : Memory) (i c : Nat) (z : Taps) (h : fs.wf (some posZero)) : (fsSet fs i c z).wf (some posZero) :=
  Memory.wf_write _ _ _ _ (Memory.wf_write _ _ _ _ h)

theorem wf_fsZero (fs : Memory) (sel : Nat → Nat → Bool) (h : fs.wf (some posZero)) : (fsZero fs sel).wf (some posZero) :=
  Memory.wf_filter _ _ h

/-! ## The canonical form of the state's memories -/

theorem memCanonical_powerOn (d : Dims) : (State.powerOn d).memCanonical := by
  refine ⟨fun sp => ?_, Memory.wf_nil _⟩
  cases sp <;> exact Memory.wf_nil _

theorem memCanonical_memWrite (sp : Space) (k : Nat) (v : F32) (s : State) (h : s.memCanonical) :
    (memWrite sp k v s).memCanonical := by
  refine ⟨fun tp => ?_, h.2⟩
  simp only [memWrite, State.withMem_mem, Mems.get_set]
  split
  · next e => subst e; exact Memory.wf_write _ _ _ _ (h.1 tp)
  · exact h.1 tp

theorem memCanonical_memWriteRow (sp : Space) (k : Nat) (vs : List F32) (s : State) (h : s.memCanonical) :
    (memWriteRow sp k vs s).memCanonical := by
  refine ⟨fun tp => ?_, h.2⟩
  simp only [memWriteRow, State.withMem_mem, Mems.get_set]
  split
  · next e => subst e; exact Memory.wf_writeRow _ _ _ _ (h.1 tp)
  · exact h.1 tp

end Sys2Proof.Machine
end

