-- ==== Sys2Proof/Laws/Block.lean ====
section
/-! SUPPORT. What the operations of a block's compute step do and what they leave alone: the band-count and coefficient updates, the
cascade on one channel, the rows written to `DRY` and `OUT`. -/

namespace Sys2Proof.Machine

/-! ## Loops over channels -/

@[simp] theorem forChannels_zero (f : Nat → State → State) (s : State) : forChannels f 0 s = s := rfl

theorem forChannels_succ (f : Nat → State → State) (C : Nat) (s : State) :
    forChannels f (C + 1) s = f C (forChannels f C s) := by
  simp [forChannels, List.range_succ, List.foldl_append]

/-- What every channel's step keeps, the loop keeps. -/
theorem forChannels_keeps {α : Type} (g : State → α) (f : Nat → State → State) (h : ∀ c s, g (f c s) = g s) (C : Nat) (s : State) :
    g (forChannels f C s) = g s := by
  induction C with
  | zero => rfl
  | succ C ih => rw [forChannels_succ, h, ih]

/-- A property every channel's step preserves, the loop preserves. -/
theorem forChannels_preserves (I : State → Prop) (f : Nat → State → State) (C : Nat) (h : ∀ c s, c < C → I s → I (f c s)) (s : State)
    (hs : I s) : I (forChannels f C s) := by
  induction C with
  | zero => exact hs
  | succ C ih =>
    rw [forChannels_succ]
    exact h C _ (Nat.lt_succ_self C) (ih (fun c s hc => h c s (Nat.lt_succ_of_lt hc)))

/-! ## Band count and coefficients -/

section
variable (s : State)

@[simp] theorem bandCountUpdate_dims : (bandCountUpdate s).dims = s.dims := rfl
@[simp] theorem bandCountUpdate_P : (bandCountUpdate s).P = s.P := rfl
@[simp] theorem bandCountUpdate_S : (bandCountUpdate s).S = s.S := rfl
@[simp] theorem bandCountUpdate_E : (bandCountUpdate s).E = { s.E with activeCount := s.S.bandCount } := rfl
@[simp] theorem bandCountUpdate_ev : (bandCountUpdate s).ev = s.ev := rfl
@[simp] theorem bandCountUpdate_mem : (bandCountUpdate s).mem = s.mem := rfl
@[simp] theorem bandCountUpdate_ports : (bandCountUpdate s).ports = s.ports := rfl
@[simp] theorem bandCountUpdate_job : (bandCountUpdate s).job = s.job := rfl
@[simp] theorem bandCountUpdate_env : (bandCountUpdate s).env = s.env := rfl
@[simp] theorem bandCountUpdate_coef : (bandCountUpdate s).bands.coef = s.bands.coef := rfl
@[simp] theorem bandCountUpdate_used : (bandCountUpdate s).bands.used = s.bands.used := rfl
theorem bandCountUpdate_fs :
    (bandCountUpdate s).bands.fs = fsZero s.bands.fs (fun i _ => grownBand s.E.activeCount s.S.bandCount i) := rfl

@[simp] theorem bandCountUpdate_valid (i : Fin 10) :
    (bandCountUpdate s).bands.valid[i] = (s.bands.valid[i] && !grownBand s.E.activeCount s.S.bandCount i.val) := by
  simp [bandCountUpdate]

theorem mem_activeBands {n : Fin 11} {i : Fin 10} : i ∈ activeBands n ↔ i.val < n.val := by
  simp [activeBands]

theorem activeBands_nodup (n : Fin 11) : (activeBands n).Nodup := (List.nodup_finRange 10).filter _

variable (i : Fin 10) (is : List (Fin 10))

/-- A coefficient update changes the band registers other than the delay registers, and nothing else. -/
theorem updateCoefficients_frame :
    ∃ b : Bands, updateCoefficients i s = s.withBands b ∧ b.fs = s.bands.fs := by
  unfold updateCoefficients
  split
  · exact ⟨s.bands, rfl, rfl⟩
  · exact ⟨_, rfl, rfl⟩

theorem updateAll_frame : ∃ b : Bands, updateAll is s = s.withBands b ∧ b.fs = s.bands.fs := by
  induction is generalizing s with
  | nil => exact ⟨s.bands, rfl, rfl⟩
  | cons i is ih =>
    obtain ⟨b, hb, hf⟩ := updateCoefficients_frame s i
    obtain ⟨b', hb', hf'⟩ := ih (updateCoefficients i s)
    refine ⟨b', ?_, ?_⟩
    · rw [updateAll, hb', hb]; rfl
    · rw [hf', hb]; exact hf

@[simp] theorem updateAll_dims : (updateAll is s).dims = s.dims := by obtain ⟨b, h, -⟩ := updateAll_frame s is; rw [h]; rfl
@[simp] theorem updateAll_P : (updateAll is s).P = s.P := by obtain ⟨b, h, -⟩ := updateAll_frame s is; rw [h]; rfl
@[simp] theorem updateAll_S : (updateAll is s).S = s.S := by obtain ⟨b, h, -⟩ := updateAll_frame s is; rw [h]; rfl
@[simp] theorem updateAll_E : (updateAll is s).E = s.E := by obtain ⟨b, h, -⟩ := updateAll_frame s is; rw [h]; rfl
@[simp] theorem updateAll_ev : (updateAll is s).ev = s.ev := by obtain ⟨b, h, -⟩ := updateAll_frame s is; rw [h]; rfl
@[simp] theorem updateAll_mem : (updateAll is s).mem = s.mem := by obtain ⟨b, h, -⟩ := updateAll_frame s is; rw [h]; rfl
@[simp] theorem updateAll_ports : (updateAll is s).ports = s.ports := by obtain ⟨b, h, -⟩ := updateAll_frame s is; rw [h]; rfl
@[simp] theorem updateAll_job : (updateAll is s).job = s.job := by obtain ⟨b, h, -⟩ := updateAll_frame s is; rw [h]; rfl
@[simp] theorem updateAll_env : (updateAll is s).env = s.env := by obtain ⟨b, h, -⟩ := updateAll_frame s is; rw [h]; rfl
@[simp] theorem updateAll_fs : (updateAll is s).bands.fs = s.bands.fs := by
  obtain ⟨b, h, hf⟩ := updateAll_frame s is; rw [h]; exact hf

/-- The registers of band `j` after the update of band `i`. -/
theorem updateCoefficients_band (j : Fin 10) :
    (updateCoefficients i s).bands.coef[j] =
      (if j = i ∧ bandFresh s i = false then coefOfKey (bandKey s i) else s.bands.coef[j]) ∧
    (updateCoefficients i s).bands.used[j] = (if j = i then bandKey s i else s.bands.used[j]) ∧
    (updateCoefficients i s).bands.valid[j] = (if j = i then true else s.bands.valid[j]) := by
  unfold updateCoefficients
  by_cases hf : bandFresh s i = true
  · rw [if_pos hf]
    simp only [bandFresh, Bool.and_eq_true, decide_eq_true_eq] at hf
    refine ⟨by simp [bandFresh, hf.1, hf.2], ?_, ?_⟩ <;> by_cases h : j = i <;> simp [h, hf.1, hf.2]
  · rw [if_neg hf]
    by_cases h : j = i
    · subst h; simp [hf]
    · have hv : i.val ≠ j.val := fun e => h (Fin.ext e.symm)
      simp [h, hv]

end

/-! ## The cascade on one channel -/

theorem bandProcess_length (c : Coef) (z : Taps) (xs : List F32) : (bandProcess c z xs).1.length = xs.length := by
  induction xs generalizing z with
  | nil => rfl
  | cons x xs ih => simp [bandProcess, ih]

@[simp] theorem chainProcess_length (coef : Vector Coef 10) (c : Nat) (bands : List (Fin 10)) (buf : List F32) (fs : Memory) :
    (chainProcess coef c bands buf fs).1.length = buf.length := by
  induction bands generalizing buf fs with
  | nil => rfl
  | cons i is ih => simp [chainProcess, ih, bandProcess_length]

theorem wf_chainProcess (coef : Vector Coef 10) (c : Nat) (bands : List (Fin 10)) (buf : List F32) (fs : Memory)
    (h : fs.wf (some posZero)) : (chainProcess coef c bands buf fs).2.wf (some posZero) := by
  induction bands generalizing buf fs with
  | nil => exact h
  | cons i is ih => exact ih _ _ (wf_fsSet _ _ _ _ h)

/-- The cascade leaves every index alone that is no delay register of its channel in one of its bands. -/
theorem read_chainProcess_ne (coef : Vector Coef 10) (c : Nat) (bands : List (Fin 10)) (buf : List F32) (fs : Memory) (k : Nat)
    (h : ∀ i ∈ bands, ∀ t, k ≠ tapIx i.val c t) :
    (chainProcess coef c bands buf fs).2.read (some posZero) k = fs.read (some posZero) k := by
  induction bands generalizing buf fs with
  | nil => rfl
  | cons i is ih =>
    have hi := h i (List.mem_cons_self ..)
    have hs : ∀ j ∈ is, ∀ t, k ≠ tapIx j.val c t := fun j hj => h j (List.mem_cons_of_mem _ hj)
    simp only [chainProcess]
    rw [ih _ _ hs]
    simp [fsSet, Memory.read_write, hi]

/-- What the cascade lists was listed before or is a delay register of its channel. -/
theorem mem_chainProcess (coef : Vector Coef 10) (c : Nat) (bands : List (Fin 10)) (buf : List F32) (fs : Memory) {e : Nat × F32}
    (h : e ∈ (chainProcess coef c bands buf fs).2) : e ∈ fs ∨ ∃ i ∈ bands, ∃ t, e.1 = tapIx i.val c t := by
  induction bands generalizing buf fs with
  | nil => exact .inl h
  | cons i is ih =>
    rcases ih _ _ h with h | ⟨j, hj, t, ht⟩
    · rcases Memory.mem_write _ _ _ _ h with h | h
      · exact .inr ⟨i, List.mem_cons_self .., .z2, h⟩
      · rcases Memory.mem_write _ _ _ _ h with h | h
        · exact .inr ⟨i, List.mem_cons_self .., .z1, h⟩
        · exact .inl h
    · exact .inr ⟨j, List.mem_cons_of_mem _ hj, t, ht⟩

/-- The cascade of one channel reads only that channel's delay registers: from memories that agree there it gives the same samples and
memories that agree there. -/
theorem chainProcess_congr (coef : Vector Coef 10) (c : Nat) (bands : List (Fin 10)) (buf : List F32) (fs gs : Memory)
    (h : ∀ i : Fin 10, fsGet fs i c = fsGet gs i c) :
    (chainProcess coef c bands buf fs).1 = (chainProcess coef c bands buf gs).1 ∧
    ∀ i : Fin 10, fsGet (chainProcess coef c bands buf fs).2 i c = fsGet (chainProcess coef c bands buf gs).2 i c := by
  induction bands generalizing buf fs gs with
  | nil => exact ⟨rfl, h⟩
  | cons i is ih =>
    simp only [chainProcess]
    rw [h i]
    refine ih _ _ _ (fun j => ?_)
    by_cases e : j = i
    · subst e; rw [fsGet_fsSet_same, fsGet_fsSet_same]
    · have hne : j.val * 256 + c ≠ i.val * 256 + c := fun hh => e (Fin.ext (by omega))
      rw [fsGet_fsSet_ne _ _ hne, fsGet_fsSet_ne _ _ hne, h j]

/-- The cascade leaves the delay registers of a band that is not in it, and those of another channel. -/
theorem fsGet_chainProcess_ne (coef : Vector Coef 10) (c : Nat) (bands : List (Fin 10)) (buf : List F32) (fs : Memory) (j d : Nat)
    (h : ∀ i ∈ bands, j * 256 + d ≠ i.val * 256 + c) :
    fsGet (chainProcess coef c bands buf fs).2 j d = fsGet fs j d := by
  have e : ∀ t, ∀ i ∈ bands, ∀ u, tapIx j d t ≠ tapIx i.val c u := by
    intro t i hi u
    have := h i hi
    cases t <;> cases u <;> simp only [tapIx, tapNum] <;> omega
  simp only [fsGet, read_chainProcess_ne _ _ _ _ _ _ (e _)]

/-! ## Rows of the sample memories -/

@[simp] theorem inRow_length (s : State) (c ns : Nat) : (inRow s c ns).length = ns := by simp [inRow]
@[simp] theorem dryRow_length (s : State) (c ns : Nat) : (dryRow s c ns).length = ns := by simp [dryRow]

section
variable (c ns : Nat) (s : State)

@[simp] theorem dryCopy_dims : (dryCopy c ns s).dims = s.dims := rfl
@[simp] theorem dryCopy_P : (dryCopy c ns s).P = s.P := rfl
@[simp] theorem dryCopy_S : (dryCopy c ns s).S = s.S := rfl
@[simp] theorem dryCopy_E : (dryCopy c ns s).E = s.E := rfl
@[simp] theorem dryCopy_bands : (dryCopy c ns s).bands = s.bands := rfl
@[simp] theorem dryCopy_ev : (dryCopy c ns s).ev = s.ev := rfl
@[simp] theorem dryCopy_ports : (dryCopy c ns s).ports = s.ports := rfl
@[simp] theorem dryCopy_job : (dryCopy c ns s).job = s.job := rfl
@[simp] theorem dryCopy_env : (dryCopy c ns s).env = s.env := rfl

@[simp] theorem copyThrough_dims : (copyThrough c ns s).dims = s.dims := rfl
@[simp] theorem copyThrough_P : (copyThrough c ns s).P = s.P := rfl
@[simp] theorem copyThrough_S : (copyThrough c ns s).S = s.S := rfl
@[simp] theorem copyThrough_E : (copyThrough c ns s).E = s.E := rfl
@[simp] theorem copyThrough_bands : (copyThrough c ns s).bands = s.bands := rfl
@[simp] theorem copyThrough_ev : (copyThrough c ns s).ev = s.ev := rfl
@[simp] theorem copyThrough_ports : (copyThrough c ns s).ports = s.ports := rfl
@[simp] theorem copyThrough_job : (copyThrough c ns s).job = s.job := rfl
@[simp] theorem copyThrough_env : (copyThrough c ns s).env = s.env := rfl

variable (g : F32)

@[simp] theorem filterChannel_dims : (filterChannel ns g c s).dims = s.dims := rfl
@[simp] theorem filterChannel_P : (filterChannel ns g c s).P = s.P := rfl
@[simp] theorem filterChannel_S : (filterChannel ns g c s).S = s.S := rfl
@[simp] theorem filterChannel_E : (filterChannel ns g c s).E = s.E := rfl
@[simp] theorem filterChannel_coef : (filterChannel ns g c s).bands.coef = s.bands.coef := rfl
@[simp] theorem filterChannel_valid : (filterChannel ns g c s).bands.valid = s.bands.valid := rfl
@[simp] theorem filterChannel_used : (filterChannel ns g c s).bands.used = s.bands.used := rfl
@[simp] theorem filterChannel_ev : (filterChannel ns g c s).ev = s.ev := rfl
@[simp] theorem filterChannel_ports : (filterChannel ns g c s).ports = s.ports := rfl
@[simp] theorem filterChannel_job : (filterChannel ns g c s).job = s.job := rfl
@[simp] theorem filterChannel_env : (filterChannel ns g c s).env = s.env := rfl
theorem filterChannel_fs : (filterChannel ns g c s).bands.fs =
    (chainProcess s.bands.coef c (activeBands s.E.activeCount) (inRow s c ns) s.bands.fs).2 := rfl

/-- The words one channel of an unbypassed block writes to `OUT`. -/
def mixedRow : List F32 :=
  List.zipWith (fun w d => mixSample w d g s.S.mix)
    (chainProcess s.bands.coef c (activeBands s.E.activeCount) (inRow s c ns) s.bands.fs).1 (dryRow s c ns)

theorem filterChannel_mem : (filterChannel ns g c s).mem = (memWriteRow .out (sampleIx c 0) (mixedRow c ns s g) s).mem := by
  unfold filterChannel mixBlock mixedRow
  simp only [chainProcess_length, inRow_length]
  rfl

@[simp] theorem mixedRow_length : (mixedRow c ns s g).length = ns := by simp [mixedRow]

end

/-! ## The first unwritten word of a block -/

theorem mem_blockIndexes {C ns c n : Nat} : (c, n) ∈ blockIndexes C ns ↔ c < C ∧ n < ns := by
  simp [blockIndexes]

/-- `firstUnwritten` finds nothing exactly when the block is fed. -/
theorem firstUnwritten_eq_none {s : State} {C ns : Nat} : firstUnwritten s C ns = none ↔ blockFed s C ns := by
  unfold firstUnwritten blockFed
  rw [List.find?_eq_none]
  constructor
  · intro h c n hc hn
    have := h (c, n) (mem_blockIndexes.2 ⟨hc, hn⟩)
    simpa [Option.isNone_iff_eq_none, Option.isSome_iff_ne_none] using this
  · rintro h ⟨c, n⟩ hm
    obtain ⟨hc, hn⟩ := mem_blockIndexes.1 hm
    have := h c n hc hn
    simpa [Option.isNone_iff_eq_none, Option.isSome_iff_ne_none] using this

/-! ## The compute step as a whole -/

/-- The state the channels of a block start from: the band count and the coefficients updated (R145). -/
def bandsUpdated (s : State) : State := updateAll (activeBands s.S.bandCount) (bandCountUpdate s)

/-- A compute step is one loop over the channels after the updates and the dry copy. -/
theorem computeBlock_eq (C ns : Nat) (s : State) :
    computeBlock C ns s =
      forChannels (if s.S.bypass then fun c => copyThrough c ns else filterChannel ns (linearGain s.S.globalGain)) C
        (forChannels (fun c => dryCopy c ns) C (bandsUpdated s)) := by
  have hS : (forChannels (fun c => dryCopy c ns) C (bandsUpdated s)).S = s.S :=
    (forChannels_keeps State.S (fun c => dryCopy c ns) (fun _ _ => rfl) C (bandsUpdated s)).trans (by simp [bandsUpdated])
  change (let s3 := forChannels (fun c => dryCopy c ns) C (bandsUpdated s)
    if s3.S.bypass then forChannels (fun c => copyThrough c ns) C s3
    else forChannels (filterChannel ns (linearGain s3.S.globalGain)) C s3) = _
  simp only [hS]
  split <;> rfl

/-- What the dry copy and the channels keep is after a compute step what it was after the updates. -/
theorem computeBlock_from {α : Type} (g : State → α) (h1 : ∀ c ns s, g (dryCopy c ns s) = g s)
    (h2 : ∀ c ns s, g (copyThrough c ns s) = g s) (h3 : ∀ ns x c s, g (filterChannel ns x c s) = g s) (C ns : Nat) (s : State) :
    g (computeBlock C ns s) = g (bandsUpdated s) := by
  rw [computeBlock_eq, ← forChannels_keeps g _ (fun c t => h1 c ns t) C (bandsUpdated s)]
  refine forChannels_keeps g _ (fun c t => ?_) C _
  split
  · exact h2 c ns t
  · exact h3 ns _ c t

section
variable (C ns : Nat) (s : State)

@[simp] theorem computeBlock_dims : (computeBlock C ns s).dims = s.dims :=
  (computeBlock_from State.dims (fun _ _ _ => rfl) (fun _ _ _ => rfl) (fun _ _ _ _ => rfl) C ns s).trans (by simp [bandsUpdated])
@[simp] theorem computeBlock_P : (computeBlock C ns s).P = s.P :=
  (computeBlock_from State.P (fun _ _ _ => rfl) (fun _ _ _ => rfl) (fun _ _ _ _ => rfl) C ns s).trans (by simp [bandsUpdated])
@[simp] theorem computeBlock_S : (computeBlock C ns s).S = s.S :=
  (computeBlock_from State.S (fun _ _ _ => rfl) (fun _ _ _ => rfl) (fun _ _ _ _ => rfl) C ns s).trans (by simp [bandsUpdated])
@[simp] theorem computeBlock_ev : (computeBlock C ns s).ev = s.ev :=
  (computeBlock_from State.ev (fun _ _ _ => rfl) (fun _ _ _ => rfl) (fun _ _ _ _ => rfl) C ns s).trans (by simp [bandsUpdated])
@[simp] theorem computeBlock_ports : (computeBlock C ns s).ports = s.ports :=
  (computeBlock_from State.ports (fun _ _ _ => rfl) (fun _ _ _ => rfl) (fun _ _ _ _ => rfl) C ns s).trans (by simp [bandsUpdated])
@[simp] theorem computeBlock_job : (computeBlock C ns s).job = s.job :=
  (computeBlock_from State.job (fun _ _ _ => rfl) (fun _ _ _ => rfl) (fun _ _ _ _ => rfl) C ns s).trans (by simp [bandsUpdated])
@[simp] theorem computeBlock_env : (computeBlock C ns s).env = s.env :=
  (computeBlock_from State.env (fun _ _ _ => rfl) (fun _ _ _ => rfl) (fun _ _ _ _ => rfl) C ns s).trans (by simp [bandsUpdated])

@[simp] theorem computeBlock_E : (computeBlock C ns s).E = { s.E with activeCount := s.S.bandCount } :=
  (computeBlock_from State.E (fun _ _ _ => rfl) (fun _ _ _ => rfl) (fun _ _ _ _ => rfl) C ns s).trans (by simp [bandsUpdated])

end

/-- A loop over channels, each writing one row of `ns` words to its own row of a space: the row of channel `c` then holds what the step
of channel `c` wrote, and every other word is as before. -/
theorem memRead_forChannels_rows (sp : Space) (f : Nat → State → State) (row : Nat → State → List F32) (ns : Nat) (hns : ns ≤ 65536)
    (hf : ∀ c s, (f c s).mem = (memWriteRow sp (sampleIx c 0) (row c s) s).mem) (hl : ∀ c s, (row c s).length = ns)
    (C : Nat) (s : State) (tp : Space) (j : Nat) :
    memRead (forChannels f C s) tp j =
      if tp = sp ∧ j / 65536 < C ∧ j % 65536 < ns then (row (j / 65536) (forChannels f (j / 65536) s))[j % 65536]?
      else memRead s tp j := by
  induction C with
  | zero => simp
  | succ C ih =>
    have hm : memRead (f C (forChannels f C s)) tp j =
        memRead (memWriteRow sp (sampleIx C 0) (row C (forChannels f C s)) (forChannels f C s)) tp j := by
      unfold memRead
      rw [hf]
    rw [forChannels_succ, hm, memRead_memWriteRow, hl, ih]
    by_cases ht : tp = sp
    · by_cases hj : sampleIx C 0 ≤ j ∧ j < sampleIx C 0 + ns
      · have h1 : j / 65536 = C ∧ j % 65536 = j - sampleIx C 0 := by
          simp only [sampleIx] at hj ⊢
          omega
        have h2 : j / 65536 < C + 1 ∧ j % 65536 < ns := by omega
        rw [if_pos ⟨ht, hj⟩, if_pos ⟨ht, h2⟩, h1.1, h1.2]
      · have h1 : (j / 65536 < C + 1 ∧ j % 65536 < ns) ↔ (j / 65536 < C ∧ j % 65536 < ns) := by
          simp only [sampleIx] at hj
          omega
        rw [if_neg (fun h => hj h.2)]
        simp only [h1]
    · simp [ht]

end Sys2Proof.Machine
end

