-- ==== Sys2Proof/Laws/Decode.lean ====
section
/-! SUPPORT. The fields of a packed word, the operand readings of an encoded operand, and the opcode a decoded word has. -/

namespace Sys2Proof

section
variable (op idx : BitVec 8) (aux : BitVec 16) (data : BitVec 32)

theorem opField_packFields : opField (packFields op idx aux data) = op := by
  apply BitVec.eq_of_getLsbD_eq
  intro i hi
  have h1 : ¬ (56 + i < 32) := by omega
  have h2 : ¬ (56 + i - 32 < 16) := by omega
  have h3 : ¬ (56 + i - 32 - 16 < 8) := by omega
  have h4 : 56 + i - 32 - 16 - 8 = i := by omega
  simp only [opField, packFields, BitVec.getLsbD_extractLsb', BitVec.getLsbD_append, hi, decide_true, Bool.true_and, h1, h2, h3,
    if_false, h4]

theorem idxField_packFields : idxField (packFields op idx aux data) = idx := by
  apply BitVec.eq_of_getLsbD_eq
  intro i hi
  have h1 : ¬ (48 + i < 32) := by omega
  have h2 : ¬ (48 + i - 32 < 16) := by omega
  have h4 : 48 + i - 32 - 16 = i := by omega
  simp only [idxField, packFields, BitVec.getLsbD_extractLsb', BitVec.getLsbD_append, hi, decide_true, Bool.true_and, h1, h2,
    if_false, if_true, h4]

theorem auxField_packFields : auxField (packFields op idx aux data) = aux := by
  apply BitVec.eq_of_getLsbD_eq
  intro i hi
  have h1 : ¬ (32 + i < 32) := by omega
  have h3 : 32 + i - 32 = i := by omega
  simp only [auxField, packFields, BitVec.getLsbD_extractLsb', BitVec.getLsbD_append, hi, decide_true, Bool.true_and, h1,
    if_false, if_true, h3]

theorem dataField_packFields : dataField (packFields op idx aux data) = data := by
  apply BitVec.eq_of_getLsbD_eq
  intro i hi
  have h1 : 0 + i < 32 := by omega
  simp only [dataField, packFields, BitVec.getLsbD_extractLsb', BitVec.getLsbD_append, hi, decide_true, Bool.true_and, Nat.zero_add,
    if_true]

end

/-- A word is its four fields. -/
theorem packFields_fields (w : Command) : packFields (opField w) (idxField w) (auxField w) (dataField w) = w := by
  apply BitVec.eq_of_getLsbD_eq
  intro i hi
  simp only [opField, idxField, auxField, dataField, packFields, BitVec.getLsbD_extractLsb', BitVec.getLsbD_append]
  by_cases h1 : i < 32
  · simp [h1]
  · by_cases h2 : i - 32 < 16
    · simp [h1, h2]; congr 1; omega
    · by_cases h3 : i - 32 - 16 < 8
      · simp [h1, h2, h3]; congr 1; omega
      · have h4 : i - 32 - 16 - 8 < 8 := by omega
        simp [h1, h2, h3, h4]; congr 1; omega

/-- A bitwise and with a packed mask, field by field. -/
theorem and_packFields (w : Command) (op idx : BitVec 8) (aux : BitVec 16) (data : BitVec 32) :
    w &&& packFields op idx aux data =
      packFields (opField w &&& op) (idxField w &&& idx) (auxField w &&& aux) (dataField w &&& data) := by
  conv_lhs => rw [← packFields_fields w]
  apply BitVec.eq_of_getLsbD_eq
  intro i _
  simp only [packFields, BitVec.getLsbD_and, BitVec.getLsbD_append]
  split
  · rfl
  · split
    · rfl
    · split <;> rfl

/-! ## Operand readings -/

theorem dataMask_append (m : BitVec 7) : dataMask (0#17 ++ m ++ 0#8) = m := by
  apply BitVec.eq_of_getLsbD_eq
  intro k hk
  have h1 : ¬ (8 + k < 8) := by omega
  simp only [dataMask, BitVec.getLsbD_extractLsb', BitVec.getLsbD_append, h1, if_false, Nat.add_sub_cancel_left, hk, decide_true,
    Bool.true_and, if_true]

theorem auxChannel_append {c : Nat} (h : c < 32768) (t : Tap) : auxChannel (BitVec.ofNat 15 c ++ tapBit t) = c := by
  have e : (BitVec.ofNat 15 c ++ tapBit t).extractLsb' 1 15 = BitVec.ofNat 15 c := by
    apply BitVec.eq_of_getLsbD_eq
    intro k hk
    have h1 : ¬ (1 + k < 1) := by omega
    simp only [BitVec.getLsbD_extractLsb', BitVec.getLsbD_append, h1, if_false, Nat.add_sub_cancel_left, hk, decide_true,
      Bool.true_and]
  rw [auxChannel, e, BitVec.toNat_ofNat]
  omega

theorem auxTap_append (c : Nat) (t : Tap) : auxTap (BitVec.ofNat 15 c ++ tapBit t) = t := by
  have h : (BitVec.ofNat 15 c ++ tapBit t).getLsbD 0 = (tapBit t).getLsbD 0 := by
    simp only [BitVec.getLsbD_append, show (0 : Nat) < 1 by omega, if_true]
  rw [auxTap, h]
  cases t <;> rfl

theorem dataBool_boolData (v : Bool) : dataBool (boolData v) = v := by cases v <;> rfl

theorem dataInt32_ofInt {n : Int} (h : -2147483648 ≤ n ∧ n < 2147483648) : dataInt32 (BitVec.ofInt 32 n) = n := by
  rw [dataInt32, BitVec.toInt_ofInt, Int.bmod_eq_of_le] <;> omega

theorem idxTarget_ofNat {c : Nat} (h : c < 255) : idxTarget (BitVec.ofNat 8 c) = .channel c := by
  have hne : BitVec.ofNat 8 c ≠ 0xFF#8 := fun e => by
    have := congrArg BitVec.toNat e
    simp only [BitVec.toNat_ofNat] at this
    omega
  rw [idxTarget, if_neg hne, BitVec.toNat_ofNat, Nat.mod_eq_of_lt (by omega)]

/-! ## Opcodes -/

/-- The opcode field of a word is the opcode of the command it names (R54). -/
theorem opField_of_decodeMap {w : Command} {i : Instr} (h : decodeMap w = some i) : opField w = opcodeOf i := by
  unfold decodeMap at h
  split at h <;> first | (cases h; assumption) | cases h

/-- What decodes on a port is `NOP` or belongs to the port (R55). -/
theorem decode_command {p : Port} {w : Command} {i : Instr} (h : decode p w = .command i) :
    decodeMap w = some i ∧ legalOn p (opField w) = true := by
  unfold decode at h
  split at h
  · cases h
  · next i' hm =>
    split at h
    · next hl => cases h; exact ⟨hm, hl⟩
    · cases h

end Sys2Proof
end

