-- ==== Sys2Proof/Laws/Steps.lean ====
section
/-! SUPPORT. What a step can do, said once: the cases of an event of the interleaving, of a port's step, of a block's step and of
`PROCESS`. -/

namespace Sys2Proof.Machine

section
variable {s t : State}

/-- What a compute step does when it goes on. -/
theorem computeStep_next {C ns : Nat} (h : computeStep C ns s = .next t) :
    blockFed s C ns ∧ t = (computeBlock C ns s).withJob (afterCompute C ns s) := by
  unfold computeStep at h
  split at h
  · cases h
  · next hu => exact ⟨firstUnwritten_eq_none.1 hu, by cases h; rfl⟩

theorem computeStep_of_fed {C ns : Nat} (h : blockFed s C ns) :
    computeStep C ns s = .next ((computeBlock C ns s).withJob (afterCompute C ns s)) := by
  unfold computeStep
  rw [firstUnwritten_eq_none.2 h]

theorem passThrough_next {C ns : Nat} (h : passThrough C ns s = .next t) :
    blockFed s C ns ∧ t = (forChannels (fun c => copyThrough c ns) C s).raise .unprepared := by
  unfold passThrough at h
  split at h
  · cases h
  · next hu => exact ⟨firstUnwritten_eq_none.1 hu, by cases h; rfl⟩

/-- What a capture step does when it goes on. -/
theorem captureNext_next {C ns n : Nat} (h : captureNext C ns n s = .next t) :
    ∃ v, memRead s .out (sampleIx analyzerChannel n) = some v ∧
      t = (captureStep v s).withJob (if n + 1 < ns then some ⟨C, ns, .capture (n + 1)⟩ else none) := by
  unfold captureNext at h
  split at h
  · cases h
  · next v hv => exact ⟨v, hv, by cases h; rfl⟩

/-- The cases of a block's step that goes on: a snapshot step, the compute step, a capture step. -/
theorem blockStep_next {j : Job} (h : blockStep j s = .next t) :
    (∃ f todo, j.phase = .snapshot (f :: todo) ∧ t = snapshotStep j.numCh j.numSamples f todo s) ∨
    (j.phase = .snapshot [] ∧ blockFed s j.numCh j.numSamples ∧
      t = (computeBlock j.numCh j.numSamples s).withJob (afterCompute j.numCh j.numSamples s)) ∨
    (∃ n v, j.phase = .capture n ∧ memRead s .out (sampleIx analyzerChannel n) = some v ∧
      t = (captureStep v s).withJob
        (if n + 1 < j.numSamples then some ⟨j.numCh, j.numSamples, .capture (n + 1)⟩ else none)) := by
  unfold blockStep at h
  split at h
  · next hp => exact .inr (.inl ⟨hp, computeStep_next h⟩)
  · next f todo hp => exact .inl ⟨f, todo, hp, by cases h; rfl⟩
  · next n hp =>
    obtain ⟨v, hv, ht⟩ := captureNext_next h
    exact .inr (.inr ⟨n, v, hp, hv, ht⟩)

/-- The cases of `PROCESS` (R144): rejected, passed through, or its first snapshot step. -/
theorem execProcess_next {C ns : Nat} (h : execProcess C ns s = .next t) :
    t = s.raise .blockRejected ∨
    (s.E.prepared = false ∧ C ≤ s.dims.maxChannels ∧ ns ≤ s.dims.maxBlockCap ∧ blockFed s C ns ∧
      t = (forChannels (fun c => copyThrough c ns) C s).raise .unprepared) ∨
    (blockAccepted s C ns ∧ ∃ f todo, allFields = f :: todo ∧ t = snapshotStep C ns f todo s) := by
  unfold execProcess at h
  split at h
  · exact .inl (by cases h; rfl)
  · next h1 =>
    rw [not_or, Nat.not_lt, Nat.not_lt] at h1
    split at h
    · next h2 =>
      obtain ⟨hf, ht⟩ := passThrough_next h
      exact .inr (.inl ⟨h2, h1.1, h1.2, hf, ht⟩)
    · next h2 =>
      split at h
      · exact .inl (by cases h; rfl)
      · next h3 =>
        rw [Nat.not_lt] at h3
        have hp : s.E.prepared = true := by simpa using h2
        refine .inr (.inr ⟨⟨h1.1, h1.2, hp, h3⟩, ?_⟩)
        rcases blockStep_next h with ⟨f, todo, hph, ht⟩ | ⟨hph, -, -⟩ | ⟨n, v, hph, -, -⟩
        · refine ⟨f, todo, ?_, ht⟩
          simpa [startJob] using hph
        · exact absurd (show allFields = [] by simpa [startJob] using hph) (by decide)
        · simp [startJob] at hph

/-- The cases of a port's step: a step of its block, no command, a command held, the command at its head. -/
theorem portStep_cases (p : Port) (s : State) :
    (∃ j, blockPending p s = some j ∧ portStep p s = blockStep j s) ∨
    portStep p s = .next s ∨
    (blockPending p s = none ∧ ∃ w rest, (s.ports.get p).stream = w :: rest ∧ hasRoom p w s = true ∧
      portStep p s = runWord p w (s.setStream p rest)) := by
  unfold portStep
  cases hb : blockPending p s with
  | some j => exact .inl ⟨j, rfl, rfl⟩
  | none =>
    cases hs : (s.ports.get p).stream with
    | nil => exact .inr (.inl rfl)
    | cons w rest =>
      by_cases hr : hasRoom p w s = true
      · exact .inr (.inr ⟨rfl, w, rest, rfl, hr, by simp [hr]⟩)
      · exact .inr (.inl (by simp [hr]))

/-- The cases of a word: illegal, or a command of the port. -/
theorem runWord_cases (p : Port) (w : Command) (s : State) :
    runWord p w s = .next (s.raise .illegalCmd) ∨ ∃ i, decode p w = .command i ∧ runWord p w s = exec i s := by
  unfold runWord
  cases h : decode p w with
  | illegal why => exact .inl rfl
  | command i => exact .inr ⟨i, rfl, rfl⟩

/-- The cases of an event of the interleaving (R43). -/
theorem step_cases (s : State) :
    step s = .next s ∨
    (∃ e, step s = .next (s.withEnv e)) ∨
    (∃ p, step s = portStep p s) ∨
    (∃ p e, step s = portStep p (s.withEnv e)) ∨
    (∃ p w e, step s = .next (hostSubmit p w (s.withEnv e))) ∨
    (∃ p n e, step s = .next (hostDrain p n (s.withEnv e))) := by
  unfold step nextStep
  split
  · exact .inr (.inr (.inr (.inl ⟨_, _, rfl⟩)))
  · exact .inr (.inr (.inr (.inr (.inl ⟨_, _, _, rfl⟩))))
  · exact .inr (.inr (.inr (.inr (.inr ⟨_, _, _, rfl⟩))))
  · split
    · exact .inl rfl
    · exact .inr (.inr (.inl ⟨_, rfl⟩))
    · exact .inr (.inr (.inr (.inl ⟨_, _, rfl⟩)))

end

end Sys2Proof.Machine
end

