-- ==== Sys2Proof/Laws/Exec.lean ====
section
/-! SUPPORT. What the commands of each port leave alone, said once for all of a port's commands, and what a step of a port is made of. -/

namespace Sys2Proof.Machine

variable {s t : State}

/-! ## CTRL -/

/-- A band write changes the parameter store, and sets condition bits only. -/
theorem bandWrite_frame (put : Params → Fin 10 → F32 → Params) (idx : Nat) (v lo hi : F32) (s : State) :
    ∃ P e, bandWrite put idx v lo hi s = { s with P := P, ev := e } ∧ ∀ k : Nat, s.ev.getLsbD k = true → e.getLsbD k = true := by
  have hset : ∀ c, ∀ k : Nat, s.ev.getLsbD k = true → (setCond s.ev c).getLsbD k = true := by
    intro c k h
    simp [setCond, h]
  unfold bandWrite
  split
  · exact ⟨s.P, _, rfl, hset _⟩
  · split
    · exact ⟨s.P, _, rfl, hset _⟩
    · cases clampF v lo hi != v
      · exact ⟨_, s.ev, rfl, fun _ h => h⟩
      · exact ⟨_, _, rfl, hset _⟩

/-- A CTRL command changes the parameter store, the condition bits and its own FIFO. -/
theorem exec_ctrl_frame {i : Instr} (h : legalOn .ctrl (opcodeOf i) = true) (he : exec i s = .next t) :
    ∃ P e c, t = { s with P := P, ev := e, ports := s.ports.set .ctrl c } := by
  cases i <;> (try (exfalso; revert h; simp only [opcodeOf]; decide)) <;> simp only [exec] at he
  case nop => cases he; exact ⟨_, _, s.ports.ctrl, rfl⟩
  case setBandType => unfold execSetBandType at he; split at he <;> cases he <;> exact ⟨_, _, s.ports.ctrl, rfl⟩
  case setBandFreq b v =>
    cases he
    obtain ⟨P, e, h, -⟩ := bandWrite_frame putFreq b v freqMin freqMax s
    exact ⟨P, e, s.ports.ctrl, h⟩
  case setBandQ b v =>
    cases he
    obtain ⟨P, e, h, -⟩ := bandWrite_frame putQ b v qMin qMax s
    exact ⟨P, e, s.ports.ctrl, h⟩
  case setBandGain b v =>
    cases he
    obtain ⟨P, e, h, -⟩ := bandWrite_frame putGain b v gainMin gainMax s
    exact ⟨P, e, s.ports.ctrl, h⟩
  case setGlobalGain => unfold execSetGlobalGain at he; split at he <;> cases he <;> exact ⟨_, _, s.ports.ctrl, rfl⟩
  case setMix m =>
    unfold execSetMix at he
    split at he <;> cases he
    · exact ⟨_, _, s.ports.ctrl, rfl⟩
    · cases clampF m posZero fOne != m <;> exact ⟨_, _, s.ports.ctrl, rfl⟩
  case setBypass => cases he; exact ⟨_, _, s.ports.ctrl, rfl⟩
  case setAnalyzerEn => cases he; exact ⟨_, _, s.ports.ctrl, rfl⟩
  case setBandCount n =>
    cases he
    cases decide (((clampCount n).val : Int) ≠ n) <;> exact ⟨_, _, s.ports.ctrl, rfl⟩
  case getStatus => cases he; exact ⟨_, _, _, rfl⟩
  case clearStatus => cases he; exact ⟨_, _, s.ports.ctrl, rfl⟩

/-! ## AUDIO -/

/-- What every step of the AUDIO port leaves alone. -/
def audioKeeps (s t : State) : Prop :=
  t.P = s.P ∧ t.mem.spec = s.mem.spec ∧ t.E.snapSeq = s.E.snapSeq ∧ t.dims = s.dims ∧ t.ports.ctrl = s.ports.ctrl ∧
    t.ports.disp = s.ports.disp ∧ t.env.agenda = s.env.agenda

theorem computeBlock_audioKeeps (C ns : Nat) (s : State) : audioKeeps s (computeBlock C ns s) := by
  refine ⟨by simp, ?_, by simp, by simp, by simp, by simp, by simp⟩
  have h := computeBlock_from (fun s => s.mem.spec) (fun _ _ _ => rfl) (fun _ _ _ => rfl)
    (fun _ _ _ _ => by simp only [filterChannel_mem]; rfl) C ns s
  exact h.trans (by simp [bandsUpdated])

/-- A snapshot step changes the snapshot registers, the block's place and the free choice taken. -/
theorem snapshotStep_frame (C ns : Nat) (f : PField) (todo : List PField) (s : State) :
    ∃ e, snapshotStep C ns f todo s =
      { s with S := copyField s.P s.S (pickField s f todo),
               job := some ⟨C, ns, .snapshot ((f :: todo).erase (pickField s f todo))⟩, env := e } ∧
      e.agenda = s.env.agenda := by
  unfold snapshotStep State.takePick
  split <;> exact ⟨_, rfl, rfl⟩

/-- A snapshot step picks one of the fields that remain. -/
theorem pickField_mem (s : State) (f : PField) (todo : List PField) : pickField s f todo ∈ f :: todo := by
  unfold pickField
  rw [List.getD_eq_getElem _ _ (by rw [List.length_cons]; exact Nat.mod_lt _ (by omega))]
  exact List.getElem_mem _

theorem blockStep_audioKeeps {j : Job} (h : blockStep j s = .next t) : audioKeeps s t := by
  rcases blockStep_next h with ⟨f, todo, hp, rfl⟩ | ⟨hp, hf, rfl⟩ | ⟨k, v, hp, hv, rfl⟩
  · unfold audioKeeps; simp [snapshotStep]
  · exact computeBlock_audioKeeps _ _ _
  · unfold captureStep; exact ⟨rfl, rfl, rfl, rfl, rfl, rfl, rfl⟩

theorem execProcess_audioKeeps {C n : Nat} (h : execProcess C n s = .next t) : audioKeeps s t := by
  rcases execProcess_next h with rfl | ⟨-, -, -, -, rfl⟩ | ⟨-, f, todo, -, rfl⟩
  · exact ⟨rfl, rfl, rfl, rfl, rfl, rfl, rfl⟩
  · have hk := forChannels_keeps (fun s : State => (s.P, s.mem.spec, s.E, s.dims, s.ports, s.env)) (fun c => copyThrough c n)
      (fun _ _ => rfl) C s
    simp only [Prod.mk.injEq] at hk
    obtain ⟨a, b, c, d, e, f⟩ := hk
    exact ⟨a, b, congrArg Engine.snapSeq c, d, congrArg Ports.ctrl e, congrArg Ports.disp e, congrArg Env.agenda f⟩
  · unfold audioKeeps; simp [snapshotStep]

theorem exec_audio_frame {i : Instr} (h : legalOn .audio (opcodeOf i) = true) (he : exec i s = .next t) : audioKeeps s t := by
  have triv : audioKeeps s s := ⟨rfl, rfl, rfl, rfl, rfl, rfl, rfl⟩
  cases i <;> (try (exfalso; revert h; simp only [opcodeOf]; decide)) <;> simp only [exec] at he
  case nop => cases he; exact triv
  case prepare mb sr => cases he; unfold audioKeeps; simp only [prepareState]; simp; rfl
  case process => exact execProcess_audioKeeps he
  case reset => unfold execReset at he; split at he <;> cases he <;> exact ⟨rfl, rfl, rfl, rfl, rfl, rfl, rfl⟩
  case writeIn => unfold execWriteIn at he; split at he <;> cases he <;> exact ⟨rfl, rfl, rfl, rfl, rfl, rfl, rfl⟩
  case readOut =>
    unfold execReadOut at he
    split at he
    · split at he <;> cases he; exact ⟨rfl, rfl, rfl, rfl, rfl, rfl, rfl⟩
    · cases he; exact ⟨rfl, rfl, rfl, rfl, rfl, rfl, rfl⟩
  case readState => unfold execReadState at he; split at he <;> cases he <;> exact ⟨rfl, rfl, rfl, rfl, rfl, rfl, rfl⟩
  case readCoef =>
    unfold execReadCoef at he
    split at he
    · cases he; exact ⟨rfl, rfl, rfl, rfl, rfl, rfl, rfl⟩
    · split at he <;> cases he <;> exact ⟨rfl, rfl, rfl, rfl, rfl, rfl, rfl⟩

/-! ## DISP -/

theorem takeDrop_frame (s : State) : ∃ e, s.takeDrop = { s with env := e } ∧ e.agenda = s.env.agenda := by
  unfold State.takeDrop
  split <;> exact ⟨_, rfl, rfl⟩

/-- A DISP command changes `SPEC`, the snapshot registers of the analyzer, the condition bits, its own FIFO and the free choice taken. -/
theorem exec_disp_frame {i : Instr} (h : legalOn .disp (opcodeOf i) = true) (he : exec i s = .next t) :
    ∃ m b q e c v, t = { s with mem := { s.mem with spec := m }, E := { s.E with snapValid := b, snapSeq := q }, ev := e,
                                ports := s.ports.set .disp c, env := v } ∧ v.agenda = s.env.agenda := by
  cases i <;> (try (exfalso; revert h; simp only [opcodeOf]; decide)) <;> simp only [exec] at he
  case nop => cases he; exact ⟨_, _, _, _, s.ports.disp, _, rfl, rfl⟩
  case analyze =>
    unfold execAnalyze at he
    split at he
    · split at he <;> cases he
      · obtain ⟨e, h, ha⟩ := takeDrop_frame s
        rw [h]
        exact ⟨_, _, _, _, s.ports.disp, e, rfl, ha⟩
      · obtain ⟨e, h, ha⟩ := takeDrop_frame (publish (spectrumFn (copyWindow s)) s)
        rw [h]
        exact ⟨_, _, _, _, s.ports.disp, e, rfl, ha⟩
    · cases he; exact ⟨_, _, _, _, s.ports.disp, _, rfl, rfl⟩
  case getSpectrum => unfold execGetSpectrum at he; split at he <;> cases he <;> exact ⟨_, _, _, _, _, _, rfl, rfl⟩

/-! ## Ports -/

/-- What decodes on a port is legal there. -/
theorem legalOn_of_decode {p : Port} {w : Command} {i : Instr} (h : decode p w = .command i) : legalOn p (opcodeOf i) = true := by
  obtain ⟨a, b⟩ := decode_command h
  rw [← opField_of_decodeMap a]
  exact b

/-- A command that is not `NOP` is legal on its own port only. -/
theorem port_of_legalOn {p : Port} {i : Instr} (h : legalOn p (opcodeOf i) = true) : i = .nop ∨ p = portOf i := by
  cases i <;> first | exact .inl rfl | (right; revert h; simp only [portOf, opcodeOf]; cases p <;> decide)

/-- A port's step that goes on: a step of its block, nothing, an illegal word, or a command of the port. -/
theorem portStep_next {p : Port} (h : portStep p s = .next t) :
    (∃ j, p = .audio ∧ s.job = some j ∧ blockStep j s = .next t) ∨ t = s ∨
    (∃ w rest, blockPending p s = none ∧ (s.ports.get p).stream = w :: rest ∧ hasRoom p w s = true ∧
      (((∃ y, decode p w = .illegal y) ∧ t = (s.setStream p rest).raise .illegalCmd) ∨
        ∃ i, decode p w = .command i ∧ nextCommand p s = some i ∧ exec i (s.setStream p rest) = .next t)) := by
  rcases portStep_cases p s with ⟨j, hj, h'⟩ | h' | ⟨hb, w, rest, hs, hr, h'⟩
  · left
    rw [h'] at h
    cases p <;> simp [blockPending] at hj
    exact ⟨j, rfl, hj, h⟩
  · right; left
    rw [h'] at h
    cases h
    rfl
  · right; right
    refine ⟨w, rest, hb, hs, hr, ?_⟩
    rw [h'] at h
    unfold runWord at h
    cases hd : decode p w with
    | illegal y => rw [hd] at h; cases h; exact .inl ⟨⟨y, rfl⟩, rfl⟩
    | command i =>
      rw [hd] at h
      refine .inr ⟨i, rfl, ?_, h⟩
      simp [nextCommand, hb, hs, hd]

/-! ## Runs -/

theorem run_succ {k : Nat} (h : step s = .next t) : Sys2Proof.core.run (k + 1) s = Sys2Proof.core.run k t := by
  simp only [Host.Core.run]
  rw [show Sys2Proof.core.step s = .next t from h]

theorem run_add {a b : Nat} (h : Sys2Proof.core.run a s = .next t) : Sys2Proof.core.run (a + b) s = Sys2Proof.core.run b t := by
  induction a generalizing s with
  | zero => cases h; rw [Nat.zero_add]
  | succ a ih =>
    cases hs : step s with
    | next u =>
      rw [run_succ hs] at h
      rw [show a + 1 + b = a + b + 1 by omega, run_succ hs]
      exact ih h
    | fault r =>
      simp only [Host.Core.run] at h
      rw [show Sys2Proof.core.step s = .fault r from hs] at h
      cases h
    | refused r =>
      simp only [Host.Core.run] at h
      rw [show Sys2Proof.core.step s = .refused r from hs] at h
      cases h

/-- Captures change only `CAP` and the cursor (R116). -/
theorem captureMany_frame (vs : List F32) (s : State) :
    captureMany vs s = { s with mem := { s.mem with cap := (captureMany vs s).mem.cap },
                                E := { s.E with wp := (captureMany vs s).E.wp } } := by
  induction vs generalizing s with
  | nil => rfl
  | cons v vs ih => exact ih (captureStep v s)

/-- On an AUDIO turn a block in progress takes its next step. -/
theorem step_of_turn_audio {rest : List Event} {j : Job} (ha : s.env.agenda = .turn .audio :: rest) (hj : s.job = some j) :
    step s = blockStep j (s.withEnv { s.env with agenda := rest }) := by
  unfold step nextStep
  rw [ha]
  simp only
  unfold portStep
  rw [show blockPending .audio (s.withEnv { s.env with agenda := rest }) = some j from hj]

end Sys2Proof.Machine
end

