-- ==== Sys2Proof/Laws/Float.lean ====
section
/-! SUPPORT. Rounding, from what it computes to what it means (R11), and what the fields of an encoding say. -/

namespace Sys2Proof.Machine

/-! ## Magnitudes -/

/-- The magnitude, in units, of an encoding without its sign bit. -/
def magOf (m : Nat) : Nat := if m / 8388608 = 0 then m % 8388608 else (m % 8388608 + 8388608) * 2 ^ (m / 8388608 - 1)

theorem fMagUnits_eq (a : F32) : fMagUnits a = magOf (a.toNat % 2147483648) := by
  have h1 : a.toNat / 8388608 % 256 = a.toNat % 2147483648 / 8388608 := by omega
  have h2 : a.toNat % 8388608 = a.toNat % 2147483648 % 8388608 := by omega
  unfold fMagUnits magOf fExp fFrac
  rw [h1, h2]
  

theorem magOf_pack {k q : Nat} (hq : q ≤ 16777216) (hk : k = 0 ∨ 8388608 ≤ q) : magOf (k * 8388608 + q) = q * 2 ^ k := by
  unfold magOf
  rcases Nat.lt_or_ge q 8388608 with h | h
  · have : k = 0 := by omega
    subst this
    rw [if_pos (by omega)]; simp; omega
  · rcases Nat.lt_or_ge q 16777216 with h2 | h2
    · have e1 : (k * 8388608 + q) % 8388608 + 8388608 = q := by omega
      have e2 : (k * 8388608 + q) / 8388608 - 1 = k := by omega
      rw [if_neg (by omega), e1, e2]
    · have : q = 16777216 := by omega
      subst this
      have e1 : (k * 8388608 + 16777216) % 8388608 + 8388608 = 8388608 := by omega
      have e2 : (k * 8388608 + 16777216) / 8388608 - 1 = k + 1 := by omega
      rw [if_neg (by omega), e1, e2, pow_succ]
      ring

/-- A magnitude at or above `2^(23+k)` is a whole number of `2^k`. -/
theorem magOf_grid (m k : Nat) : magOf m < 2 ^ (23 + k) ∨ 2 ^ k ∣ magOf m := by
  unfold magOf
  split
  · left; have : 2 ^ 23 ≤ 2 ^ (23 + k) := Nat.pow_le_pow_right (by omega) (by omega)
    omega
  · rcases Nat.lt_or_ge (m / 8388608 - 1) k with h | h
    · left
      have h1 : m % 8388608 + 8388608 < 2 ^ 24 := by omega
      have h2 : 2 ^ 24 * 2 ^ (m / 8388608 - 1) ≤ 2 ^ (23 + k) := by
        rw [← pow_add]; exact Nat.pow_le_pow_right (by omega) (by omega)
      exact lt_of_lt_of_le (Nat.mul_lt_mul_of_pos_right h1 (Nat.two_pow_pos _)) h2
    · right; exact Dvd.dvd.mul_left (pow_dvd_pow 2 h) _

theorem magOf_mono {m m' : Nat} (h : m < m') : magOf m < magOf m' := by
  unfold magOf
  by_cases h1 : m / 8388608 = 0
  · by_cases h2 : m' / 8388608 = 0
    · rw [if_pos h1, if_pos h2]; omega
    · rw [if_pos h1, if_neg h2]
      have : 1 ≤ 2 ^ (m' / 8388608 - 1) := Nat.one_le_two_pow
      have h3 := Nat.mul_le_mul (show 8388608 ≤ m' % 8388608 + 8388608 by omega) this
      omega
  · rw [if_neg h1, if_neg (by omega)]
    rcases Nat.lt_or_ge (m / 8388608) (m' / 8388608) with h3 | h3
    · obtain ⟨j, hj⟩ : ∃ j, m' / 8388608 - 1 = (m / 8388608 - 1) + (j + 1) :=
        ⟨m' / 8388608 - 1 - (m / 8388608 - 1) - 1, by omega⟩
      rw [hj, pow_add, pow_succ]
      have h4 : 1 ≤ 2 ^ j := Nat.one_le_two_pow
      have h5 : 0 < 2 ^ (m / 8388608 - 1) := Nat.two_pow_pos _
      have h6 := Nat.mod_lt m (show 8388608 > 0 by omega)
      calc (m % 8388608 + 8388608) * 2 ^ (m / 8388608 - 1) < 16777216 * 2 ^ (m / 8388608 - 1) :=
            Nat.mul_lt_mul_of_pos_right (by omega) h5
        _ ≤ (m' % 8388608 + 8388608) * (2 ^ (m / 8388608 - 1) * (2 ^ j * 2)) := by
          have : 16777216 ≤ (m' % 8388608 + 8388608) * (2 ^ j * 2) :=
            Nat.mul_le_mul (show 8388608 ≤ m' % 8388608 + 8388608 by omega) (show 2 ≤ 2 ^ j * 2 by omega)
          calc 16777216 * 2 ^ (m / 8388608 - 1) ≤ ((m' % 8388608 + 8388608) * (2 ^ j * 2)) * 2 ^ (m / 8388608 - 1) :=
                Nat.mul_le_mul_right _ this
            _ = _ := by ring
    · have h4 : m / 8388608 = m' / 8388608 := by omega
      rw [h4]
      exact Nat.mul_lt_mul_of_pos_right (by omega) (Nat.two_pow_pos _)

/-- The nearest integer is at least as near as any other, and even where another is as near. -/
theorem divNearestEven_spec (n D : Nat) (hD : 0 < D) (j : Int) :
    |(divNearestEven n D : Int) * D - n| ≤ |j * D - n| ∧
    (|(divNearestEven n D : Int) * D - n| = |j * D - n| → j ≠ divNearestEven n D → divNearestEven n D % 2 = 0) := by
  set q : Int := ((n / D : Nat) : Int) with hq
  set r : Int := ((n % D : Nat) : Int) with hr
  have hn : (n : Int) = D * q + r := by rw [hq, hr]; exact_mod_cast (Nat.div_add_mod n D).symm
  have hr0 : 0 ≤ r := by omega
  have hrD : r < D := by rw [hr]; exact_mod_cast Nat.mod_lt n hD
  have hDp : (0 : Int) < D := by exact_mod_cast hD
  -- distance of j
  have hj : j ≤ q ∨ q + 1 ≤ j := by omega
  have far1 : j ≤ q → |j * D - n| = r + (q - j) * D := by
    intro h; rw [abs_of_nonpos]
    · rw [hn]; ring
    · rw [hn]; nlinarith
  have far2 : q + 1 ≤ j → |j * D - n| = (D - r) + (j - q - 1) * D := by
    intro h; rw [abs_of_nonneg]
    · rw [hn]; ring
    · rw [hn]; nlinarith
  have d0 : |q * D - n| = r := by rw [hn, abs_of_nonpos (by nlinarith)]; ring
  have d1 : |(q + 1) * D - n| = D - r := by rw [hn, abs_of_nonneg (by nlinarith)]; ring
  unfold divNearestEven
  have c1 : (2 * (n % D) < D) ↔ 2 * r < D := by rw [hr]; exact_mod_cast Iff.rfl
  have c2 : (D < 2 * (n % D)) ↔ D < 2 * r := by rw [hr]; exact_mod_cast Iff.rfl
  split
  · next h =>
    rw [c1] at h
    rw [← hq, d0]
    rcases hj with hj | hj
    · rw [far1 hj]
      refine ⟨by nlinarith, fun he hne => ?_⟩
      have : 1 ≤ q - j := by omega
      nlinarith
    · rw [far2 hj]
      refine ⟨by nlinarith, fun he hne => ?_⟩
      nlinarith
  · next h =>
    rw [c1] at h
    split
    · next h' =>
      rw [c2] at h'
      rw [Nat.cast_add, Nat.cast_one, ← hq, d1]
      rcases hj with hj | hj
      · rw [far1 hj]
        refine ⟨by nlinarith, fun he hne => ?_⟩
        nlinarith
      · rw [far2 hj]
        refine ⟨by nlinarith, fun he hne => ?_⟩
        have : 1 ≤ j - q - 1 := by omega
        nlinarith
    · next h' =>
      rw [c2] at h'
      have he : 2 * r = D := by omega
      rcases Nat.mod_two_eq_zero_or_one (n / D) with hm | hm
      · rw [hm, Nat.add_zero, ← hq, d0]
        refine ⟨?_, fun _ _ => hm⟩
        rcases hj with hj | hj
        · rw [far1 hj]; nlinarith
        · rw [far2 hj]; nlinarith
      · rw [hm, Nat.cast_add, Nat.cast_one, ← hq, d1]
        refine ⟨?_, fun _ _ => by omega⟩
        rcases hj with hj | hj
        · rw [far1 hj]; nlinarith
        · rw [far2 hj]; nlinarith

theorem divNearestEven_bounds (n D : Nat) : n / D ≤ divNearestEven n D ∧ divNearestEven n D ≤ n / D + 1 := by
  unfold divNearestEven; split
  · omega
  · split <;> omega

theorem divNearestEven_top (n E : Nat) (hE : 0 < E) (h : n / (2 * E) < 16777216) :
    divNearestEven n (2 * E) = 16777216 ↔ 33554431 * E ≤ n := by
  have hn := Nat.div_add_mod n (2 * E)
  have hmod := Nat.mod_lt n (show 0 < 2 * E by omega)
  unfold divNearestEven
  generalize n / (2 * E) = a at *
  generalize n % (2 * E) = b at *
  rcases Nat.lt_or_ge a 16777215 with ha | ha
  · have h1 : (2 * E) * a ≤ (2 * E) * 16777214 := Nat.mul_le_mul_left (2 * E) (by omega)
    have h2 : ¬ 33554431 * E ≤ n := by omega
    constructor
    · intro h'; exfalso; split at h'
      · omega
      · split at h' <;> omega
    · intro h'; exact absurd h' h2
  · have : a = 16777215 := by omega
    subst this
    split
    · omega
    · split <;> omega

/-- The threshold of overflow, as a natural number of units. -/
theorem overflowUnits_eq : overflowUnits = ((33554431 * 2 ^ 252 : Nat) : Int) := by
  unfold overflowUnits; norm_num

/-- Rounding, from what it computes to what it means: infinity from the threshold on, and below it a finite encoding nearer to the exact
value than any other magnitude or its negative, with an even last bit where another is as near. -/
theorem roundMag_spec (n d : Nat) (hd : 0 < d) :
    (33554431 * 2 ^ 252 * d ≤ n → roundMag n d = 0x7F800000) ∧
    (n < 33554431 * 2 ^ 252 * d → roundMag n d < 0x7F800000 ∧
      ∀ (c : Int), (∃ m, c = magOf m ∨ c = -(magOf m : Int)) →
        |(magOf (roundMag n d) : Int) * d - n| ≤ |c * d - n| ∧
        (|(magOf (roundMag n d) : Int) * d - n| = |c * d - n| → c ≠ magOf (roundMag n d) → roundMag n d % 2 = 0)) := by
  set k := Nat.log2 (n / d) - 23 with hk
  set D := d * 2 ^ k with hD
  set q := divNearestEven n D with hqd
  have hD0 : 0 < D := Nat.mul_pos hd (Nat.two_pow_pos k)
  have hm : roundMag n d = min (k * 8388608 + q) 0x7F800000 := rfl
  have hfloor : n / D = n / d / 2 ^ k := by rw [hD, Nat.div_div_eq_div_mul]
  have hlog : n / d < 2 ^ (k + 24) := by
    have := Nat.lt_log2_self (n := n / d)
    exact lt_of_lt_of_le this (Nat.pow_le_pow_right (by omega) (by omega))
  have hfl : n / D < 16777216 := by
    rw [hfloor, Nat.div_lt_iff_lt_mul (Nat.two_pow_pos k)]
    calc n / d < 2 ^ (k + 24) := hlog
      _ = 16777216 * 2 ^ k := by rw [pow_add]; norm_num; ring
  have hfk : k = 0 ∨ 2 ^ (k + 23) ≤ n / d := by
    by_cases h : k = 0
    · exact .inl h
    · right
      have h1 : Nat.log2 (n / d) = k + 23 := by omega
      have h2 : n / d ≠ 0 := by intro e; rw [e] at h1; simp at h1
      rw [← h1]; exact Nat.log2_self_le h2
  have hfk2 : k = 0 ∨ 8388608 ≤ n / D := by
    rcases hfk with h | h
    · exact .inl h
    · right; rw [hfloor, Nat.le_div_iff_mul_le (Nat.two_pow_pos k)]
      calc 8388608 * 2 ^ k = 2 ^ (k + 23) := by rw [pow_add]; norm_num; ring
        _ ≤ n / d := h
  obtain ⟨hq1, hq2⟩ := divNearestEven_bounds n D
  rw [← hqd] at hq1 hq2
  have hmag : magOf (k * 8388608 + q) = q * 2 ^ k := magOf_pack (by omega) (by omega)
  -- the overflow test
  have hover : 0x7F800000 ≤ k * 8388608 + q ↔ 33554431 * 2 ^ 252 * d ≤ n := by
    rcases Nat.lt_trichotomy k 253 with h | h | h
    · constructor
      · intro h'; exfalso; omega
      · intro h'; exfalso
        have h1 : n / d < 2 ^ 276 := lt_of_lt_of_le hlog (Nat.pow_le_pow_right (by omega) (by omega))
        have h2 : n < 2 ^ 276 * d := (Nat.div_lt_iff_lt_mul hd).1 h1
        have h3 : 2 ^ 276 * d ≤ 33554431 * 2 ^ 252 * d :=
          Nat.mul_le_mul_right d (by rw [pow_add 2 24 252]; exact Nat.mul_le_mul_right _ (by norm_num))
        omega
    · have hDD : D = 2 * (2 ^ 252 * d) := by rw [hD, h, show 253 = 252 + 1 by rfl, pow_succ]; ring
      have e : (0x7F800000 ≤ 253 * 8388608 + q) ↔ q = 16777216 := by clear hlog hfk hfk2 hfloor; omega
      rw [h, e, hqd, hDD, divNearestEven_top _ _ (Nat.mul_pos (Nat.two_pow_pos _) hd) (by rw [← hDD]; exact hfl), Nat.mul_assoc]
    · constructor
      · intro _
        have h1 : 2 ^ (k + 23) ≤ n / d := hfk.resolve_left (by omega)
        have h2 : 2 ^ 277 ≤ n / d := le_trans (Nat.pow_le_pow_right (by omega) (by omega)) h1
        have h3 : 2 ^ 277 * d ≤ n := (Nat.le_div_iff_mul_le hd).1 h2
        have h4 : 33554431 * 2 ^ 252 * d ≤ 2 ^ 277 * d :=
          Nat.mul_le_mul_right d (by rw [pow_add 2 25 252]; exact Nat.mul_le_mul_right _ (by norm_num))
        omega
      · intro _; have := hfk2.resolve_left (by omega); omega
  refine ⟨fun h => ?_, fun h => ?_⟩
  · rw [hm, Nat.min_eq_right (hover.2 h)]
  · have hlt : k * 8388608 + q < 0x7F800000 := by
      by_contra hc; exact absurd (hover.1 (by omega)) (by omega)
    rw [hm, Nat.min_eq_left (by omega), hmag]
    refine ⟨hlt, fun c hc => ?_⟩
    have hpar : (k * 8388608 + q) % 2 = q % 2 := by omega
    rw [hpar]
    have hscale : ((q * 2 ^ k : Nat) : Int) * d = (q : Int) * D := by rw [hD]; push_cast; ring
    rw [hscale]
    have main : ∀ j : Int, c = j * 2 ^ k → |(q : Int) * D - n| ≤ |c * d - n| ∧
        (|(q : Int) * D - n| = |c * d - n| → c ≠ ((q * 2 ^ k : Nat) : Int) → q % 2 = 0) := by
      intro j hj
      have := divNearestEven_spec n D hD0 j
      rw [← hqd] at this
      have e : c * d = j * D := by rw [hj, hD]; push_cast; ring
      rw [e]
      refine ⟨this.1, fun h1 h2 => this.2 h1 (fun h3 => h2 ?_)⟩
      rw [hj, h3]; push_cast; ring
    obtain ⟨m, hcm⟩ := hc
    rcases magOf_grid m k with hg | ⟨j, hj⟩
    · -- c is below the binade, or k = 0
      by_cases hk0 : k = 0
      · exact main c (by rw [hk0]; ring)
      · have h1 : 2 ^ (k + 23) ≤ n / d := hfk.resolve_left hk0
        have h3 : 2 ^ (k + 23) * d ≤ n := (Nat.le_div_iff_mul_le hd).1 h1
        have hcl : c < 2 ^ (k + 23) := by
          have : ((magOf m : Nat) : Int) < 2 ^ (k + 23) := by rw [Nat.add_comm]; exact_mod_cast hg
          rcases hcm with h | h
          · rw [h]; exact this
          · have : (0:Int) < 2 ^ (k + 23) := by positivity
            omega
        have hdp : (0 : Int) < d := by exact_mod_cast hd
        have h3' : (2 : Int) ^ (k + 23) * d ≤ n := by exact_mod_cast h3
        have h4 : c * d < 2 ^ (k + 23) * d := Int.mul_lt_mul_of_pos_right hcl hdp
        have hb := (divNearestEven_spec n D hD0 8388608).1
        rw [← hqd] at hb
        have e8 : (8388608 : Int) * D = 2 ^ (k + 23) * d := by rw [hD, pow_add]; push_cast; ring
        rw [e8, abs_of_nonpos (a := (2 : Int) ^ (k + 23) * d - n) (by omega)] at hb
        rw [abs_of_nonpos (a := c * d - n) (by omega)]
        exact ⟨by omega, fun h => by omega⟩
    · rcases hcm with h | h
      · exact main j (by rw [h, hj]; push_cast; ring)
      · exact main (-j) (by rw [h, hj]; push_cast; ring)

theorem roundMag_le (n d : Nat) : roundMag n d ≤ 0x7F800000 := Nat.min_le_right _ _

/-- The encoding of a rounded magnitude with its sign. -/
theorem fRound_toNat (neg : Bool) (n d : Nat) : (fRound neg n d).toNat = roundMag n d + (if neg then 2147483648 else 0) := by
  have h := roundMag_le n d
  unfold fRound
  generalize roundMag n d = m at h
  rw [BitVec.toNat_or, BitVec.toNat_ofNat, Nat.mod_eq_of_lt (by omega)]
  cases neg
  · simp [posZero]
  · have h1 : 2 ^ 31 * 1 + m = 2 ^ 31 * 1 ||| m := Nat.two_pow_add_eq_or_of_lt (by omega) 1
    have h2 : BitVec.toNat (if true = true then negZero else posZero) = 2 ^ 31 * 1 := by decide
    rw [h2, Nat.or_comm, ← h1, if_pos rfl]
    omega


/-! ## What the fields of an encoding say -/
theorem fSign_eq (a : F32) : fSign a = decide (2147483648 ≤ a.toNat) := by
  unfold fSign; rw [BitVec.msb_eq_decide]

/-- A rounded magnitude has the sign it was given. -/
theorem fSign_fRound (neg : Bool) (n d : Nat) : fSign (fRound neg n d) = neg := by
  rw [fSign_eq, fRound_toNat]
  have := roundMag_le n d
  cases neg
  · rw [if_neg (by simp)]; simp; omega
  · rw [if_pos rfl]; simp

theorem fIsFinite_iff (a : F32) : fIsFinite a = true ↔ a.toNat % 2147483648 < 0x7F800000 := by
  unfold fIsFinite fExp; simp only [bne_iff_ne, ne_eq]; have := a.isLt; omega

theorem fUnits_eq (a : F32) :
    fUnits a = if 2147483648 ≤ a.toNat then -(magOf (a.toNat % 2147483648) : Int) else magOf (a.toNat % 2147483648) := by
  unfold fUnits; rw [fSign_eq, fMagUnits_eq]; simp

theorem getLsbD_zero_iff (a : F32) : a.getLsbD 0 = false ↔ a.toNat % 2 = 0 := by
  rw [BitVec.getLsbD, Nat.testBit_zero]; simp

theorem eq_ofNat_of_toNat (a : F32) (n : Nat) (h : a.toNat = n) : a = BitVec.ofNat 32 n := by
  rw [← h, BitVec.ofNat_toNat, BitVec.setWidth_eq]

/-- `fRound` rounds as R11 says. -/
theorem isRounded_fRound (neg : Bool) (n d : Nat) (hd : 0 < d) :
    isRounded (if neg then -(n : Int) else n) d (fRound neg n d) := by
  obtain ⟨T, hT0, hTo, hT⟩ : ∃ T : Nat, 0 < T ∧ overflowUnits = T ∧ T = 33554431 * 2 ^ 252 :=
    ⟨_, Nat.mul_pos (by norm_num) (Nat.two_pow_pos _), overflowUnits_eq, rfl⟩
  have hspec := roundMag_spec n d hd
  rw [← hT] at hspec
  clear hT
  obtain ⟨h1, h2⟩ := hspec
  have ht := fRound_toNat neg n d
  have hle := roundMag_le n d
  have habs : |(if neg then -(n : Int) else n)| = n := by cases neg <;> simp
  have hov : overflowUnits * d = ((T * d : Nat) : Int) := by rw [hTo]; push_cast; ring
  refine ⟨fun h => ?_, fun h => ?_⟩
  · rw [habs, hov] at h
    obtain ⟨hfin, hn⟩ := h2 (by exact_mod_cast h)
    have hm : (fRound neg n d).toNat % 2147483648 = roundMag n d := by rw [ht]; split <;> omega
    have hu : fUnits (fRound neg n d) = if neg then -(magOf (roundMag n d) : Int) else magOf (roundMag n d) := by
      rw [fUnits_eq, hm]
      cases neg
      · have h3 : ¬ 2147483648 ≤ (fRound false n d).toNat := by rw [ht, if_neg (by simp)]; omega
        rw [if_neg h3, if_neg (by simp)]
      · have h3 : 2147483648 ≤ (fRound true n d).toNat := by rw [ht, if_pos rfl]; omega
        rw [if_pos h3, if_pos rfl]
    refine ⟨(fIsFinite_iff _).2 (by rw [hm]; exact hfin), fun c hc => ?_⟩
    have hcr : ∃ m, fUnits c = magOf m ∨ fUnits c = -(magOf m : Int) :=
      ⟨_, by rw [fUnits_eq]; split; exact .inr rfl; exact .inl rfl⟩
    have hpar : (fRound neg n d).getLsbD 0 = false ↔ roundMag n d % 2 = 0 := by
      rw [getLsbD_zero_iff, ht]; split <;> omega
    rw [hu, hpar]
    cases neg
    · simp only [Bool.false_eq_true, if_false]
      exact hn (fUnits c) hcr
    · simp only [if_true]
      have := hn (-(fUnits c)) (by obtain ⟨m, h⟩ := hcr; exact ⟨m, by omega⟩)
      have e1 : |-(magOf (roundMag n d) : Int) * d - -(n : Int)| = |(magOf (roundMag n d) : Int) * d - n| := by
        rw [← abs_neg]; congr 1; ring
      have e2 : |fUnits c * d - -(n : Int)| = |-(fUnits c) * d - n| := by rw [← abs_neg]; congr 1; ring
      rw [e1, e2]
      exact ⟨this.1, fun a b => this.2 a (fun h => b (by omega))⟩
  · rw [habs, hov] at h
    have hinf := h1 (by exact_mod_cast h)
    have hn0 : 0 < n := by
      have h3 : 0 < T * d := Nat.mul_pos hT0 hd
      have h4 : T * d ≤ n := by exact_mod_cast h
      omega
    rw [hinf] at ht
    cases neg
    · have hpos : ¬ (if false = true then -(n : Int) else n) < 0 := by simp
      have hr : fRound false n d = posInf := by
        apply BitVec.eq_of_toNat_eq
        rw [ht, if_neg (by simp)]
        decide
      rw [if_neg hpos, hr]
    · have hneg : (if true = true then -(n : Int) else n) < 0 := by rw [if_pos rfl]; omega
      have hr : fRound true n d = negInf := by
        apply BitVec.eq_of_toNat_eq
        rw [ht, if_pos rfl]
        decide
      rw [if_pos hneg, hr]

/-- What finite operands are not. -/
theorem notNaN_notInf_of_finite {a : F32} (h : fIsFinite a = true) : fIsNaN a = false ∧ fIsInf a = false := by
  unfold fIsFinite at h; unfold fIsNaN fIsInf
  simp only [bne_iff_ne, ne_eq] at h
  simp [h]

theorem natAbs_fUnits (a : F32) : (fUnits a).natAbs = fMagUnits a := by unfold fUnits; split <;> simp

theorem fUnits_of_sign (a : F32) : fUnits a = if fSign a then -(fMagUnits a : Int) else fMagUnits a := rfl

theorem fneg_toNat (b : F32) :
    (fneg b).toNat = if 2147483648 ≤ b.toNat then b.toNat - 2147483648 else b.toNat + 2147483648 := by
  have h : ∀ k, (fneg b).getLsbD k = (b.getLsbD k ^^ decide (k = 31)) := by
    intro k; unfold fneg; rw [BitVec.getLsbD_xor]; congr 1
    by_cases hk : k < 32
    · interval_cases k <;> decide
    · rw [BitVec.getLsbD_of_ge _ _ (by omega)]; simp; omega
  have hb := b.isLt
  split
  · next hh =>
    have : fneg b = BitVec.ofNat 32 (b.toNat - 2147483648) := by
      apply BitVec.eq_of_getLsbD_eq; intro k hk
      rw [h, BitVec.getLsbD_ofNat, BitVec.getLsbD]
      have e : b.toNat = 2 ^ 31 + (b.toNat - 2147483648) := by omega
      by_cases h31 : k = 31
      · subst h31
        have h1 : b.toNat.testBit 31 = true := by
          rw [e]; rw [Nat.testBit_two_pow_add_eq]; rw [Nat.testBit_lt_two_pow (by omega)]; rfl
        rw [h1, Nat.testBit_lt_two_pow (by omega)]; simp
      · conv_lhs => rw [e]
        rw [Nat.testBit_two_pow_add_gt (by omega)]; simp [h31, hk]
    rw [this, BitVec.toNat_ofNat]; omega
  · next hh =>
    have : fneg b = BitVec.ofNat 32 (b.toNat + 2147483648) := by
      apply BitVec.eq_of_getLsbD_eq; intro k hk
      rw [h, BitVec.getLsbD_ofNat, BitVec.getLsbD, show b.toNat + 2147483648 = 2 ^ 31 + b.toNat by omega]
      by_cases h31 : k = 31
      · subst h31
        rw [Nat.testBit_two_pow_add_eq, Nat.testBit_lt_two_pow (show b.toNat < 2 ^ 31 by omega)]; simp
      · rw [Nat.testBit_two_pow_add_gt (by omega)]; simp [h31, hk]
    rw [this, BitVec.toNat_ofNat]; omega

theorem fIsFinite_fneg {b : F32} (h : fIsFinite b = true) : fIsFinite (fneg b) = true := by
  rw [fIsFinite_iff] at *; rw [fneg_toNat]; split <;> omega

theorem fUnits_fneg (b : F32) : fUnits (fneg b) = - fUnits b := by
  rw [fUnits_eq, fUnits_eq, fneg_toNat]
  have := b.isLt
  split
  · next h => rw [if_neg (by omega), show (b.toNat - 2147483648) % 2147483648 = b.toNat % 2147483648 by omega]; simp
  · next h => rw [if_pos (by omega), show (b.toNat + 2147483648) % 2147483648 = b.toNat % 2147483648 by omega]

theorem fIsZero_iff (a : F32) : fIsZero a = true ↔ fMagUnits a = 0 := by
  have hz : fMagUnits a = 0 ↔ a.toNat % 2147483648 = 0 := by
    rw [fMagUnits_eq]; constructor
    · intro h; by_contra hc
      have := magOf_mono (show 0 < a.toNat % 2147483648 by omega); omega
    · intro h; rw [h]; rfl
  rw [hz]; unfold fIsZero; simp only [Bool.or_eq_true, beq_iff_eq]
  constructor
  · rintro (h | h) <;> rw [h] <;> rfl
  · intro h
    have := a.isLt
    by_cases h2 : a.toNat = 0
    · left; exact eq_ofNat_of_toNat _ _ h2
    · right; exact eq_ofNat_of_toNat _ 2147483648 (by omega)

theorem fIsNaN_iff (a : F32) : fIsNaN a = true ↔ 0x7F800000 < a.toNat % 2147483648 := by
  unfold fIsNaN fExp fFrac; simp only [Bool.and_eq_true, beq_iff_eq, bne_iff_ne, ne_eq]
  omega

theorem fIsInf_iff (a : F32) : fIsInf a = true ↔ a.toNat % 2147483648 = 0x7F800000 := by
  unfold fIsInf fExp fFrac; simp only [Bool.and_eq_true, beq_iff_eq]
  omega

/-- The only infinities are `posInf` and `negInf`. -/
theorem eq_inf_of_fIsInf {a : F32} (h : fIsInf a = true) : a = posInf ∨ a = negInf := by
  rw [fIsInf_iff] at h
  by_cases hs : 2147483648 ≤ a.toNat
  · right; apply BitVec.eq_of_toNat_eq; show _ = 4286578688; omega
  · left; apply BitVec.eq_of_toNat_eq; show _ = 2139095040; omega

/-- The only values of no units are the two zeros. -/
theorem eq_zero_of_fUnits {a : F32} (h : fUnits a = 0) : a = posZero ∨ a = negZero := by
  have hz : fIsZero a = true := (fIsZero_iff a).2 (by rw [← natAbs_fUnits, h]; rfl)
  simpa [fIsZero] using hz

theorem magOf_lt_iff (m m' : Nat) : magOf m < magOf m' ↔ m < m' := by
  constructor
  · intro h; by_contra hc
    rcases Nat.lt_or_ge m' m with h2 | h2
    · have := magOf_mono h2; omega
    · have : m = m' := by omega
      subst this; omega
  · exact magOf_mono

theorem magOf_inj (m m' : Nat) : magOf m = magOf m' ↔ m = m' := by
  constructor
  · intro h; rcases Nat.lt_trichotomy m m' with h2 | h2 | h2
    · have := magOf_mono h2; omega
    · exact h2
    · have := magOf_mono h2; omega
  · intro h; rw [h]

theorem fOrd_eq (a : F32) :
    fOrd a = if 2147483648 ≤ a.toNat then -((a.toNat % 2147483648 : Nat) : Int) else ((a.toNat % 2147483648 : Nat) : Int) := by
  unfold fOrd; rw [fSign_eq]; simp

theorem fabs_toNat (v : F32) : (fabs v).toNat = v.toNat % 2147483648 := by
  unfold fabs; rw [BitVec.toNat_and]; 
  have := Nat.and_two_pow_sub_one_eq_mod v.toNat 31
  simpa using this

/-- Setting the exponent and the quiet bit makes a quiet NaN of any word. -/
theorem isQuietNaN_or (x : F32) : isQuietNaN (x ||| 0x7FC00000#32) := by
  unfold isQuietNaN
  have hbit : ∀ k, k < 32 → (0x7FC00000#32).getLsbD k = decide (22 ≤ k ∧ k ≤ 30) := by decide
  have h22 : (x ||| 0x7FC00000#32).getLsbD 22 = true := by rw [BitVec.getLsbD_or, hbit 22 (by omega)]; simp
  refine ⟨?_, h22⟩
  have hk : ∀ k, 22 ≤ k → k ≤ 30 → (x ||| 0x7FC00000#32).toNat.testBit k = true := by
    intro k h1 h2
    have : (x ||| 0x7FC00000#32).getLsbD k = true := by rw [BitVec.getLsbD_or, hbit k (by omega)]; simp [h1, h2]
    exact this
  generalize hy : (x ||| 0x7FC00000#32).toNat = y at hk
  have he : y / 8388608 % 256 = 255 := by
    apply Nat.eq_of_testBit_eq; intro i
    rw [show 256 = 2 ^ 8 by norm_num, Nat.testBit_mod_two_pow, show 8388608 = 2 ^ 23 by norm_num, Nat.testBit_div_two_pow,
      show 255 = 2 ^ 8 - 1 by norm_num, Nat.testBit_two_pow_sub_one]
    by_cases h : i < 8
    · rw [show i + 23 = 23 + i by omega] at *; rw [hk (23 + i) (by omega) (by omega)]; simp
    · simp [h]
  have hf : y % 8388608 ≠ 0 := by
    intro h
    have := hk 22 (by omega) (by omega)
    have h2 : (y % 2 ^ 23).testBit 22 = true := by rw [Nat.testBit_mod_two_pow]; simp [this]
    rw [show (2:Nat)^23 = 8388608 by norm_num, h] at h2; simp at h2
  unfold fIsNaN fExp fFrac; rw [hy]; simp [he, hf]

/-! ## Square roots -/

theorem isqrtFrom_spec (n : Nat) : ∀ k r, r * r ≤ n → n < (r + 2 ^ k) * (r + 2 ^ k) →
    isqrtFrom n k r * isqrtFrom n k r ≤ n ∧ n < (isqrtFrom n k r + 1) * (isqrtFrom n k r + 1) := by
  intro k
  induction k with
  | zero => intro r h1 h2; simp only [isqrtFrom]; exact ⟨h1, by simpa using h2⟩
  | succ k ih =>
    intro r h1 h2
    unfold isqrtFrom
    split
    · next h => exact ih _ h (by rw [show r + 2 ^ k + 2 ^ k = r + 2 ^ (k+1) by rw [pow_succ]; ring]; exact h2)
    · next h => exact ih _ h1 (by omega)

/-- `isqrt` is the whole part of the square root. -/
theorem isqrt_spec (n : Nat) : isqrt n * isqrt n ≤ n ∧ n < (isqrt n + 1) * (isqrt n + 1) := by
  unfold isqrt
  refine isqrtFrom_spec n _ 0 (by omega) ?_
  rw [Nat.zero_add, ← pow_add]
  exact lt_of_lt_of_le Nat.lt_log2_self (Nat.pow_le_pow_right (by omega) (by omega))

end Sys2Proof.Machine
end

