-- ==== Sys2Proof/Laws/FloatExact.lean ====
section
/-! SUPPORT. Operations whose exact result is representable: nothing is rounded (R11). -/

namespace Sys2Proof.Machine

/-- A finite magnitude lies below the value that rounds to an infinity. -/
theorem magOf_lt_overflow {m : Nat} (h : m < 0x7F800000) : magOf m < 33554431 * 2 ^ 252 := by
  have h2 : magOf 0x7F7FFFFF < 33554431 * 2 ^ 252 := by decide +kernel
  refine lt_of_le_of_lt ?_ h2
  rcases Nat.lt_or_eq_of_le (Nat.le_of_lt_succ h) with h | h
  · exact le_of_lt (magOf_mono h)
  · exact le_of_eq (congrArg _ h)

/-- Rounding leaves a representable magnitude as it is. -/
theorem roundMag_exact {m : Nat} (h : m < 0x7F800000) (d : Nat) (hd : 0 < d) : roundMag (magOf m * d) d = m := by
  have hs := (roundMag_spec (magOf m * d) d hd).2 (Nat.mul_lt_mul_of_pos_right (magOf_lt_overflow h) hd)
  have h1 := (hs.2 (magOf m) ⟨m, .inl rfl⟩).1
  generalize roundMag (magOf m * d) d = r at *
  rw [Nat.cast_mul, sub_self, abs_zero] at h1
  have h2 := abs_nonpos_iff.1 h1
  rw [← sub_mul] at h2
  have hd' : (d : Int) ≠ 0 := by exact_mod_cast hd.ne'
  have h3 := (mul_eq_zero.1 h2).resolve_right hd'
  have h4 : magOf r = magOf m := by exact_mod_cast sub_eq_zero.1 h3
  exact (magOf_inj _ _).1 h4

/-- A finite value rounds to itself. -/
theorem fRound_self {a : F32} (h : fIsFinite a = true) (d : Nat) (hd : 0 < d) : fRound (fSign a) (fMagUnits a * d) d = a := by
  apply BitVec.eq_of_toNat_eq
  rw [fRound_toNat, fMagUnits_eq, roundMag_exact ((fIsFinite_iff a).1 h) d hd]
  rw [fSign_eq]
  have := a.isLt
  by_cases hs : 2147483648 ≤ a.toNat
  · rw [if_pos (by simpa using hs)]; omega
  · rw [if_neg (by simpa using hs)]; omega

/-- 1.0 is 2^149 units. -/
theorem fMagUnits_fOne : fMagUnits fOne = 2 ^ 149 := by decide +kernel

/-- A finite value times 1.0 is that value. -/
theorem fmul_fOne {a : F32} (h : fIsFinite a = true) : fmul a fOne = a := by
  obtain ⟨hn, hi⟩ := notNaN_notInf_of_finite h
  have : fMulCore a fOne = some (fRound (fSign a) (fMagUnits a * 2 ^ 149) (2 ^ 149)) := by
    unfold fMulCore
    rw [fMagUnits_fOne]
    simp [hn, hi, show fIsNaN fOne = false by decide, show fIsInf fOne = false by decide, show fSign fOne = false by decide]
  rw [fmul, this, Option.getD_some, fRound_self h _ (Nat.two_pow_pos _)]

/-- 1.0 times a finite value is that value. -/
theorem fOne_fmul {a : F32} (h : fIsFinite a = true) : fmul fOne a = a := by
  obtain ⟨hn, hi⟩ := notNaN_notInf_of_finite h
  have : fMulCore fOne a = some (fRound (fSign a) (fMagUnits a * 2 ^ 149) (2 ^ 149)) := by
    unfold fMulCore
    rw [fMagUnits_fOne, Nat.mul_comm]
    simp [hn, hi, show fIsNaN fOne = false by decide, show fIsInf fOne = false by decide, show fSign fOne = false by decide]
  rw [fmul, this, Option.getD_some, fRound_self h _ (Nat.two_pow_pos _)]

/-- A finite value divided by 1.0 is that value. -/
theorem fdiv_fOne {a : F32} (h : fIsFinite a = true) : fdiv a fOne = a := by
  obtain ⟨hn, hi⟩ := notNaN_notInf_of_finite h
  have : fDivCore a fOne = some (fRound (fSign a) (fMagUnits a * 2 ^ 149) (2 ^ 149)) := by
    unfold fDivCore
    rw [fMagUnits_fOne]
    simp [hn, hi, show fIsNaN fOne = false by decide, show fIsInf fOne = false by decide, show fSign fOne = false by decide, show fIsZero fOne = false by decide]
  rw [fdiv, this, Option.getD_some, fRound_self h _ (Nat.two_pow_pos _)]

/-- A finite value other than zero divided by itself is 1.0. -/
theorem fdiv_self {a : F32} (h : fIsFinite a = true) (hz : fIsZero a = false) : fdiv a a = fOne := by
  obtain ⟨hn, hi⟩ := notNaN_notInf_of_finite h
  have hp : 0 < fMagUnits a := Nat.pos_of_ne_zero (fun e => by rw [(fIsZero_iff a).2 e] at hz; cases hz)
  have : fDivCore a a = some (fRound (fSign fOne) (fMagUnits fOne * fMagUnits a) (fMagUnits a)) := by
    unfold fDivCore
    rw [fMagUnits_fOne, Nat.mul_comm]
    simp [hn, hi, hz, show fSign fOne = false by decide]
  rw [fdiv, this, Option.getD_some, fRound_self (by decide) _ hp]

/-- Adding +0.0 to a finite value changes only -0.0. -/
theorem fadd_posZero {a : F32} (h : fIsFinite a = true) : fadd a posZero = if a = negZero then posZero else a := by
  obtain ⟨hn, hi⟩ := notNaN_notInf_of_finite h
  have hc : fAddCore a posZero = if fUnits a = 0 then some posZero else some (fRound (decide (fUnits a < 0)) (fUnits a).natAbs 1) := by
    unfold fAddCore
    simp [hn, hi, show fIsNaN posZero = false by decide, show fIsInf posZero = false by decide, show fSign posZero = false by decide, show fUnits posZero = 0 by decide]
  by_cases hz : fUnits a = 0
  · have hm : fIsZero a = true := (fIsZero_iff a).2 (by rw [← natAbs_fUnits, hz]; rfl)
    rw [fadd, hc, if_pos hz, Option.getD_some]
    unfold fIsZero at hm
    simp only [Bool.or_eq_true, beq_iff_eq] at hm
    rcases hm with e | e <;> subst e <;> decide
  · have hne : a ≠ negZero := fun e => hz (by rw [e]; decide)
    have hs : decide (fUnits a < 0) = fSign a := by
      rw [fUnits_of_sign] at hz ⊢
      cases fSign a
      · simp
      · simp only [if_true] at hz ⊢; simp only [decide_eq_true_eq]; omega
    rw [fadd, hc, if_neg hz, Option.getD_some, hs, natAbs_fUnits, if_neg hne]
    have := fRound_self h 1 Nat.one_pos
    rwa [Nat.mul_one] at this

/-- A finite value less itself is +0.0. -/
theorem fsub_self {a : F32} (h : fIsFinite a = true) : fsub a a = posZero := by
  obtain ⟨hn, hi⟩ := notNaN_notInf_of_finite h
  have hf := fIsFinite_fneg h
  obtain ⟨hn', hi'⟩ := notNaN_notInf_of_finite hf
  have hs : fSign (fneg a) = !fSign a := by
    unfold fSign fneg; rw [BitVec.msb_xor, show (0x80000000#32).msb = true by decide, Bool.xor_true]
  have : fAddCore a (fneg a) = some posZero := by
    unfold fAddCore
    rw [fUnits_fneg]
    simp [hn, hi, hn', hi', hs]
  rw [fsub, this]; rfl
end Sys2Proof.Machine
end

