-- ==== Sys2Proof/Laws/PerInstr.lean ====
section
/-! SUPPORT. Statements about every command as syntax, one lemma per constructor. -/

namespace Sys2Proof.Laws

/-- The opcode field of an encoded command is the opcode its row of R54 gives, and the map of R54 reads a command from it. -/
def EncodedOp.Statement (i : Instr) : Prop := opField (encode i) = opcodeOf i ∧ (decodeMap (encode i)).isSome = true

theorem EncodedOp.all (i : Instr) : EncodedOp.Statement i := by
  refine ⟨opField_packFields _ _ _ _, ?_⟩
  unfold decodeMap encode
  rw [opField_packFields]
  cases i <;> rfl

theorem EncodedOp.nop : EncodedOp.Statement .nop := EncodedOp.all _
theorem EncodedOp.setBandType (band code : Nat) : EncodedOp.Statement (.setBandType band code) := EncodedOp.all _
theorem EncodedOp.setBandFreq (band : Nat) (hz : F32) : EncodedOp.Statement (.setBandFreq band hz) := EncodedOp.all _
theorem EncodedOp.setBandQ (band : Nat) (q : F32) : EncodedOp.Statement (.setBandQ band q) := EncodedOp.all _
theorem EncodedOp.setBandGain (band : Nat) (db : F32) : EncodedOp.Statement (.setBandGain band db) := EncodedOp.all _
theorem EncodedOp.setGlobalGain (db : F32) : EncodedOp.Statement (.setGlobalGain db) := EncodedOp.all _
theorem EncodedOp.setMix (m : F32) : EncodedOp.Statement (.setMix m) := EncodedOp.all _
theorem EncodedOp.setBypass (v : Bool) : EncodedOp.Statement (.setBypass v) := EncodedOp.all _
theorem EncodedOp.setAnalyzerEn (v : Bool) : EncodedOp.Statement (.setAnalyzerEn v) := EncodedOp.all _
theorem EncodedOp.setBandCount (n : Int) : EncodedOp.Statement (.setBandCount n) := EncodedOp.all _
theorem EncodedOp.getStatus : EncodedOp.Statement .getStatus := EncodedOp.all _
theorem EncodedOp.clearStatus (mask : BitVec 7) : EncodedOp.Statement (.clearStatus mask) := EncodedOp.all _
theorem EncodedOp.prepare (maxBlock : Nat) (sr : F32) : EncodedOp.Statement (.prepare maxBlock sr) := EncodedOp.all _
theorem EncodedOp.process (numCh numSamples : Nat) : EncodedOp.Statement (.process numCh numSamples) := EncodedOp.all _
theorem EncodedOp.reset (target : ResetTarget) : EncodedOp.Statement (.reset target) := EncodedOp.all _
theorem EncodedOp.writeIn (ch n : Nat) (v : F32) : EncodedOp.Statement (.writeIn ch n v) := EncodedOp.all _
theorem EncodedOp.readOut (ch n : Nat) : EncodedOp.Statement (.readOut ch n) := EncodedOp.all _
theorem EncodedOp.readState (band ch : Nat) (tap : Tap) : EncodedOp.Statement (.readState band ch tap) := EncodedOp.all _
theorem EncodedOp.readCoef (band k : Nat) : EncodedOp.Statement (.readCoef band k) := EncodedOp.all _
theorem EncodedOp.analyze : EncodedOp.Statement .analyze := EncodedOp.all _
theorem EncodedOp.getSpectrum : EncodedOp.Statement .getSpectrum := EncodedOp.all _

end Sys2Proof.Laws
end

