-- ==== Sys2Proof/Laws/SpectrumRef.lean ====
section
/-! SUPPORT. The reference spectrum of R119 on windows of four words, the window length of its example. -/

namespace Sys2Proof.Machine

theorem fReal_fOne : fReal fOne = 1 := by
  rw [fReal, show fUnits fOne = 2 ^ 149 by decide +kernel]
  norm_num

/-- R119's example: the Hann window of four samples is 0, 0.75, 0.75, 0. -/
theorem hann_four : hann 4 0 = 0 ∧ hann 4 1 = 3 / 4 ∧ hann 4 2 = 3 / 4 ∧ hann 4 3 = 0 := by
  have h1 : Real.cos (2 * Real.pi / 3) = -1 / 2 := by
    rw [show 2 * Real.pi / 3 = Real.pi - Real.pi / 3 by ring, Real.cos_pi_sub, Real.cos_pi_div_three]
    norm_num
  have h2 : Real.cos (2 * Real.pi * 2 / 3) = -1 / 2 := by
    rw [show 2 * Real.pi * 2 / 3 = Real.pi / 3 + Real.pi by ring, Real.cos_add_pi, Real.cos_pi_div_three]
    norm_num
  unfold hann
  refine ⟨by norm_num, ?_, ?_, ?_⟩
  · rw [show 2 * Real.pi * ((1 : ℕ) : ℝ) / (((4 : ℕ) : ℝ) - 1) = 2 * Real.pi / 3 by norm_num, h1]
    norm_num
  · rw [show 2 * Real.pi * ((2 : ℕ) : ℝ) / (((4 : ℕ) : ℝ) - 1) = 2 * Real.pi * 2 / 3 by norm_num, h2]
    norm_num
  · rw [show 2 * Real.pi * ((3 : ℕ) : ℝ) / (((4 : ℕ) : ℝ) - 1) = 2 * Real.pi by norm_num, Real.cos_two_pi]
    norm_num

/-- The twiddle factors of bin 1 for the two samples the window keeps. -/
theorem twiddle_four :
    Complex.exp (-2 * Real.pi * Complex.I * (1 : ℕ) * (1 : ℕ) / (4 : ℕ)) = -Complex.I ∧
    Complex.exp (-2 * Real.pi * Complex.I * (1 : ℕ) * (2 : ℕ) / (4 : ℕ)) = -1 := by
  constructor
  · rw [show (-2 * Real.pi * Complex.I * (1 : ℕ) * (1 : ℕ) / (4 : ℕ) : ℂ) = -(Real.pi / 2 * Complex.I) by push_cast; ring,
      Complex.exp_neg, Complex.exp_pi_div_two_mul_I, Complex.inv_I]
  · rw [show (-2 * Real.pi * Complex.I * (1 : ℕ) * (2 : ℕ) / (4 : ℕ) : ℂ) = -(Real.pi * Complex.I) by push_cast; ring,
      Complex.exp_neg, Complex.exp_pi_mul_I]
    norm_num

end Sys2Proof.Machine
end

