-- ==== Sys2Proof/Laws/Transcend.lean ====
section
/-! SUPPORT. What the configuration functions of R86 are bound to, and that the underflow limit of `Pow10_32` is the right binary32
value. -/

namespace Sys2Proof.Machine

/-! ## The order of finite values -/

/-- On finite values `≤` compares the numbers. -/
theorem fle_iff_fUnits {a b : F32} (ha : fIsFinite a = true) (hb : fIsFinite b = true) : fle a b = true ↔ fUnits a ≤ fUnits b := by
  have h1 := magOf_lt_iff (a.toNat % 2147483648) (b.toNat % 2147483648)
  have h2 := magOf_lt_iff (b.toNat % 2147483648) (a.toNat % 2147483648)
  have h3 := magOf_lt_iff 0 (a.toNat % 2147483648)
  have h4 := magOf_lt_iff 0 (b.toNat % 2147483648)
  have h0 : magOf 0 = 0 := rfl
  simp only [fle, (notNaN_notInf_of_finite ha).1, (notNaN_notInf_of_finite hb).1, Bool.not_false, Bool.true_and, decide_eq_true_eq]
  rw [fOrd_eq, fOrd_eq, fUnits_eq, fUnits_eq]
  split <;> split <;> omega

/-! ## Where a power of ten underflows -/

/-- `log10 2` lies between two fractions close enough to tell two neighbouring binary32 values apart below. -/
theorem logb_two_bounds : (4647 : ℝ) / 15437 < Real.logb 10 2 ∧ Real.logb 10 2 < 2718 / 9029 := by
  have hp : (10 : ℕ) ^ 4647 < 2 ^ 15437 ∧ (2 : ℕ) ^ 9029 < 10 ^ 2718 := by decide +kernel
  have hl : (10 : ℝ) ^ 4647 < 2 ^ 15437 := by exact_mod_cast hp.1
  have hu : (2 : ℝ) ^ 9029 < 10 ^ 2718 := by exact_mod_cast hp.2
  have h1 := Real.logb_lt_logb (b := 10) (by norm_num) (by positivity) hl
  have h2 := Real.logb_lt_logb (b := 10) (by norm_num) (by positivity) hu
  rw [Real.logb_pow, Real.logb_pow, Real.logb_self_eq_one (by norm_num)] at h1 h2
  constructor
  · rw [div_lt_iff₀ (by norm_num)]; push_cast at h1; linarith
  · rw [lt_div_iff₀ (by norm_num)]; push_cast at h2; linarith

/-- `10^y` lies below `2^-126` exactly when `y` lies below `-126·log10 2`. -/
theorem pow_ten_lt_iff (y : ℝ) : (10 : ℝ) ^ y < 1 / 2 ^ 126 ↔ y < -126 * Real.logb 10 2 := by
  have h : (1 : ℝ) / 2 ^ 126 = 10 ^ (-126 * Real.logb 10 2) := by
    rw [mul_comm, Real.rpow_mul (by norm_num), Real.rpow_logb (by norm_num) (by norm_num) (by norm_num)]
    norm_num [Real.rpow_neg]
  rw [h, Real.rpow_lt_rpow_left_iff (by norm_num)]

/-- `pow10Tiny` is the greatest binary32 value whose power of ten lies below the least normal value. -/
theorem pow10Underflows_iff {x : F32} (hx : fIsFinite x = true) : pow10Underflows x = true ↔ (10 : ℝ) ^ fReal x < 1 / 2 ^ 126 := by
  have hC : fUnits pow10Tiny = -(9943065 * 2 ^ 131) := by decide +kernel
  have hN : fUnits 0xC217B818#32 = -(9943064 * 2 ^ 131) := by decide +kernel
  obtain ⟨hl, hu⟩ := logb_two_bounds
  rw [pow_ten_lt_iff]
  unfold pow10Underflows fReal
  have hmono : ∀ k : ℤ, fUnits x ≤ k ↔ (fUnits x : ℝ) / 2 ^ 149 ≤ (k : ℝ) / 2 ^ 149 := fun k => by
    rw [div_le_div_iff_of_pos_right (by positivity)]; norm_cast
  have hmono' : ∀ k : ℤ, k ≤ fUnits x ↔ (k : ℝ) / 2 ^ 149 ≤ (fUnits x : ℝ) / 2 ^ 149 := fun k => by
    rw [div_le_div_iff_of_pos_right (by positivity)]; norm_cast
  constructor
  · intro h
    rw [fle_iff_fUnits hx (by decide), hC, hmono] at h
    refine lt_of_le_of_lt h ?_
    norm_num; linarith
  · intro h
    by_contra hc
    have hn : fle 0xC217B818#32 x = true := by
      simp only [fle, (notNaN_notInf_of_finite hx).1, show fIsNaN pow10Tiny = false by decide, show fIsNaN 0xC217B818#32 = false by decide,
        show fOrd pow10Tiny = -1108850713 by decide, show fOrd 0xC217B818#32 = -1108850712 by decide, Bool.not_false, Bool.true_and,
        decide_eq_true_eq] at hc ⊢
      omega
    rw [fle_iff_fUnits (by decide) hx, hN, hmono'] at hn
    norm_num at hn; linarith

/-! ## What `Pow10_32` answers -/

/-- At a finite value `Pow10_32` is above zero, or `+0.0` on underflow (R86 item 3). -/
theorem pow10_allowed {x : F32} (hx : fIsFinite x = true) : pow10Allowed x (pow10 x) = true := by
  have h1 : ∀ y, pow10Allowed y fOne = true := fun y => by
    unfold pow10Allowed; rw [show flt posZero fOne = true by decide]; rfl
  have hp : x ≠ posInf := by rintro rfl; revert hx; decide
  have hn : x ≠ negInf := by rintro rfl; revert hx; decide
  unfold pow10
  simp only [hp, hn, hx, if_false, Bool.true_and, Bool.not_eq_true']
  split
  · exact h1 x
  · split
    · exact h1 x
    · next h => exact Bool.eq_true_of_not_eq_false h

end Sys2Proof.Machine
end

