-- ==== Sys2Proof/Machine/Assembler.lean ====
section
/-! DEFINITION. The assembler syntax of R63 and the pseudo-commands of R64 to R67. The block reads command words only, so no step of
the machine uses this file. -/

namespace Sys2Proof.Machine

/-! ## Pseudo-commands -/

/-- `SET_BAND bI, Type, hz, q, db` (R64). -/
def pseudoSetBand (band : Nat) (ty : FilterType) (hz q db : F32) : List Instr :=
  [.setBandType band (filterCode ty), .setBandFreq band hz, .setBandQ band q, .setBandGain band db]

/-- `SET_GLOBAL db, m, byp, an` (R65). -/
def pseudoSetGlobal (db m : F32) (byp an : Bool) : List Instr :=
  [.setGlobalGain db, .setMix m, .setBypass byp, .setAnalyzerEn an]

/-- The indexes `[c][n]` of a block, `c` outer, `n` inner (R66). -/
def hostIndexes (C ns : Nat) : List (Nat × Nat) := (List.range C).flatMap (fun c => (List.range ns).map (fun n => (c, n)))

/-- `HOST_PROCESS C, S, inbuf, outbuf` (R66), `inbuf c n` being the word `inbuf[c][n]` of the host's buffer. R66 is silent on a buffer
without such a word: here a buffer has a word at every index, and what stands outside it is the caller's to say (DESIGN CHOICE, entry
18). `outbuf` is where the host puts the responses of the reads, so it shapes no command. -/
def pseudoHostProcess (C ns : Nat) (inbuf : Nat → Nat → F32) : List Instr :=
  (hostIndexes C ns).map (fun ix => .writeIn ix.1 ix.2 (inbuf ix.1 ix.2)) ++ [.process C ns] ++
    (hostIndexes C ns).map (fun ix => .readOut ix.1 ix.2)

/-- `getLatestSpectrum()` and the argument-less `reset()` of the source (R67). -/
def pseudoGetLatestSpectrum : List Instr := [.getSpectrum]
def pseudoReset : List Instr := [.reset .all]

/-! ## Operands, as characters -/

/-- A text cut at every character a test selects. -/
def cutAt (p : Char → Bool) : List Char → List (List Char)
  | [] => [[]]
  | x :: xs =>
    if p x then [] :: cutAt p xs
    else match cutAt p xs with
      | [] => [[x]]
      | w :: ws => (x :: w) :: ws

/-- A text without the spaces before and after it. A space inside an operand stays, and no operand has one (DESIGN CHOICE, entry
15). -/
def trimSpaces (cs : List Char) : List Char :=
  ((cs.dropWhile (fun c => c == ' ')).reverse.dropWhile (fun c => c == ' ')).reverse

/-- The digits of base 16, a decimal one among its first ten. -/
def digitChars : List Char := "0123456789abcdef".toList

/-- The value of a digit in a base up to 16, a letter in either case. -/
def digitValue (base : Nat) (c : Char) : Option Nat := (digitChars.take base).findIdx? (fun d => d == c.toLower)

/-- The number that digits in a base write, the first the most significant. It has one digit or more. -/
def readBase (base : Nat) (cs : List Char) : Option Nat :=
  if cs.isEmpty then none else (cs.mapM (digitValue base)).map (fun ds => ds.foldl (fun n d => n * base + d) 0)

def readNat (cs : List Char) : Option Nat := readBase 10 cs

/-- The 32-bit word that the digits after `0x` write. R63 does not say how many they are: one to eight, a shorter encoding being
extended with zeros (DESIGN CHOICE, entry 15). -/
def readHexWord (cs : List Char) : Option (BitVec 32) :=
  if 8 < cs.length then none else (readBase 16 cs).map (fun n => BitVec.ofNat 32 n)

def readInt : List Char → Option Int
  | '-' :: cs => (readNat cs).map (fun n => -(n : Int))
  | cs => (readNat cs).map (fun n => (n : Int))

/-- An unsigned decimal, with or without a fraction, rounded to binary32 with a sign (R63). -/
def readDecimal (neg : Bool) (cs : List Char) : Option F32 :=
  match cutAt (fun c => c == '.') cs with
  | [whole] => (readNat whole).map (fun n => fRound neg (n * 2 ^ 149) 1)
  | [whole, frac] =>
    match readNat whole, readNat frac, readNat (whole ++ frac) with
    | some _, some _, some n => some (fRound neg (n * 2 ^ 149) (10 ^ frac.length))
    | _, _, _ => none
  | _ => none

/-- An f32 value: a `0x`-prefixed encoding or a decimal literal (R63). -/
def readF32 : List Char → Option F32
  | '0' :: 'x' :: cs => readHexWord cs
  | '-' :: cs => readDecimal true cs
  | cs => readDecimal false cs

/-- The mask of `CLEAR_STATUS`, written as its whole `DATA` word, as in R140's example `CLEAR_STATUS 0x7F00`. -/
def readMask : List Char → Option (BitVec 32)
  | '0' :: 'x' :: cs => readHexWord cs
  | cs => (readNat cs).bind (fun n => if n < 4294967296 then some (BitVec.ofNat 32 n) else none)

/-- A band slot `b0` to `b9` (R63). -/
def readBand : List Char → Option Nat
  | ['b', c] => digitValue 10 c
  | _ => none

/-- A channel `ch0`, `ch1`, ... (R63). -/
def readChannel : List Char → Option Nat
  | 'c' :: 'h' :: cs => readNat cs
  | _ => none

def readBool : List Char → Option Bool
  | ['0'] => some false
  | ['1'] => some true
  | _ => none

/-- A FilterType by its name (R63). -/
def readFilterType (cs : List Char) : Option FilterType :=
  if cs = "LowPass".toList then some .lowPass
  else if cs = "HighPass".toList then some .highPass
  else if cs = "BandPass".toList then some .bandPass
  else if cs = "Notch".toList then some .notch
  else if cs = "AllPass".toList then some .allPass
  else if cs = "Peak".toList then some .peak
  else if cs = "LowShelf".toList then some .lowShelf
  else if cs = "HighShelf".toList then some .highShelf
  else none

def readTap : List Char → Option Tap
  | ['z', '1'] => some .z1
  | ['z', '2'] => some .z2
  | _ => none

/-- The coefficient names of `READ_COEF`, in the order of R152. -/
def readCoefName : List Char → Option Nat
  | ['b', '0'] => some 0
  | ['b', '1'] => some 1
  | ['b', '2'] => some 2
  | ['a', '1'] => some 3
  | ['a', '2'] => some 4
  | _ => none

/-- `chC` or `all` (R63). -/
def readTarget (cs : List Char) : Option ResetTarget :=
  if cs = "all".toList then some .all else (readChannel cs).map .channel

/-! ## Commands -/

/-- A mnemonic with its operands (R63). -/
def parseCommand (name : List Char) (ops : List (List Char)) : Option Instr :=
  match ops with
  | [] =>
    if name = "NOP".toList then some .nop
    else if name = "GET_STATUS".toList then some .getStatus
    else if name = "ANALYZE".toList then some .analyze
    else if name = "GET_SPECTRUM".toList then some .getSpectrum
    else none
  | [x] =>
    if name = "SET_GLOBAL_GAIN".toList then (readF32 x).map .setGlobalGain
    else if name = "SET_MIX".toList then (readF32 x).map .setMix
    else if name = "SET_BYPASS".toList then (readBool x).map .setBypass
    else if name = "SET_ANALYZER_EN".toList then (readBool x).map .setAnalyzerEn
    else if name = "SET_BAND_COUNT".toList then (readInt x).map .setBandCount
    else if name = "CLEAR_STATUS".toList then (readMask x).map (fun d => .clearStatus (dataMask d))
    else if name = "RESET".toList then (readTarget x).map .reset
    else none
  | [x, y] =>
    if name = "SET_BAND_TYPE".toList then
      (readBand x).bind (fun b => (readFilterType y).map (fun ty => .setBandType b (filterCode ty)))
    else if name = "SET_BAND_FREQ".toList then (readBand x).bind (fun b => (readF32 y).map (.setBandFreq b))
    else if name = "SET_BAND_Q".toList then (readBand x).bind (fun b => (readF32 y).map (.setBandQ b))
    else if name = "SET_BAND_GAIN".toList then (readBand x).bind (fun b => (readF32 y).map (.setBandGain b))
    else if name = "PREPARE".toList then (readF32 x).bind (fun sr => (readNat y).map (fun mb => .prepare mb sr))
    else if name = "PROCESS".toList then (readNat x).bind (fun c => (readNat y).map (.process c))
    else if name = "READ_OUT".toList then (readChannel x).bind (fun c => (readNat y).map (.readOut c))
    else if name = "READ_COEF".toList then (readBand x).bind (fun b => (readCoefName y).map (.readCoef b))
    else none
  | [x, y, z] =>
    if name = "WRITE_IN".toList then
      (readChannel x).bind (fun c => (readNat y).bind (fun n => (readF32 z).map (.writeIn c n)))
    else if name = "READ_STATE".toList then
      (readBand x).bind (fun b => (readChannel y).bind (fun c => (readTap z).map (.readState b c)))
    else none
  | _ => none

/-- A line, `MNEMONIC operands` with operands separated by commas (R63): the word of its command, if it names one that has an
encoding. Where spaces may stand is the model's: before and after the mnemonic, an operand and a comma, any number of them, and nowhere
else (DESIGN CHOICE, entry 15). -/
def assemble (line : String) : Option Command :=
  let text := trimSpaces line.toList
  let name := text.takeWhile (fun c => c != ' ')
  let rest := trimSpaces (text.drop name.length)
  let ops := if rest.isEmpty then [] else (cutAt (fun c => c == ',') rest).map trimSpaces
  (parseCommand name ops).bind (fun i => if i.wf then some (encode i) else none)

end Sys2Proof.Machine
end

