-- ==== Sys2Proof/Tests/Slice0.lean ====
section
/-! SUPPORT. The model's own tests. Expected values are the vectors of spec/95_test_vectors.md (its section named with each group) and
the worked examples of the rules, or IEEE 754 arithmetic done by hand. Then one witness for the hypotheses of each statement. -/

set_option Elab.async false

namespace Sys2Proof.Tests

open Sys2Proof.Machine

/-! ## Small states and what is looked at -/

/-- The dimensions of the vectors of spec/95: two channels, 64 samples, a window of 4. -/
def tinyDims : Dims := { maxChannels := 2, maxBlockCap := 64, window := 4, respDepth := 4, hostByteOrder := .little, portMap := ⟨⟨0, 0⟩, ⟨0, 0⟩, ⟨0, 0⟩⟩ }

def tiny : State := State.powerOn tinyDims

def nextOf : Host.Outcome State Fault Refusal → Option State
  | .next t => some t
  | _ => none

def faultOf : Host.Outcome State Fault Refusal → Option Fault
  | .fault f => some f
  | _ => none

/-- A few command words, each executed on its port. -/
def after (ws : List (Port × Command)) (s : State) : Option State :=
  ws.foldl (fun o w => o.bind (fun t => nextOf (runWord w.1 w.2 t))) (some s)

def status (s : State) : Response := statusWord s.ev s.E.snapValid s.E.prepared

/-- One parameter word on CTRL: what it leaves in the parameter store, and `STATUS`. -/
def ctrl {α : Type} (w : Command) (f : Params → α) : Option (α × Response) := (after [(.ctrl, w)] tiny).map (fun t => (f t.P, status t))

/-- The response words of a port, and `STATUS`. -/
def answer (p : Port) (o : Option State) : Option (List Response × Response) := o.map (fun t => ((t.ports.get p).resp, status t))

/-! ## Well-formedness: each check refuses an ill-formed term -/

theorem test_wf_band : (Instr.setBandType 256 0).wf = false ∧ (Instr.setBandFreq 256 0#32).wf = false ∧
    (Instr.setBandQ 256 0#32).wf = false ∧ (Instr.setBandGain 256 0#32).wf = false ∧ (Instr.readCoef 256 0).wf = false ∧
    (Instr.readState 256 0 .z1).wf = false := by decide
theorem test_wf_code : (Instr.setBandType 0 4294967296).wf = false := by decide
theorem test_wf_count : (Instr.setBandCount 2147483648).wf = false ∧ (Instr.setBandCount (-2147483649)).wf = false := by decide
theorem test_wf_aux : (Instr.prepare 65536 0#32).wf = false ∧ (Instr.process 0 65536).wf = false ∧ (Instr.writeIn 0 65536 0#32).wf = false ∧
    (Instr.readOut 0 65536).wf = false ∧ (Instr.readCoef 0 65536).wf = false := by decide
theorem test_wf_channel : (Instr.process 256 0).wf = false ∧ (Instr.reset (.channel 255)).wf = false ∧ (Instr.writeIn 256 0 0#32).wf = false ∧
    (Instr.readOut 256 0).wf = false ∧ (Instr.readState 0 32768 .z1).wf = false := by decide
theorem test_wf_accepts : (Instr.setBandType 255 4294967295).wf = true ∧ (Instr.setBandCount (-2147483648)).wf = true ∧
    (Instr.reset (.channel 254)).wf = true ∧ (Instr.readState 255 32767 .z2).wf = true := by decide

/-! ## Decoding: the words of spec/30 R54, R63, of the rules' examples, and of spec/95 sections 6 to 8 -/

theorem test_decode_nop : decode .disp 0x00FF123456789ABC#64 = .command .nop := by decide
theorem test_decode_setBandType : decode .ctrl 0x1002000000000003#64 = .command (.setBandType 2 3) := by decide
theorem test_decode_setBandFreq : decode .ctrl 0x11030000447A0000#64 = .command (.setBandFreq 3 0x447A0000#32) := by decide
theorem test_decode_setBandQ : decode .ctrl 0x120100003D4CCCCD#64 = .command (.setBandQ 1 0x3D4CCCCD#32) := by decide
theorem test_decode_setBandGain : decode .ctrl 0x13000000C1F00000#64 = .command (.setBandGain 0 0xC1F00000#32) := by decide
theorem test_decode_setGlobalGain : decode .ctrl 0x14000000C0C00000#64 = .command (.setGlobalGain 0xC0C00000#32) := by decide
theorem test_decode_setMix : decode .ctrl 0x150000003FC00000#64 = .command (.setMix 0x3FC00000#32) := by decide
theorem test_decode_setBypass : decode .ctrl 0x1600000000000003#64 = .command (.setBypass true) ∧
    decode .ctrl 0x1600000000000002#64 = .command (.setBypass false) := by decide
theorem test_decode_setAnalyzerEn : decode .ctrl 0x1700000000000000#64 = .command (.setAnalyzerEn false) ∧
    decode .ctrl 0x1700000000000001#64 = .command (.setAnalyzerEn true) := by decide
theorem test_decode_setBandCount : decode .ctrl 0x18000000FFFFFFFF#64 = .command (.setBandCount (-1)) := by decide
theorem test_decode_getStatus : decode .ctrl 0x1900000000000000#64 = .command .getStatus := by decide
theorem test_decode_clearStatus : decode .ctrl 0x1A00000000007F00#64 = .command (.clearStatus 0x7F#7) ∧
    decode .ctrl 0x1A00000000000100#64 = .command (.clearStatus 0x01#7) := by decide
theorem test_decode_prepare : decode .audio 0x20000200473B8000#64 = .command (.prepare 512 0x473B8000#32) := by decide
theorem test_decode_process : decode .audio 0x2102000100000000#64 = .command (.process 2 1) := by decide
theorem test_decode_reset : decode .audio 0x22FF000000000000#64 = .command (.reset .all) ∧
    decode .audio 0x2201000000000000#64 = .command (.reset (.channel 1)) := by decide
theorem test_decode_writeIn : decode .audio 0x230000053F800000#64 = .command (.writeIn 0 5 0x3F800000#32) := by decide
theorem test_decode_readOut : decode .audio 0x2401000300000000#64 = .command (.readOut 1 3) := by decide
theorem test_decode_readState : decode .audio 0x2500000300000000#64 = .command (.readState 0 1 .z2) ∧
    decode .audio 0x2500000200000000#64 = .command (.readState 0 1 .z1) := by decide
theorem test_decode_readCoef : decode .audio 0x2600000200000000#64 = .command (.readCoef 0 2) := by decide
theorem test_decode_analyze : decode .disp 0x3000000000000000#64 = .command .analyze := by decide
theorem test_decode_getSpectrum : decode .disp 0x3100000000000000#64 = .command .getSpectrum := by decide

theorem test_decode_reserved : decode .ctrl 0x0100000000000000#64 = .illegal (.reservedOpcode 0x01#8) ∧
    decode .ctrl 0x1B00000000000000#64 = .illegal (.reservedOpcode 0x1B#8) ∧
    decode .audio 0x2700000000000000#64 = .illegal (.reservedOpcode 0x27#8) ∧
    decode .disp 0x3200000000000000#64 = .illegal (.reservedOpcode 0x32#8) ∧
    decode .disp 0xF000000000000000#64 = .illegal (.reservedOpcode 0xF0#8) := by decide
theorem test_decode_wrong_port : decode .ctrl 0x2101000100000000#64 = .illegal (.wrongPort 0x21#8 .ctrl) ∧
    decode .audio 0x1500000000000000#64 = .illegal (.wrongPort 0x15#8 .audio) ∧
    decode .disp 0x1900000000000000#64 = .illegal (.wrongPort 0x19#8 .disp) := by decide
theorem test_encode_words : encode (.setBandFreq 3 0x447A0000#32) = 0x11030000447A0000#64 ∧
    encode (.clearStatus 0x7F#7) = 0x1A00000000007F00#64 ∧ encode (.readState 0 1 .z2) = 0x2500000300000000#64 ∧
    encode (.reset .all) = 0x22FF000000000000#64 ∧ encode (.setBandCount (-1)) = 0x18000000FFFFFFFF#64 := by decide
theorem test_decodeTableWord : decodeTableWord 64 0x20000200473B8000 = some (.prepare 512 0x473B8000#32) ∧
    decodeTableWord 64 0x0100000000000000 = none := by decide

/-! ## binary32 (IEEE 754, worked by hand) -/

theorem test_fadd_ties_to_even : fadd 0x3F800000#32 0x33800000#32 = 0x3F800000#32 ∧
    fadd 0x3F800001#32 0x33800000#32 = 0x3F800002#32 := by decide +kernel
theorem test_fadd_overflow : fadd 0x7F7FFFFF#32 0x73000000#32 = 0x7F800000#32 ∧
    fadd 0x7F7FFFFF#32 0x72FFFFFF#32 = 0x7F7FFFFF#32 := by decide +kernel
theorem test_fadd_zero_signs : fadd 0x80000000#32 0x80000000#32 = 0x80000000#32 ∧ fadd 0x80000000#32 0#32 = 0#32 ∧
    fsub 0x40490FDB#32 0x40490FDB#32 = 0#32 := by decide +kernel
theorem test_fmul_subnormal : fmul 0x00000001#32 0x3F000000#32 = 0#32 ∧ fmul 0x00000003#32 0x3F000000#32 = 0x00000002#32 ∧
    fmul 0x00800000#32 0xBF000000#32 = 0x80400000#32 := by decide +kernel
theorem test_fdiv : fdiv 0x3F800000#32 0x40400000#32 = 0x3EAAAAAB#32 ∧ fdiv 0xBF800000#32 0#32 = 0xFF800000#32 ∧
    fdiv 0x3F800000#32 0xFF800000#32 = 0x80000000#32 := by decide +kernel
theorem test_fsqrt : fsqrt 0x40000000#32 = 0x3FB504F3#32 ∧ fsqrt 0x80000000#32 = 0x80000000#32 ∧ fsqrt 0x40800000#32 = 0x40000000#32 ∧
    fsqrt 0x7F800000#32 = 0x7F800000#32 := by decide +kernel
theorem test_compare : flt 0x80000000#32 0#32 = false ∧ feq 0x80000000#32 0#32 = true ∧ flt 0xBF800000#32 0#32 = true ∧
    feq 0x7FC00000#32 0x7FC00000#32 = false ∧ fmin 0x7FC00000#32 0x3F800000#32 = 0x3F800000#32 ∧
    fmax 0x3F800000#32 0x7FC00000#32 = 0x7FC00000#32 := by decide

/-! ## Coefficients (spec/95 section 2): cos, sin and 10^x as the correctly rounded functions give them -/

theorem test_angle : angularFreq 0x447A0000#32 0x473B8000#32 = 0x3E060A92#32 ∧ ceilFreq 0x469C4000#32 0x46FA0000#32 = 0x4679C000#32 := by
  decide +kernel
theorem test_coef_lowPass : coefOf .lowPass 0x3F7DCF55#32 0x3E05A8A9#32 0x3F350481#32 0x3FB4CE08#32 =
    ⟨0x3B8052BB#32, 0x3C0052BB#32, 0x3B8052BB#32, 0xBFE85D0D#32, 0x3F54BCAF#32⟩ := by decide +kernel
theorem test_coef_highPass : coefOf .highPass 0x3F7DCF55#32 0x3E05A8A9#32 0x3F350481#32 0x3FB4CE08#32 =
    ⟨0x3F695DB2#32, 0xBFE95DB2#32, 0x3F695DB2#32, 0xBFE85D0D#32, 0x3F54BCAF#32⟩ := by decide +kernel
theorem test_coef_bandPass : coefOf .bandPass 0x3F7DCF55#32 0x3E05A8A9#32 0x3F350481#32 0x3FB4CE08#32 =
    ⟨0x3DAD0D43#32, 0x00000000#32, 0xBDAD0D43#32, 0xBFE85D0D#32, 0x3F54BCAF#32⟩ := by decide +kernel
theorem test_coef_notch : coefOf .notch 0x3F7DCF55#32 0x3E05A8A9#32 0x3F350481#32 0x3FB4CE08#32 =
    ⟨0x3F6A5E58#32, 0xBFE85D0D#32, 0x3F6A5E58#32, 0xBFE85D0D#32, 0x3F54BCAF#32⟩ := by decide +kernel
theorem test_coef_allPass : coefOf .allPass 0x3F7DCF55#32 0x3E05A8A9#32 0x3F350481#32 0x3FB4CE08#32 =
    ⟨0x3F54BCAF#32, 0xBFE85D0D#32, 0x3F800000#32, 0xBFE85D0D#32, 0x3F54BCAF#32⟩ := by decide +kernel
theorem test_coef_peak : coefOf .peak 0x3F7DCF55#32 0x3E05A8A9#32 0x3F350481#32 0x3FB4CE08#32 =
    ⟨0x3F87D042#32, 0xBFEE3E2B#32, 0x3F50F861#32, 0xBFEE3E2B#32, 0x3F6098E4#32⟩ := by decide +kernel
theorem test_coef_lowShelf : coefOf .lowShelf 0x3F7DCF55#32 0x3E05A8A9#32 0x3F350481#32 0x3FB4CE08#32 =
    ⟨0x3F842B04#32, 0xBFEB5FA0#32, 0x3F5428B5#32, 0xBFEC1720#32, 0x3F5B0FBE#32⟩ := by decide +kernel
theorem test_coef_highShelf : coefOf .highShelf 0x3F7DCF55#32 0x3E05A8A9#32 0x3F350481#32 0x3FB4CE08#32 =
    ⟨0x3FF756EB#32, 0xC0641A7A#32, 0x3FD3A691#32, 0xBFE3F36A#32, 0x3F4D77E9#32⟩ := by decide +kernel
theorem test_coef_nyquist : coefOf .lowPass 0xBF7FFFAD#32 0x3B4DE272#32 0x3F800000#32 0x3F800000#32 =
    ⟨0x3F7F990D#32, 0x3FFF990D#32, 0x3F7F990D#32, 0x3FFF98E4#32, 0x3F7F3270#32⟩ := by decide +kernel
theorem test_coef_ident : coefCalc .peak 0#32 0x447A0000#32 0x3F800000#32 0x40C00000#32 = Coef.ident ∧
    coefCalc .highPass 0x80000000#32 0x447A0000#32 0x3F800000#32 0#32 = Coef.ident ∧
    coefCalc .notch 0x7FC00000#32 0x447A0000#32 0x3F800000#32 0#32 = Coef.ident ∧
    coefCalc .notch 0x7F800000#32 0x447A0000#32 0x3F800000#32 0#32 = Coef.ident := by decide

/-! ## Biquad, flush, cascade, mix (spec/95 sections 3 to 5) -/

/-- The coefficients `(0.5, 0.25, 0.0, -0.5, 0.25)` of the example of R92. -/
def exampleCoef : Coef := ⟨0x3F000000#32, 0x3E800000#32, 0#32, 0xBF000000#32, 0x3E800000#32⟩

/-- LowPass at 12000 Hz, Q 1.0, 48000 Hz (spec/95 section 3.3). -/
def lowPass12k : Coef := ⟨0x3EAAAAAB#32, 0x3F2AAAAB#32, 0x3EAAAAAB#32, 0x337A5193#32, 0x3EAAAAAB#32⟩

theorem test_biquadStep : biquadStep exampleCoef ⟨0#32, 0#32⟩ 0x3F800000#32 = (0x3F000000#32, ⟨0x3F000000#32, 0xBE000000#32⟩) ∧
    biquadStep Coef.ident ⟨0#32, 0#32⟩ 0x80000000#32 = (0#32, ⟨0#32, 0#32⟩) := by decide +kernel
theorem test_biquadStep_infinite_z2 : biquadStep exampleCoef ⟨0#32, 0x7F800000#32⟩ 0x3F800000#32 =
    (0x3F000000#32, ⟨0x7F800000#32, 0xBE000000#32⟩) := by decide +kernel
theorem test_flush : flush 0x0D224260#32 = 0#32 ∧ flush 0x8C01CEB3#32 = 0#32 ∧ flush 0x0DA24260#32 = 0x0DA24260#32 ∧
    flush 0x0DA2425F#32 = 0#32 ∧ flush 0x00000001#32 = 0#32 ∧ flush 0x7FC00000#32 = 0x7FC00000#32 ∧
    flush 0x7F800000#32 = 0x7F800000#32 := by decide
theorem test_bandProcess_impulse :
    bandProcess lowPass12k ⟨0#32, 0#32⟩ [0x3F800000#32, 0#32, 0#32, 0#32, 0#32, 0#32] =
      ([0x3EAAAAAB#32, 0x3F2AAAAB#32, 0x3E638E36#32, 0xBE638E3B#32, 0xBD97B422#32, 0x3D97B429#32],
        ⟨0x3CCA4581#32, 0xBCCA458C#32⟩) := by decide +kernel
theorem test_bandProcess_example : bandProcess exampleCoef ⟨0#32, 0#32⟩ [0x3F800000#32, 0#32] =
    ([0x3F000000#32, 0x3F000000#32], ⟨0x3E000000#32, 0xBE000000#32⟩) := by decide +kernel
theorem test_chainProcess :
    (chainProcess (Vector.replicate 10 ⟨0x3F000000#32, 0#32, 0#32, 0#32, 0#32⟩) 0 (activeBands 2) [0x3F800000#32] []).1 = [0x3E800000#32] ∧
    (chainProcess (Vector.replicate 10 exampleCoef) 0 (activeBands 0) [0x80000000#32] []).1 = [0x80000000#32] := by decide +kernel
theorem test_bandCountUpdate_grows :
    let s := (tiny.withBands { tiny.bands with fs := fsSet (fsSet [] 2 1 ⟨1#32, 2#32⟩) 1 1 ⟨3#32, 4#32⟩, valid := Vector.replicate 10 true }).withE
      { tiny.E with activeCount := 2 }
    let t := bandCountUpdate (s.withS { s.S with bandCount := 4 })
    fsGet t.bands.fs 2 1 = ⟨0#32, 0#32⟩ ∧ fsGet t.bands.fs 1 1 = ⟨3#32, 4#32⟩ ∧ t.E.activeCount = 4 ∧
      t.bands.valid.toList = [true, true, false, false, true, true, true, true, true, true] := by decide +kernel
theorem test_linearGain : linearGain 0#32 = 0x3F800000#32 ∧ linearGain 0x80000000#32 = 0x3F800000#32 ∧
    linearGain 0x7F800000#32 = 0x7F800000#32 ∧ linearGain 0xFF800000#32 = 0#32 := by decide +kernel
theorem test_pow10_underflow : pow10Allowed 0x3F800000#32 0#32 = false ∧ pow10Allowed 0xC217B818#32 0#32 = false ∧
    pow10Allowed 0xC2C80000#32 0#32 = true ∧ pow10Allowed 0xC2C80000#32 0x80000000#32 = false ∧ pow10Allowed 0x3F800000#32 0x7F800000#32 = true := by
  decide
theorem test_mixSample : mixSample 0x3F800000#32 0x40400000#32 0x3F800000#32 0x3F000000#32 = 0x40000000#32 ∧
    mixSample 0x7F800000#32 0x80000000#32 0x3F800000#32 0#32 = 0x80000000#32 ∧
    mixSample 0x40000000#32 0x7FC00000#32 0x3F800000#32 0x3F800000#32 = 0x40000000#32 ∧
    mixSample 0x40000000#32 0x3F800000#32 0x3F004DCE#32 0x3F800000#32 = 0x3F804DCE#32 := by decide +kernel
theorem test_mixSample_least_normals : mixSample 0x00800001#32 0x00800001#32 0x3F800000#32 0x3F000000#32 = 0x00800000#32 ∧
    mixSample 0x00800003#32 0x00800003#32 0x3F800000#32 0x3F000000#32 = 0x00800004#32 ∧
    mixSample 0x01000001#32 0x01000001#32 0x3F800000#32 0x3F000000#32 = 0x01000001#32 := by decide +kernel
theorem test_mixSample_rounding : mixSample 0x3F800000#32 0#32 0x41200000#32 0x3E800000#32 = 0x40200000#32 ∧
    mixSample 0x00000001#32 0x00000001#32 0x3F800000#32 0x3F000000#32 = 0#32 ∧
    mixSample 0x3EAAAAAB#32 0x3F800000#32 0x41200000#32 0x3F000000#32 = 0x400AAAAB#32 := by decide +kernel

/-! ## Parameter and status commands (spec/95 section 6) -/

theorem test_nop : after [(.ctrl, 0x00FF123456789ABC#64)] tiny = some tiny := by decide +kernel
theorem test_setBandType : ctrl 0x1002000000000003#64 (·.type[2]) = some (.notch, 0#32) ∧
    ctrl 0x10000000FFFFFFFF#64 (·.type) = some (tiny.P.type, 0x100#32) := by decide +kernel
theorem test_setBandType_index : ctrl 0x100A000000000000#64 (·.type) = some (tiny.P.type, 0x100#32) := by decide +kernel
theorem test_setBandFreq : ctrl 0x1100000046C35000#64 (·.freq[0]) = some (0x469C4000#32, 0x100#32) ∧
    ctrl 0x1100000040A00000#64 (·.freq[0]) = some (0x41A00000#32, 0x100#32) := by decide +kernel
theorem test_setBandFreq_kept : ctrl 0x11030000447A0000#64 (·.freq[3]) = some (0x447A0000#32, 0#32) ∧
    ctrl 0x110000007FC00000#64 id = some (tiny.P, 0x100#32) := by decide +kernel
theorem test_setBandQ : ctrl 0x120100003D4CCCCD#64 (·.q[1]) = some (0x3DCCCCCD#32, 0x100#32) ∧
    ctrl 0x120100003DCCCCCD#64 (·.q[1]) = some (0x3DCCCCCD#32, 0#32) := by decide +kernel
theorem test_setBandGain : ctrl 0x13000000C1F00000#64 (·.gain[0]) = some (0xC1C00000#32, 0x100#32) ∧
    ctrl 0x1300000080000000#64 (·.gain[0]) = some (0x80000000#32, 0#32) := by decide +kernel
theorem test_setBandGain_index : ctrl 0x130A000040400000#64 id = some (tiny.P, 0x100#32) := by decide +kernel
theorem test_setGlobalGain : ctrl 0x140000007F800000#64 (·.globalGain) = some (0x7F800000#32, 0#32) ∧
    ctrl 0x140000007FC00000#64 id = some (tiny.P, 0x100#32) := by decide +kernel
theorem test_setMix : ctrl 0x150000003FC00000#64 (·.mix) = some (0x3F800000#32, 0x100#32) ∧
    ctrl 0x15000000BE800000#64 (·.mix) = some (0#32, 0x100#32) ∧ ctrl 0x1500000080000000#64 (·.mix) = some (0x80000000#32, 0#32) := by
  decide +kernel
theorem test_setBypass : ctrl 0x1600000000000001#64 (·.bypass) = some (true, 0#32) ∧
    ctrl 0x1600000000000002#64 (·.bypass) = some (false, 0#32) := by decide +kernel
theorem test_setAnalyzerEn : ctrl 0x1700000000000000#64 (·.analyzerEn) = some (false, 0#32) := by decide +kernel
theorem test_setBandCount : ctrl 0x180000000000000C#64 (·.bandCount) = some (10, 0x100#32) ∧
    ctrl 0x18000000FFFFFFFF#64 (·.bandCount) = some (0, 0x100#32) := by decide +kernel
theorem test_setBandCount_defaults :
    (after [(.ctrl, 0x11050000447A0000#64), (.ctrl, 0x1800000000000000#64), (.ctrl, 0x180000000000000A#64)] tiny).map
      (fun t => (t.P.freq[5], status t)) = some (0x44681456#32, 0#32) := by decide +kernel
theorem test_getStatus : answer .ctrl (after [(.ctrl, 0x150000003FC00000#64), (.ctrl, 0x1900000000000000#64)] tiny) =
    some ([0x100#32], 0x100#32) := by decide +kernel
theorem test_clearStatus : (after [(.ctrl, 0x1A00000000000100#64)] (tiny.withEv 0x2B#7)).map status = some 0x2A00#32 ∧
    (after [(.ctrl, 0x1A00000000000003#64)] (tiny.withE { tiny.E with prepared := true })).map status = some 1#32 := by decide +kernel

/-! ## Block commands (spec/95 section 7.1) -/

theorem test_prepare : (after [(.audio, 0x20000064473B8000#64)] tiny).map (fun t => (t.E.sr, t.E.maxBlk, status t)) =
      some (0x473B8000#32, 64, 0x101#32) ∧
    (after [(.audio, 0x20000000473B8000#64)] tiny).map (fun t => (t.E.maxBlk, status t)) = some (1, 0x101#32) := by decide +kernel
theorem test_prepare_rate : (after [(.audio, 0x20000040473B8000#64), (.audio, 0x20000040472C4400#64)] tiny).map status = some 0x401#32 ∧
    (after [(.audio, 0x200000407FC00000#64), (.audio, 0x200000407FC00000#64)] tiny).map status = some 0x101#32 := by decide +kernel
theorem test_process_rejected : (after [(.audio, 0x2103000100000000#64)] tiny).map status = some 0x1000#32 ∧
    (after [(.audio, 0x20000008473B8000#64), (.audio, 0x2101000900000000#64)] tiny).map status = some 0x1001#32 := by decide +kernel
theorem test_process_unprepared :
    (after [(.audio, 0x230000003E800000#64), (.audio, 0x2101000100000000#64)] tiny).map
      (fun t => (memRead t .out 0, memRead t .cap 0, status t)) = some (some 0x3E800000#32, some 0#32, 0x200#32) := by decide +kernel
theorem test_reset : (after [(.audio, 0x2202000000000000#64)] tiny).map status = some 0x100#32 ∧
    (after [(.audio, 0x2201000000000000#64)] (tiny.withBands { tiny.bands with fs := fsSet (fsSet [] 9 0 ⟨1#32, 2#32⟩) 9 1 ⟨3#32, 4#32⟩ })).map
      (fun t => (fsGet t.bands.fs 9 0, fsGet t.bands.fs 9 1)) = some (⟨1#32, 2#32⟩, ⟨0#32, 0#32⟩) := by decide +kernel
theorem test_writeIn : (after [(.audio, 0x230000053F800000#64)] tiny).map (fun t => (memRead t .inp 5, status t)) =
      some (some 0x3F800000#32, 0#32) ∧
    (after [(.audio, 0x230000403F800000#64)] tiny).map (fun t => (t.mem.inp, status t)) = some ([], 0x100#32) := by decide +kernel
theorem test_readOut : answer .audio (after [(.audio, 0x2400004000000000#64)] tiny) = some ([0#32], 0x100#32) ∧
    faultOf (runWord .audio 0x2400000000000000#64 tiny) = some (.unwrittenOut 0 0) := by decide +kernel
theorem test_readState : answer .audio (after [(.audio, 0x250A000000000000#64)] tiny) = some ([0#32], 0x100#32) ∧
    answer .audio (after [(.audio, 0x2500000300000000#64)] (tiny.withBands { tiny.bands with fs := fsSet [] 0 1 ⟨7#32, 8#32⟩ })) =
      some ([8#32], 0#32) := by decide +kernel
theorem test_readCoef : answer .audio (after [(.audio, 0x2600000000000000#64)] tiny) = some ([0x3F800000#32], 0#32) ∧
    answer .audio (after [(.audio, 0x2600000500000000#64)] tiny) = some ([0#32], 0x100#32) := by decide +kernel

/-! ## The steps of an accepted block (programs P1 and P2 of spec/95 section 9) -/

/-- Three samples `1.0, 0, 0` in channel 0, one active Fresh LowPass band at 12000 Hz, and the block prepared. -/
def fed : State :=
  let s := memWriteRow .inp 0 [0x3F800000#32, 0#32, 0#32] tiny
  let key : BandKey := ⟨.lowPass, 0x463B8000#32, 0x3F800000#32, 0#32, 0x473B8000#32⟩
  let P : Params := { s.P with type := s.P.type.set 0 .lowPass, freq := s.P.freq.set 0 0x463B8000#32, bandCount := 1 }
  { s with P := P, S := P, E := { s.E with prepared := true, sr := 0x473B8000#32, maxBlk := 8, activeCount := 1 },
           bands := { s.bands with coef := s.bands.coef.set 0 lowPass12k, valid := s.bands.valid.set 0 true,
                                   used := s.bands.used.set 0 key } }

theorem test_process_first_step : (nextOf (exec (.process 1 3) (fed.withEnv { fed.env with picks := [41] }))).map
    (fun t => (t.S.mix, t.job.map (fun j => (j.numCh, j.numSamples)), t.env.picks)) = some (0x3F800000#32, some (1, 3), []) := by decide +kernel
theorem test_compute_filters : (nextOf (computeStep 1 3 fed)).map
    (fun t => (t.mem.out.map (·.2), fsGet t.bands.fs 0 0, t.job)) =
      some ([0x3EAAAAAB#32, 0x3F2AAAAB#32, 0x3E638E36#32], ⟨0xBE638E3B#32, 0xBD97B424#32⟩, some ⟨1, 3, .capture 0⟩) := by decide +kernel
theorem test_compute_bypassed : (nextOf (computeStep 1 1 (memWrite .inp 0 0x7FC00001#32 (fed.withS { fed.S with bypass := true })))).map
    (fun t => (memRead t .out 0, decide (t.bands = fed.bands))) = some (some 0x7FC00001#32, true) := by decide +kernel
theorem test_compute_unfed : faultOf (computeStep 2 1 fed) = some (.unwrittenIn 1 0) := by decide +kernel

/-! ## Analyzer and display (spec/95 sections 7.2, 7.3) -/

theorem test_capture_wraps : let t := captureStep 11#32 (captureStep 10#32 (tiny.withE { tiny.E with wp := 3 }))
    (memRead t .cap 3, memRead t .cap 0, t.E.wp) = (some 10#32, some 11#32, 1) := by decide +kernel
theorem test_copyWindow : copyWindow ((tiny.withMem { tiny.mem with cap := [(0, 2#32), (1, 3#32), (2, 4#32), (3, 1#32)] }).withE
    { tiny.E with wp := 3 }) = [1#32, 2#32, 3#32, 4#32] := by decide +kernel
theorem test_analyze : answer .disp (after [(.disp, 0x3000000000000000#64), (.disp, 0x3100000000000000#64)]
    (tiny.withEnv { tiny.env with drops := [false] })) = some ([1#32, 1#32, 0xC2C80000#32, 0xC2C80000#32], 2#32) := by decide +kernel
theorem test_analyze_dropped : (after [(.disp, 0x3000000000000000#64)] (tiny.withEnv { tiny.env with drops := [true] })).map
    (fun t => (status t, t.E.snapSeq)) = some (0x4000#32, 0#32) ∧
    (after [(.disp, 0x3000000000000000#64)] (tiny.withP { tiny.P with analyzerEn := false })).map status = some 0#32 := by decide +kernel
theorem test_getSpectrum : answer .disp (after [(.disp, 0x3100000000000000#64)] tiny) = some ([0#32], 0x800#32) := by decide +kernel
theorem test_publish_wraps : (publish [1#32, 2#32] (tiny.withE { tiny.E with snapSeq := 0xFFFFFFFF#32 })).E.snapSeq = 0#32 := by
  decide +kernel

/-! ## Illegal words and the schedule (spec/95 section 8, R31, R43) -/

theorem test_illegal : (after [(.ctrl, 0x2101000100000000#64)] tiny) = some (tiny.withEv 0x20#7) ∧
    (after [(.disp, 0xF000000000000000#64)] tiny) = some (tiny.withEv 0x20#7) := by decide +kernel
theorem test_withFetchWord : (nextOf (step (State.reset.withFetchWord 64 0x150000003F000000))).map (·.P.mix) = some 0x3F000000#32 ∧
    (nextOf (step (State.reset.withFetchWord 64 0x2101100100000000))).map status = some 0x1000#32 := by decide +kernel
theorem test_submit : (nextOf (step ((tiny.setStream .disp [4#64]).withEnv { tiny.env with agenda := [.submit .disp 5#64] }))).map
    (·.ports.disp.stream) = some [4#64, 5#64] := by decide +kernel
theorem test_drain : (nextOf (step ((tiny.setResp .ctrl [1#32, 2#32]).withEnv { tiny.env with agenda := [.drain .ctrl 1] }))).map
    (·.ports.ctrl.resp) = some [2#32] := by decide +kernel

/-! ## Assembler (R63 to R67) -/

theorem test_assemble_example : assemble "SET_BAND_FREQ b3, 1000.0" = some 0x11030000447A0000#64 := by decide +kernel
theorem test_assemble_words : assemble "WRITE_IN ch0, 5, 1.0" = some 0x230000053F800000#64 ∧
    assemble "SET_BAND_COUNT -1" = some 0x18000000FFFFFFFF#64 ∧ assemble "READ_STATE b0, ch1, z2" = some 0x2500000300000000#64 ∧
    assemble "PREPARE 48000.0, 512" = some 0x20000200473B8000#64 ∧ assemble "RESET all" = some 0x22FF000000000000#64 ∧
    assemble "SET_BAND_Q b1, 0.05" = some 0x120100003D4CCCCD#64 ∧ assemble "CLEAR_STATUS 0x7F00" = some 0x1A00000000007F00#64 := by
  decide +kernel
theorem test_assemble_spaces : assemble "SET_MIX 1 0" = none ∧ assemble "  SET_BAND_FREQ  b3 ,0x447a0000 " = some 0x11030000447A0000#64 ∧
    assemble "SET_MIX 0x00003F800" = none := by decide +kernel
theorem test_pseudo : pseudoHostProcess 1 1 (fun _ _ => 0x3E800000#32) = [.writeIn 0 0 0x3E800000#32, .process 1 1, .readOut 0 0] ∧
    pseudoSetBand 2 .notch 1#32 2#32 3#32 = [.setBandType 2 3, .setBandFreq 2 1#32, .setBandQ 2 2#32, .setBandGain 2 3#32] := by
  decide +kernel


/-! ## Witnesses: for each statement with hypotheses, a concrete state and operands that meet them all, clause by clause -/

theorem next_of_isSome {o : Host.Outcome State Fault Refusal} (h : (nextOf o).isSome = true) : ∃ t, o = .next t := by
  cases o with
  | next t => exact ⟨t, rfl⟩
  | fault r => cases h
  | refused r => cases h

/-- `fed` with one word on a port's stream and that port's turn. -/
def turnOf (p : Port) (w : Command) (s : State) : State :=
  (s.setStream p [w]).withEnv { s.env with agenda := [.turn p] }

/-! Encoding. -/

theorem witness_DecodeOfEncodeIsTheCommand :
    ((Instr.reset (.channel 254)).wf = true ∧ legalOn .audio (opcodeOf (.reset (.channel 254))) = true) ∧
    ((Instr.nop).wf = true ∧ legalOn .disp (opcodeOf .nop) = true) := by decide
theorem witness_EncodeOfDecodeKeepsTheUsedBits : decode .audio 0x25FFFFFF12345678#64 = .command (.readState 255 32767 .z2) := by decide
theorem witness_IgnoredBitsDoNotChangeTheCommand : opField 0x1600000000000003#64 = opField 0x16FFFFFFFFFFFFFF#64 ∧
    0x1600000000000003#64 &&& usedBits (opField 0x1600000000000003#64) = 0x16FFFFFFFFFFFFFF#64 &&& usedBits (opField 0x1600000000000003#64) := by
  decide

/-! Steps. -/

theorem witness_StepExecutesTheDecodedCommand : let s := turnOf .audio 0x2101000300000000#64 fed
    s.env.agenda = .turn .audio :: [] ∧ (s.ports.get .audio).stream = 0x2101000300000000#64 :: [] ∧ (Port.audio = .audio → s.job = none) ∧
    decode .audio 0x2101000300000000#64 = .command (.process 1 3) ∧
    (s.ports.get .audio).resp.length + respCount (.process 1 3) s ≤ s.dims.respDepth := by decide +kernel
theorem witness_StepOfTheOnlyReadyPort : (tiny.env.agenda = [] ∧ readyPorts tiny = []) ∧
    ((tiny.setStream .disp [0#64]).env.agenda = [] ∧ readyPorts (tiny.setStream .disp [0#64]) = [.disp]) ∧
    (let s := (tiny.setStream .disp [0#64]).setStream .ctrl [0#64]; s.env.agenda = [] ∧ 2 ≤ (readyPorts s).length) ∧
    (turnOf .audio 0#64 tiny).env.agenda = .turn .audio :: [] ∧
    (tiny.withEnv { tiny.env with agenda := [.submit .disp 5#64] }).env.agenda = .submit .disp 5#64 :: [] ∧
    (tiny.withEnv { tiny.env with agenda := [.drain .ctrl 1] }).env.agenda = .drain .ctrl 1 :: [] := by decide +kernel
theorem witness_IllegalWordOnlyRaisesCondition6 : let s := turnOf .disp 0x3200000000000000#64 tiny
    s.env.agenda = .turn .disp :: [] ∧ (s.ports.get .disp).stream = 0x3200000000000000#64 :: [] ∧ (Port.disp = .audio → s.job = none) ∧
    opField 0x3200000000000000#64 ∉ legalOpcodes .disp ∧ (s.ports.get .disp).resp.length ≤ s.dims.respDepth := by decide +kernel
theorem witness_FullFifoHoldsTheCommand : let s := turnOf .ctrl 0x1900000000000000#64 (tiny.setResp .ctrl [0#32, 0#32, 0#32, 0#32])
    s.env.agenda = .turn .ctrl :: [] ∧ (s.ports.get .ctrl).stream = 0x1900000000000000#64 :: [] ∧ (Port.ctrl = .audio → s.job = none) ∧
    decode .ctrl 0x1900000000000000#64 = .command .getStatus ∧
    s.dims.respDepth < (s.ports.get .ctrl).resp.length + respCount .getStatus s := by decide +kernel
theorem witness_CommandsAppendTheirResponses : ∃ t, exec .getSpectrum tiny = .next t := next_of_isSome (by decide +kernel)

/-! Arithmetic: the largest finite value, the least subnormal, zeros. -/

theorem witness_AddAndSubRoundTheExactResult : (fIsFinite 0x7F7FFFFF#32 = true ∧ fIsFinite 0x80000000#32 = true) ∧
    (fUnits 0x7F7FFFFF#32 + fUnits 0xFF7FFFFF#32 = 0 ∧ fUnits 0x80000000#32 - fUnits 0x00000000#32 = 0) ∧
    (fIsNaN 0x7F800000#32 = false ∧ 0x7F800000#32 ≠ fneg posInf ∧ 0xFF800000#32 ≠ posInf) := by decide +kernel
theorem witness_MulRoundsTheExactProduct : (fIsFinite 0x7F7FFFFF#32 = true ∧ fIsFinite 0x00000001#32 = true) ∧
    (fIsInf 0xFF800000#32 = true ∧ fIsNaN 0xFF800000#32 = false ∧ fIsNaN 0x00000001#32 = false ∧ fIsZero 0xFF800000#32 = false ∧
      fIsZero 0x00000001#32 = false) := by decide
theorem witness_DivRoundsTheExactQuotient : (fIsFinite 0x7F7FFFFF#32 = true ∧ fIsFinite 0x80000001#32 = true ∧ fIsZero 0x80000001#32 = false) ∧
    (fIsFinite 0x00000001#32 = true ∧ fIsZero 0x00000001#32 = false ∧ fIsZero 0x80000000#32 = true) ∧
    (fIsInf 0xFF800000#32 = true ∧ fIsFinite 0x80000000#32 = true) := by decide
theorem witness_SqrtIsTheNearestValue : fIsFinite 0x00000001#32 = true ∧ fSign 0x00000001#32 = false ∧ fIsZero 0x00000001#32 = false ∧
    fIsFinite 0xFF7FFFFF#32 = true := by decide
theorem witness_NaNResultsAreTheInvalidOperations : fsqrt 0xBF800000#32 = fsqrt 0xBF800000#32 ∧ fIsNaN (fsqrt 0xBF800000#32) = true := by
  refine ⟨rfl, ?_⟩
  have h : fSqrtCore 0xBF800000#32 = none := by decide
  unfold fsqrt
  rw [h]
  exact (isQuietNaN_or _).1
theorem witness_ComparisonsFollowTheNumbers : (fIsFinite 0x00000000#32 = true ∧ fIsFinite 0x80000000#32 = true) ∧
    fIsNaN 0x7F800001#32 = true ∧ fIsFinite 0x7F7FFFFF#32 = true ∧ 31 < 32 := by decide

/-! Coefficients. -/

theorem witness_BadSampleRateGivesIdent : flt posZero 0x80000000#32 = false ∧ flt posZero 0x7FC00000#32 = false ∧
    0x7F800000#32 = posInf := by decide +kernel
theorem witness_CookbookFormsOfTheEightTypes : (flt posZero 0x473B8000#32 = true ∧ 0x473B8000#32 ≠ posInf) ∧
    (flt posZero 0x00000001#32 = true ∧ 0x00000001#32 ≠ posInf) := by decide +kernel

theorem sin32_between (x : F32) (h : fIsFinite x = true) (h0 : fle posZero x = true) (h1 : fle x pi32 = true) :
    fle posZero (sin32 x) = true ∧ fle (sin32 x) fOne = true := by
  simp only [sin32, h, h0, h1, Bool.and_self, Bool.not_true, Bool.false_or, Bool.true_and, inUnit]
  split
  · decide +kernel
  · next hv =>
    simp only [Bool.not_eq_true', Bool.not_eq_false, Bool.and_eq_true] at hv
    exact ⟨hv.2, hv.1.2⟩

theorem finite_nonneg (r : F32) (R : Nat) (hlt : R < 0x7F800000) (h : r.toNat = R ∨ r.toNat = 2147483648) :
    fIsFinite r = true ∧ fle posZero r = true := by
  have hf : fIsFinite r = true := by
    rw [fIsFinite_iff]
    rcases h with h | h <;> omega
  have ho : 0 ≤ fOrd r := by
    rw [fOrd_eq]
    rcases h with h | h <;> rw [h]
    · rw [if_neg (by omega)]
      omega
    · simp only [le_refl, if_true, Nat.mod_self, Nat.cast_zero, neg_zero]
  refine ⟨hf, ?_⟩
  unfold fle
  rw [(notNaN_notInf_of_finite hf).1, show fIsNaN posZero = false by decide +kernel, show fOrd posZero = 0 by decide]
  simpa using ho

theorem fRound_nonneg (neg : Bool) (n d : Nat) (hlt : roundMag n d < 0x7F800000) (h : neg = true → roundMag n d = 0) :
    fIsFinite (fRound neg n d) = true ∧ fle posZero (fRound neg n d) = true := by
  refine finite_nonneg _ (roundMag n d) hlt ?_
  rw [fRound_toNat]
  cases neg
  · left; rw [if_neg (by decide +kernel)]; exact Nat.add_zero _
  · right; rw [h rfl, if_pos rfl, Nat.zero_add]

theorem magOf_le_one (m : Nat) (hm : m ≤ 0x3F800000) : magOf m ≤ 2 ^ 149 := by
  have h2 : magOf 0x3F800000 = 2 ^ 149 := by decide +kernel
  rw [← h2]
  rcases Nat.lt_or_eq_of_le hm with h | h
  · exact le_of_lt (magOf_mono h)
  · exact le_of_eq (congrArg _ h)

theorem half_below_overflow (x : Nat) (h : x ≤ 2 ^ 149) : x * 2 ^ 149 < 33554431 * 2 ^ 252 * 2 ^ 150 :=
  calc x * 2 ^ 149 ≤ 2 ^ 149 * 2 ^ 149 := Nat.mul_le_mul_right _ h
    _ < 33554431 * 2 ^ 252 * 2 ^ 150 := by norm_num

theorem half_of_zero : roundMag (magOf 0 * 2 ^ 149) (2 ^ 150) = 0 := by decide +kernel

theorem half_between (v : F32) (h0 : fle posZero v = true) (h1 : fle v fOne = true) :
    fIsFinite (fdiv v fTwo) = true ∧ fle posZero (fdiv v fTwo) = true := by
  have hn : fIsNaN v = false := by
    unfold fle at h1
    cases h : fIsNaN v <;> simp [h] at h1 ⊢
  have o0 : 0 ≤ fOrd v := by
    simp only [fle, Bool.and_eq_true, decide_eq_true_eq] at h0
    have : fOrd posZero = 0 := by decide +kernel
    omega
  have o1 : fOrd v ≤ 0x3F800000 := by
    simp only [fle, Bool.and_eq_true, decide_eq_true_eq] at h1
    have : fOrd fOne = 0x3F800000 := by decide +kernel
    omega
  rw [fOrd_eq] at o0 o1
  have hm : v.toNat % 2147483648 ≤ 0x3F800000 := by split at o0 <;> omega
  have hi : fIsInf v = false := by
    cases h : fIsInf v
    · rfl
    · rw [fIsInf_iff] at h
      omega
  have hd : fdiv v fTwo = fRound (fSign v) (fMagUnits v * 2 ^ 149) (fMagUnits fTwo) := by
    unfold fdiv fDivCore
    simp [hn, hi, show fIsNaN fTwo = false by decide +kernel, show fIsInf fTwo = false by decide +kernel, show fIsZero fTwo = false by decide +kernel,
      show fSign fTwo = false by decide]
  have ht : fMagUnits fTwo = 2 ^ 150 := by decide +kernel
  have hb : fMagUnits v ≤ 2 ^ 149 := fMagUnits_eq v ▸ magOf_le_one _ hm
  have hr := (roundMag_spec (fMagUnits v * 2 ^ 149) (2 ^ 150) (by positivity)).2 (half_below_overflow _ hb)
  have hz : fSign v = true → roundMag (fMagUnits v * 2 ^ 149) (2 ^ 150) = 0 := by
    intro hs
    rw [fSign_eq, decide_eq_true_eq] at hs
    have hz : v.toNat % 2147483648 = 0 := by
      rw [if_pos hs] at o0
      omega
    rw [fMagUnits_eq, hz, half_of_zero]
  rw [hd, ht]
  exact fRound_nonneg _ _ _ hr.1 hz

theorem witness_PeakAtZeroDecibelsIsFlat : let sr := 0x473B8000#32; let f := 0x447A0000#32; let q := 0x3F800000#32
    validRate sr = true ∧ fIsZero 0x80000000#32 = true ∧ fIsFinite (alphaOf (sin32 (angularFreq f sr)) q) = true ∧
    fle posZero (alphaOf (sin32 (angularFreq f sr)) q) = true := by
  have hw : angularFreq 0x447A0000#32 0x473B8000#32 = 0x3E060A92#32 := test_angle.1
  have hs := sin32_between 0x3E060A92#32 (by decide +kernel) (by decide +kernel) (by decide +kernel)
  have ha : ∀ v, alphaOf v 0x3F800000#32 = fdiv v fTwo := by
    intro v
    have : fmul fTwo (fmax 0x3F800000#32 qCalcMin) = fTwo := by decide +kernel
    rw [alphaOf, this]
  simp only [hw, ha]
  exact ⟨by decide +kernel, by decide +kernel, half_between _ hs.1 hs.2⟩

theorem witness_ConfigurationFunctionsKeepTheirProperties : (fIsFinite 0x40490FDB#32 = true ∧ inRange 0x40490FDB#32 posZero 0x40490FDB#32 = true) ∧
    flt 0xFF800000#32 posZero = true ∧ (∀ x ∈ [negZero, posZero, posZero, negZero], fIsZero x = true) ∧
    (∀ x ∈ [fOne, posZero, 0x7F7FFFFF#32, 0x00000001#32], fIsFinite x = true) :=
  ⟨by decide +kernel, by decide +kernel, List.all_eq_true.1 (by decide +kernel), List.all_eq_true.1 (by decide +kernel)⟩

/-! Bands, cascade, mix. -/

theorem witness_FlushZeroesOnlyTinyValues : (fIsFinite 0x8DA2425F#32 = true ∧ |fUnits 0x8DA2425F#32| < fUnits 0x0DA24260#32) ∧
    fUnits 0x0DA24260#32 ≤ |fUnits 0x0DA24260#32| ∧ fIsFinite 0x7FC00000#32 = false := by decide +kernel
theorem witness_BandMajorEqualsSampleMajor : (activeBands 10).Nodup := activeBands_nodup 10
theorem witness_ChannelsAreIndependent : 255 < 256 ∧ (∀ i : Fin 10, fsGet (fsSet [] 9 254 ⟨1#32, 2#32⟩) i 255 = fsGet [] i 255) ∧
    254 < 256 ∧ 254 ≠ 255 := by decide +kernel
theorem witness_FlatBandIsTheIdentity : ∀ x ∈ [fOne, negZero, 0x00000001#32], fIsFinite x = true ∧
    fIsFinite (fmul 0xBFEC9B8C#32 x) = true ∧ fIsFinite (fmul 0x3F5E0F25#32 x) = true := by
  simp only [List.forall_mem_cons, List.not_mem_nil, false_imp_iff, implies_true, and_true]
  decide +kernel
theorem witness_BandCountUpdateZeroesGrownSlots : let s := (tiny.withE { tiny.E with activeCount := 2 }).withS { tiny.S with bandCount := 4 }
    (255 < 256 ∧ s.E.activeCount.val ≤ 2 ∧ 3 < s.S.bandCount.val) ∧ ¬(s.E.activeCount.val ≤ 1 ∧ 1 < s.S.bandCount.val) ∧
    ¬(s.E.activeCount.val ≤ 4 ∧ 4 < s.S.bandCount.val) := by decide +kernel
theorem witness_UpdateRecomputesExactlyTheStaleBands : (0 < fed.E.activeCount.val ∧ fed.bands.valid[0] = true ∧ fed.bands.used[0] = bandKey fed 0) ∧
    fed.E.activeCount.val ≤ 1 := by decide +kernel
theorem witness_MixEndpointsAndFormula : feq 0x3F000000#32 posZero = false ∧ feq 0x3F000000#32 fOne = false := by decide +kernel

/-! Parameter commands. -/

theorem witness_SetBandTypeStoresAValidCode : (9 < 10 ∧ filterCode .highShelf = 7) ∧ 10 ≤ 10 ∧ 8 ≤ 8 := by decide +kernel
theorem witness_BandWritesClampAndStore : (9 < 10 ∧ fIsNaN 0x7F800000#32 = false) ∧ 10 ≤ 10 ∧ fIsNaN 0x7F800001#32 = true := by decide +kernel
theorem witness_GlobalGainAndMixWrites : fIsNaN 0xFF800000#32 = false ∧ fIsNaN 0xFF800001#32 = true := by decide +kernel
theorem witness_SetBandCountStagesTheCount : (nextOf (exec (.setBandCount 3) (tiny.withP { tiny.P with bandCount := 1 }))).map
    (fun t => decide ((1 ≤ 2 ∧ 2 < t.P.bandCount.val) ∧ ¬(1 ≤ 0 ∧ 0 < t.P.bandCount.val) ∧ ¬(1 ≤ 3 ∧ 3 < t.P.bandCount.val))) = some true := by
  decide +kernel
theorem witness_StatusIsReadAndCleared : 31 < 32 ∧ 8 ≤ 14 ∧ 14 ≤ 14 ∧ 6 < 7 := by decide +kernel

/-! Block commands. -/

theorem witness_PrepareStartsTheStream : tiny.dims.wf := by decide +kernel
theorem witness_OversizeBlockIsRejected : fed.dims.maxChannels < 3 ∧ fed.dims.maxBlockCap < 65 ∧ (fed.E.prepared = true ∧ fed.E.maxBlk < 9) := by
  decide +kernel
theorem witness_UnpreparedBlockPassesThrough : let s := memWriteRow .inp 0 [fOne, fOne] tiny
    s.dims.wf ∧ 1 ≤ s.dims.maxChannels ∧ 2 ≤ s.dims.maxBlockCap ∧ s.E.prepared = false ∧ blockFed s 1 2 :=
  ⟨by decide +kernel, by decide +kernel, by decide +kernel, rfl, firstUnwritten_eq_none.1 (by decide +kernel)⟩
theorem witness_SnapshotStepsCopyOneFieldEach : blockAccepted fed 2 8 ∧ [PField.mix, .freq 9] ≠ [] ∧ PField.freq 9 ∈ [PField.mix, .freq 9] := by
  unfold blockAccepted; decide +kernel
theorem witness_ComputeStepWritesTheMixedBlock : fed.dims.wf ∧ 1 ≤ fed.dims.maxChannels ∧ 3 ≤ fed.dims.maxBlockCap ∧ blockFed fed 1 3 ∧
    fed.S.bypass = false ∧ (0 < 1 ∧ 2 < 3) ∧ (1 ≤ 255 ∧ 255 < 256) :=
  ⟨by decide +kernel, by decide +kernel, by decide +kernel, firstUnwritten_eq_none.1 (by decide +kernel), rfl, by decide +kernel, by decide +kernel⟩
theorem witness_ComputeStepAdvancesTheFilterState : fed.dims.wf ∧ 1 ≤ fed.dims.maxChannels ∧ 3 ≤ fed.dims.maxBlockCap ∧ blockFed fed 1 3 ∧
    fed.S.bypass = false ∧ 0 < 1 ∧ fed.S.bandCount.val ≤ 1 :=
  ⟨by decide +kernel, by decide +kernel, by decide +kernel, firstUnwritten_eq_none.1 (by decide +kernel), rfl, by decide +kernel, by decide +kernel⟩
theorem witness_BypassedBlockCopiesAndKeepsState : let s := fed.withS { fed.S with bypass := true }
    s.dims.wf ∧ 1 ≤ s.dims.maxChannels ∧ 3 ≤ s.dims.maxBlockCap ∧ blockFed s 1 3 ∧ s.S.bypass = true ∧ 0 < s.E.activeCount.val :=
  ⟨by decide +kernel, by decide +kernel, by decide +kernel, firstUnwritten_eq_none.1 (by decide +kernel), rfl, by decide +kernel⟩
theorem witness_UnwrittenInputStopsTheBlock : 0 < 2 ∧ 3 < 4 ∧ memRead fed .inp (sampleIx 0 3) = none ∧
    (∀ d < 2, ∀ j < 4, d < 0 ∨ (d = 0 ∧ j < 3) → (memRead fed .inp (sampleIx d j)).isSome = true) ∧
    2 ≤ fed.dims.maxChannels ∧ 4 ≤ fed.dims.maxBlockCap ∧ (fed.withE { fed.E with prepared := false }).E.prepared = false := by decide +kernel
theorem witness_BlockRunsToItsEnd :
    let s := (fed.setStream .audio [0x2101000300000000#64]).withEnv { fed.env with agenda := List.replicate (45 + 1 + 3) (.turn .audio) ++ [] }
    s.dims.wf ∧ blockAccepted s 1 3 ∧ blockFed s 1 3 ∧ s.job = none ∧ s.ports.audio.stream = 0x2101000300000000#64 :: [] ∧
    decode .audio 0x2101000300000000#64 = .command (.process 1 3) ∧ s.ports.audio.resp.length ≤ s.dims.respDepth ∧
    s.env.agenda = List.replicate (45 + 1 + if s.P.analyzerEn = true ∧ 1 ≤ 1 then 3 else 0) (.turn .audio) ++ [] :=
  ⟨by decide +kernel, by unfold blockAccepted; decide +kernel, firstUnwritten_eq_none.1 (by decide +kernel), rfl, rfl, by decide +kernel, by decide +kernel, rfl⟩
theorem witness_BlockIgnoresLaterParameterWrites : (∃ t, blockStep ⟨1, 3, .snapshot []⟩ fed = .next t) ∧
    ∃ t, blockStep ⟨1, 3, .capture 0⟩ (memWriteRow .out 0 [fOne, fOne, fOne] fed) = .next t :=
  ⟨next_of_isSome (by decide +kernel), next_of_isSome (by decide +kernel)⟩
theorem witness_ResetZeroesTheSelectedChannels : (1 < tiny.dims.maxChannels ∧ 1 < 256) ∧ tiny.dims.maxChannels ≤ 2 := by decide +kernel
theorem witness_WriteInStoresOneWord : (1 < tiny.dims.maxChannels ∧ 63 < tiny.dims.maxBlockCap) ∧ tiny.dims.maxChannels ≤ 2 ∧
    tiny.dims.maxBlockCap ≤ 64 := by decide +kernel
theorem witness_ReadOutAnswersTheWord : (1 < tiny.dims.maxChannels ∧ 63 < tiny.dims.maxBlockCap ∧
      memRead (memWrite .out (sampleIx 1 63) fOne tiny) .out (sampleIx 1 63) = some fOne ∧ memRead tiny .out (sampleIx 1 63) = none) ∧
    tiny.dims.maxChannels ≤ 2 ∧ tiny.dims.maxBlockCap ≤ 64 := by decide +kernel
theorem witness_DebugReadsAnswerTheRegister : (9 < 10 ∧ 1 < tiny.dims.maxChannels ∧ 4 < 5) ∧ 10 ≤ 10 ∧ tiny.dims.maxChannels ≤ 2 ∧ 5 ≤ 5 := by
  decide +kernel

/-! Analyzer and display. -/

theorem witness_WindowIsTheNewestSamples : memRead (memWriteRow .out 0 [fOne, fTwo] fed) .out (sampleIx 0 1) = some fTwo ∧
    memRead fed .out (sampleIx 0 0) = none ∧ 0 < tiny.dims.window ∧ (tiny.withE { tiny.E with wp := 3 }).E.wp < tiny.dims.window := by decide +kernel
theorem witness_AnalyzePublishesUnlessDropped : (tiny.withP { tiny.P with analyzerEn := false }).P.analyzerEn = false ∧
    tiny.P.analyzerEn = true ∧ nextDrop (tiny.withEnv { tiny.env with drops := [true] }) = true ∧
    nextDrop (tiny.withEnv { tiny.env with drops := [false] }) = false ∧ 1 < tiny.dims.window / 2 := by decide +kernel
theorem witness_GetSpectrumAnswersTheSnapshot : tiny.E.snapValid = false ∧ (publish [1#32, 2#32] tiny).E.snapValid = true ∧
    1 < tiny.dims.window / 2 ∧ memRead (publish [1#32, 2#32] tiny) .spec 1 = some 2#32 := by decide +kernel
theorem refMag_ne_zero : refMag [fOne, fOne, fOne, fOne] 0 ≠ 0 := by
  have h : dftBin [fOne, fOne, fOne, fOne] 0 = ((3 / 2 : ℝ) : ℂ) := by
    obtain ⟨h0, h1, h2, h3⟩ := hann_four
    simp [dftBin, Finset.sum_range_succ, h0, h1, h2, h3, fReal_fOne]
    norm_num
  rw [refMag, h, Complex.norm_real]
  norm_num

theorem witness_ReferenceSpectrumOfSilenceIsTheFloor : refMag [fOne, fOne, fOne, fOne] 0 ≠ 0 ∧ ∀ x ∈ [posZero, negZero, posZero, posZero], fIsZero x = true :=
  ⟨refMag_ne_zero, List.all_eq_true.1 (by decide +kernel)⟩

/-! Rules of the whole machine, invariants. -/

theorem witness_PortsChangeOnlyTheirOwnState : (∃ t, portStep .ctrl (tiny.setStream .ctrl [0x1900000000000000#64]) = .next t) ∧
    (∃ t, portStep .audio (fed.setStream .audio [0x2101000300000000#64]) = .next t) ∧
    (∃ t, portStep .disp (tiny.setStream .disp [0x3000000000000000#64]) = .next t) :=
  ⟨next_of_isSome (by decide +kernel), next_of_isSome (by decide +kernel), next_of_isSome (by decide +kernel)⟩
theorem witness_OnlyClearStatusClearsConditions : let s := (tiny.setStream .ctrl [0x1900000000000000#64]).withEv 0x40#7
    (∃ t, portStep .ctrl s = .next t) ∧ (∀ mask, nextCommand .ctrl s ≠ some (.clearStatus mask)) ∧ s.ev.getLsbD 6 = true :=
  ⟨next_of_isSome (by decide +kernel), by decide +kernel, by decide +kernel⟩
theorem witness_PreparedIsNeverCleared : let s := fed.setStream .audio [0x2101000300000000#64]
    (∃ t, portStep .audio s = .next t) ∧ s.E.prepared = true ∧ ∀ mb sr, nextCommand .audio s ≠ some (.prepare mb sr) := by
  refine ⟨next_of_isSome (by decide +kernel), rfl, fun mb sr => ?_⟩
  have h : nextCommand .audio (fed.setStream .audio [0x2101000300000000#64]) = some (.process 1 3) := by decide +kernel
  rw [h]
  simp
theorem witness_OnlyWriteInWritesIn : let s := fed.setStream .audio [0x2101000300000000#64]
    (∃ t, portStep .audio s = .next t) ∧ ∀ c n v, nextCommand .audio s ≠ some (.writeIn c n v) := by
  refine ⟨next_of_isSome (by decide +kernel), fun c n v => ?_⟩
  have h : nextCommand .audio (fed.setStream .audio [0x2101000300000000#64]) = some (.process 1 3) := by decide +kernel
  rw [h]
  simp
theorem witness_PlatformParametersAreNotRead : ∃ t, step (turnOf .audio 0x2101000300000000#64 fed) = .next t :=
  next_of_isSome (by decide +kernel)

theorem witness_PowerOnMeetsTheInvariant : Dims.reference.wf ∧ tinyDims.wf := by decide +kernel

theorem powerOn_legal : Params.powerOn.legal := by
  intro f
  cases f with
  | type i => trivial
  | freq i => unfold fieldLegal; revert i; decide +kernel
  | q i => unfold fieldLegal; revert i; decide +kernel
  | gain i => unfold fieldLegal; revert i; decide +kernel
  | globalGain => unfold fieldLegal; decide +kernel
  | mix => unfold fieldLegal; decide +kernel
  | bypass => trivial
  | analyzerEn => trivial
  | bandCount => trivial

theorem witness_StepKeepsParametersInRange : (turnOf .ctrl 0x150000003FC00000#64 tiny).P.legal ∧
    ∃ t, step (turnOf .ctrl 0x150000003FC00000#64 tiny) = .next t := ⟨powerOn_legal, next_of_isSome (by decide +kernel)⟩

theorem witness_StepKeepsTheInvariant : (turnOf .audio 0x230000053F800000#64 tiny).Inv ∧
    ∃ t, step (turnOf .audio 0x230000053F800000#64 tiny) = .next t := by
  refine ⟨?_, next_of_isSome (by decide +kernel)⟩
  constructor
  · decide +kernel
  · exact powerOn_legal
  · exact memCanonical_powerOn tinyDims
  · refine ⟨?_, ?_, ?_, ?_, ?_, ?_⟩ <;> intro e he <;> cases he
  · decide +kernel
  · decide +kernel
  · intro p; cases p <;> decide +kernel
  · intro h; cases h
  · intro i h; revert h; revert i; decide +kernel
  · intro j hj; cases hj

end Sys2Proof.Tests
end

/-! PROOFS. Power-on and the interleaving (O7, O58). -/

namespace Sys2Proof.Machine

/-! ## Power-on -/

/-- Every field of the power-on parameter store lies in its range (R20 to R22, R32). The tests' `powerOn_legal` says the same of it for
their witnesses, and no proof is built on the tests. -/
theorem params_powerOn_legal : Params.powerOn.legal := by
  have hfreq : ∀ i : Fin 10, inRange defFreq[i] freqMin freqMax = true := by decide +kernel
  have hq : inRange fOne qMin qMax = true := by decide +kernel
  have hgain : inRange posZero gainMin gainMax = true := by decide +kernel
  have hmix : inRange fOne posZero fOne = true := by decide +kernel
  intro f
  cases f with
  | freq i => exact hfreq i
  | q i => simpa [fieldLegal, Params.powerOn] using hq
  | gain i => simpa [fieldLegal, Params.powerOn] using hgain
  | globalGain => simp [fieldLegal, Params.powerOn, fIsNaN, fExp, posZero]
  | mix => exact hmix
  | type i => trivial
  | bypass => trivial
  | analyzerEn => trivial
  | bandCount => trivial

/-- No memory lists an index at power-on. -/
theorem memInRange_powerOn (d : Dims) : (State.powerOn d).memInRange := by
  simp [State.memInRange, State.powerOn, Bands.powerOn]

/-- No band's coefficients are valid at power-on (R27, R32). -/
theorem coefsTrue_powerOn (d : Dims) : (State.powerOn d).coefsTrue := by
  intro i hi
  simp [State.powerOn, Bands.powerOn] at hi

/-- The analysis window is not empty (R8). -/
theorem window_pos {d : Dims} (h : d.wf) : 0 < d.window := by
  obtain ⟨-, -, ⟨k, -, -, hk⟩, -⟩ := h
  rw [hk]
  exact Nat.two_pow_pos k

/-- Settles O58: the store is legal, and everything else the invariant speaks of is empty or not valid yet. -/
theorem powerOnMeetsTheInvariant : Obligations.PowerOnMeetsTheInvariant := fun d hd =>
  { dims := hd
    params := params_powerOn_legal
    canonical := memCanonical_powerOn d
    inRange := memInRange_powerOn d
    cursor := window_pos hd
    blockLimit := Nat.zero_le _
    fifos := fun p => by cases p <;> exact Nat.zero_le _
    snapshot := fun h => nomatch h
    coefs := coefsTrue_powerOn d
    job := fun _ h => nomatch h }

/-! ## The interleaving -/

/-- A port has a step exactly when its block is in progress or the next command's answer fits its FIFO (R31, R169). -/
theorem portReady_iff (p : Port) (s : State) :
    portReady p s = true ↔
      (p = .audio ∧ s.job ≠ none) ∨
      ((p ≠ .audio ∨ s.job = none) ∧ ∃ w ws, (s.ports.get p).stream = w :: ws ∧ hasRoom p w s = true) := by
  have hpend : blockPending p s ≠ none ↔ p = .audio ∧ s.job ≠ none := by cases p <;> simp [blockPending]
  have hidle : blockPending p s = none ↔ p ≠ .audio ∨ s.job = none := by cases p <;> simp [blockPending]
  rw [← hpend, ← hidle]
  unfold portReady
  cases blockPending p s with
  | some j => simp
  | none => cases (s.ports.get p).stream <;> simp

theorem mem_readyPorts {p : Port} {s : State} : p ∈ readyPorts s ↔ portReady p s = true := by
  cases p <;> simp [readyPorts]

section
variable {s : State}

theorem step_of_turn {p : Port} {rest : List Event} (h : s.env.agenda = .turn p :: rest) :
    step s = portStep p (s.withEnv { s.env with agenda := rest }) := by
  simp only [step, nextStep, h]

theorem step_of_submit {p : Port} {w : Command} {rest : List Event} (h : s.env.agenda = .submit p w :: rest) :
    step s = .next (hostSubmit p w (s.withEnv { s.env with agenda := rest })) := by
  simp only [step, nextStep, h]

theorem step_of_drain {p : Port} {n : Nat} {rest : List Event} (h : s.env.agenda = .drain p n :: rest) :
    step s = .next (hostDrain p n (s.withEnv { s.env with agenda := rest })) := by
  simp only [step, nextStep, h]

/-- With nothing scheduled and no port that has a step, nothing happens (R169). -/
theorem step_of_noneReady (h : s.env.agenda = []) (hr : readyPorts s = []) : step s = .next s := by
  simp only [step, nextStep, h, hr]

theorem step_of_oneReady {p : Port} (h : s.env.agenda = []) (hr : readyPorts s = [p]) : step s = portStep p s := by
  simp only [step, nextStep, h, hr]

/-- The free choice among several ports that have a step is one of them (R43). -/
theorem step_of_severalReady (h : s.env.agenda = []) (hr : 2 ≤ (readyPorts s).length) :
    ∃ p ∈ readyPorts s, step s = portStep p (s.withEnv { s.env with drawn := s.env.drawn + 1 }) := by
  match hp : readyPorts s with
  | [] => simp [hp] at hr
  | [_] => simp [hp] at hr
  | p :: q :: ps =>
    refine ⟨(p :: q :: ps).getD (Config.freeTurn s.env.drawn % ((q :: ps).length + 1)) p, ?_,
      by simp only [step, nextStep, h, hp]⟩
    have hlt : Config.freeTurn s.env.drawn % ((q :: ps).length + 1) < (p :: q :: ps).length := Nat.mod_lt _ (Nat.succ_pos _)
    rw [List.getD_eq_getElem _ _ hlt]
    exact List.getElem_mem _

end

/-- A host's submit appends its word to one stream and changes nothing else (R6). -/
theorem hostSubmit_spec (p : Port) (w : Command) (s : State) :
    ((hostSubmit p w s).ports.get p).stream = (s.ports.get p).stream ++ [w] ∧
    ((hostSubmit p w s).ports.get p).resp = (s.ports.get p).resp ∧
    (∀ q, q ≠ p → (hostSubmit p w s).ports.get q = s.ports.get q) ∧
    hostSubmit p w s = { s with ports := (hostSubmit p w s).ports } := by
  refine ⟨?_, ?_, fun q hq => ?_, rfl⟩
  · simp [hostSubmit]
  · simp [hostSubmit]
  · simp [hostSubmit, Ports.get_set_ne _ _ hq]

/-- A host's drain removes the oldest words of one response FIFO and changes nothing else (R31). -/
theorem hostDrain_spec (p : Port) (n : Nat) (s : State) :
    (s.ports.get p).resp = (s.ports.get p).resp.take n ++ ((hostDrain p n s).ports.get p).resp ∧
    ((hostDrain p n s).ports.get p).stream = (s.ports.get p).stream ∧
    (∀ q, q ≠ p → (hostDrain p n s).ports.get q = s.ports.get q) ∧
    hostDrain p n s = { s with ports := (hostDrain p n s).ports } := by
  refine ⟨?_, ?_, fun q hq => ?_, rfl⟩
  · simp [hostDrain]
  · simp [hostDrain]
  · simp [hostDrain, Ports.get_set_ne _ _ hq]

/-- Settles O7, event by event of the interleaving. -/
theorem stepOfTheOnlyReadyPort : Obligations.StepOfTheOnlyReadyPort := by
  refine ⟨fun s h => ⟨step_of_noneReady h, fun p => step_of_oneReady h, step_of_severalReady h⟩,
    fun s p rest => step_of_turn, fun s p w rest h => ?_, fun s p n rest h => ?_,
    fun s p => mem_readyPorts.trans (portReady_iff p s)⟩
  · exact ⟨_, step_of_submit h, hostSubmit_spec p w (s.withEnv { s.env with agenda := rest })⟩
  · exact ⟨_, step_of_drain h, hostDrain_spec p n (s.withEnv { s.env with agenda := rest })⟩

end Sys2Proof.Machine

/-! PROOFS. Binary32 arithmetic (O11 to O16): what each operation's core answers on each class of operands, then what R11 says of it. -/

namespace Sys2Proof.Machine

/-! ## Classes of encodings -/

section
variable {a b : F32}

/-- A value that is no NaN is an infinity or finite. -/
theorem inf_or_finite (h : ¬ fIsNaN a = true) : fIsInf a = true ∨ fIsFinite a = true := by
  rw [fIsNaN_iff] at h
  rw [fIsInf_iff, fIsFinite_iff]
  omega

theorem fIsInf_iff_eq (a : F32) : fIsInf a = true ↔ a = posInf ∨ a = negInf :=
  ⟨eq_inf_of_fIsInf, by rintro (rfl | rfl) <;> decide⟩

theorem notNaN_of_inf (h : fIsInf a = true) : fIsNaN a = false := by
  rcases eq_inf_of_fIsInf h with rfl | rfl <;> decide

theorem finite_of_zero (h : fIsZero a = true) : fIsFinite a = true := by
  have hz : a = posZero ∨ a = negZero := by simpa [fIsZero] using h
  rcases hz with rfl | rfl <;> decide

theorem notNaN_of_zero (h : fIsZero a = true) : fIsNaN a = false := (notNaN_notInf_of_finite (finite_of_zero h)).1

theorem notInf_of_zero (h : fIsZero a = true) : fIsInf a = false := (notNaN_notInf_of_finite (finite_of_zero h)).2

@[simp] theorem fSign_fneg (a : F32) : fSign (fneg a) = !fSign a := by
  have := a.isLt
  rw [fSign_eq, fSign_eq, fneg_toNat, ← decide_not, decide_eq_decide]
  split <;> omega

/-- `fneg` keeps the exponent and the fraction. -/
theorem fneg_toNat_mod (a : F32) : (fneg a).toNat % 2147483648 = a.toNat % 2147483648 := by
  have := a.isLt
  rw [fneg_toNat]
  split <;> omega

@[simp] theorem fIsNaN_fneg (a : F32) : fIsNaN (fneg a) = fIsNaN a := by
  rw [Bool.eq_iff_iff, fIsNaN_iff, fIsNaN_iff, fneg_toNat_mod]

@[simp] theorem fIsInf_fneg (a : F32) : fIsInf (fneg a) = fIsInf a := by
  rw [Bool.eq_iff_iff, fIsInf_iff, fIsInf_iff, fneg_toNat_mod]

@[simp] theorem fneg_fneg (a : F32) : fneg (fneg a) = a := by
  rw [fneg, fneg, BitVec.xor_assoc, BitVec.xor_self, BitVec.xor_zero]

theorem fneg_eq_iff : fneg a = b ↔ a = fneg b :=
  ⟨fun h => by rw [← h, fneg_fneg], fun h => by rw [h, fneg_fneg]⟩

/-- An infinity is told by its sign. -/
theorem eq_of_inf (h : fIsInf a = true) : a = if fSign a then negInf else posInf := by
  rcases eq_inf_of_fIsInf h with rfl | rfl <;> rfl

theorem eq_negZero_iff (a : F32) : a = negZero ↔ fSign a = true ∧ fUnits a = 0 := by
  constructor
  · rintro rfl; decide
  · rintro ⟨hs, hu⟩
    rcases eq_zero_of_fUnits hu with rfl | rfl
    · exact absurd hs (by decide)
    · rfl

/-- A rounded magnitude is a finite value or an infinity. -/
theorem fIsNaN_fRound (neg : Bool) (n d : Nat) : fIsNaN (fRound neg n d) = false := by
  have hle := roundMag_le n d
  rw [← Bool.not_eq_true, fIsNaN_iff, fRound_toNat]
  split <;> omega

end

/-! ## What the cores answer, by the classes of the operands -/

section
variable {a b : F32}

theorem fAddCore_of_nan (h : fIsNaN a = true ∨ fIsNaN b = true) : fAddCore a b = none := by
  rcases h with h | h <;> simp [fAddCore, h]

theorem fAddCore_of_inf_left (ha : fIsInf a = true) (hb : fIsNaN b = false) :
    fAddCore a b = if fIsInf b = true ∧ fSign a ≠ fSign b then none else some a := by
  simp [fAddCore, ha, hb, notNaN_of_inf ha]

theorem fAddCore_of_inf_right (ha : fIsFinite a = true) (hb : fIsInf b = true) : fAddCore a b = some b := by
  obtain ⟨han, hai⟩ := notNaN_notInf_of_finite ha
  simp [fAddCore, han, hai, hb, notNaN_of_inf hb]

theorem fAddCore_of_finite (ha : fIsFinite a = true) (hb : fIsFinite b = true) :
    fAddCore a b = some (if fUnits a + fUnits b = 0 then (if fSign a && fSign b then negZero else posZero)
      else fRound (decide (fUnits a + fUnits b < 0)) (fUnits a + fUnits b).natAbs 1) := by
  obtain ⟨han, hai⟩ := notNaN_notInf_of_finite ha
  obtain ⟨hbn, hbi⟩ := notNaN_notInf_of_finite hb
  simp only [fAddCore, han, hai, hbn, hbi, Bool.or_self, Bool.false_eq_true, if_false]
  split <;> rfl

theorem fMulCore_of_nan (h : fIsNaN a = true ∨ fIsNaN b = true) : fMulCore a b = none := by
  rcases h with h | h <;> simp [fMulCore, h]

theorem fMulCore_of_inf (h : fIsInf a = true ∨ fIsInf b = true) (ha : fIsNaN a = false) (hb : fIsNaN b = false) :
    fMulCore a b = if fIsZero a = true ∨ fIsZero b = true then none
      else some (if fSign a = fSign b then posInf else negInf) := by
  rcases h with h | h <;> simp [fMulCore, h, ha, hb]

theorem fMulCore_of_finite (ha : fIsFinite a = true) (hb : fIsFinite b = true) :
    fMulCore a b = some (fRound (fSign a != fSign b) (fMagUnits a * fMagUnits b) (2 ^ 149)) := by
  obtain ⟨han, hai⟩ := notNaN_notInf_of_finite ha
  obtain ⟨hbn, hbi⟩ := notNaN_notInf_of_finite hb
  simp [fMulCore, han, hai, hbn, hbi]

theorem fDivCore_of_nan (h : fIsNaN a = true ∨ fIsNaN b = true) : fDivCore a b = none := by
  rcases h with h | h <;> simp [fDivCore, h]

theorem fDivCore_of_inf_inf (ha : fIsInf a = true) (hb : fIsInf b = true) : fDivCore a b = none := by
  simp [fDivCore, ha, hb, notNaN_of_inf]

theorem fDivCore_of_inf_left (ha : fIsInf a = true) (hb : fIsFinite b = true) :
    fDivCore a b = some (if fSign a = fSign b then posInf else negInf) := by
  obtain ⟨hbn, hbi⟩ := notNaN_notInf_of_finite hb
  simp [fDivCore, ha, notNaN_of_inf ha, hbn, hbi]

theorem fDivCore_of_inf_right (ha : fIsFinite a = true) (hb : fIsInf b = true) :
    fDivCore a b = some (if fSign a = fSign b then posZero else negZero) := by
  obtain ⟨han, hai⟩ := notNaN_notInf_of_finite ha
  simp [fDivCore, hb, notNaN_of_inf hb, han, hai]

theorem fDivCore_of_zero_right (ha : fIsFinite a = true) (hb : fIsZero b = true) :
    fDivCore a b = if fIsZero a = true then none else some (if fSign a = fSign b then posInf else negInf) := by
  obtain ⟨han, hai⟩ := notNaN_notInf_of_finite ha
  simp [fDivCore, hb, notNaN_of_zero hb, notInf_of_zero hb, han, hai]

theorem fDivCore_of_finite (ha : fIsFinite a = true) (hb : fIsFinite b = true) (hz : fIsZero b = false) :
    fDivCore a b = some (fRound (fSign a != fSign b) (fMagUnits a * 2 ^ 149) (fMagUnits b)) := by
  obtain ⟨han, hai⟩ := notNaN_notInf_of_finite ha
  obtain ⟨hbn, hbi⟩ := notNaN_notInf_of_finite hb
  simp [fDivCore, han, hai, hbn, hbi, hz]

theorem fSqrtCore_of_pos (ha : fIsFinite a = true) (hs : fSign a = false) (hz : fIsZero a = false) :
    fSqrtCore a = some (fRound false (2 * isqrt (fMagUnits a * 2 ^ 151) +
      (if isqrt (fMagUnits a * 2 ^ 151) * isqrt (fMagUnits a * 2 ^ 151) = fMagUnits a * 2 ^ 151 then 0 else 1)) 4) := by
  obtain ⟨han, hai⟩ := notNaN_notInf_of_finite ha
  simp [fSqrtCore, han, hai, hs, hz]

end

/-! ## NaN results -/

/-- A core answers nothing exactly where the operation is invalid, and otherwise no NaN. -/
def NoneExactlyWhen (o : Option F32) (invalid : Prop) : Prop := (o = none ↔ invalid) ∧ ∀ r, o = some r → fIsNaN r = false

section
variable {a b r : F32} {invalid : Prop} {o : Option F32} {op : FloatOp}

theorem NoneExactlyWhen.of_none (ho : o = none) (h : invalid) : NoneExactlyWhen o invalid :=
  ⟨iff_of_true ho h, fun r hr => by rw [ho] at hr; cases hr⟩

theorem NoneExactlyWhen.of_some (ho : o = some r) (hr : fIsNaN r = false) (h : ¬ invalid) : NoneExactlyWhen o invalid :=
  ⟨iff_of_false (by simp [ho]) h, fun q hq => by rw [ho] at hq; cases hq; exact hr⟩

/-- With the NaN that stands for no answer put in, the operation answers a NaN exactly where it is invalid. -/
theorem NoneExactlyWhen.isNaN_iff (h : NoneExactlyWhen o invalid) : fIsNaN (o.getD (quietNaN op a b)) = true ↔ invalid := by
  obtain ⟨hnone, hsome⟩ := h
  rw [← hnone]
  cases o with
  | none => exact iff_of_true (isQuietNaN_or _).1 rfl
  | some r => simp [hsome r rfl]

/-- A NaN an operation answers is the one that stands for no answer, which is quiet. -/
theorem NoneExactlyWhen.quiet (h : NoneExactlyWhen o invalid) (hn : fIsNaN (o.getD (quietNaN op a b)) = true) :
    isQuietNaN (o.getD (quietNaN op a b)) := by
  rw [h.1.2 (h.isNaN_iff.1 hn)]
  exact isQuietNaN_or _

theorem fAddCore_none (a b : F32) : NoneExactlyWhen (fAddCore a b)
    (fIsNaN a = true ∨ fIsNaN b = true ∨ (fIsInf a = true ∧ fIsInf b = true ∧ fSign a ≠ fSign b)) := by
  by_cases hna : fIsNaN a = true
  · exact .of_none (fAddCore_of_nan (.inl hna)) (.inl hna)
  by_cases hnb : fIsNaN b = true
  · exact .of_none (fAddCore_of_nan (.inr hnb)) (.inr (.inl hnb))
  rcases inf_or_finite hna with ha | ha
  · have hc := fAddCore_of_inf_left ha (Bool.eq_false_of_not_eq_true hnb)
    by_cases hopp : fIsInf b = true ∧ fSign a ≠ fSign b
    · exact .of_none (hc.trans (if_pos hopp)) (.inr (.inr ⟨ha, hopp⟩))
    · exact .of_some (hc.trans (if_neg hopp)) (notNaN_of_inf ha) (by tauto)
  have hai := (notNaN_notInf_of_finite ha).2
  rcases inf_or_finite hnb with hb | hb
  · exact .of_some (fAddCore_of_inf_right ha hb) (notNaN_of_inf hb) (by simp [*])
  · refine .of_some (fAddCore_of_finite ha hb) ?_ (by simp [*])
    split_ifs
    · decide
    · decide
    · exact fIsNaN_fRound _ _ _

theorem fMulCore_none (a b : F32) : NoneExactlyWhen (fMulCore a b)
    (fIsNaN a = true ∨ fIsNaN b = true ∨ (fIsInf a = true ∧ fIsZero b = true) ∨ (fIsZero a = true ∧ fIsInf b = true)) := by
  by_cases hna : fIsNaN a = true
  · exact .of_none (fMulCore_of_nan (.inl hna)) (.inl hna)
  by_cases hnb : fIsNaN b = true
  · exact .of_none (fMulCore_of_nan (.inr hnb)) (.inr (.inl hnb))
  by_cases hi : fIsInf a = true ∨ fIsInf b = true
  · have hc := fMulCore_of_inf hi (Bool.eq_false_of_not_eq_true hna) (Bool.eq_false_of_not_eq_true hnb)
    by_cases hz : fIsZero a = true ∨ fIsZero b = true
    · refine .of_none (hc.trans (if_pos hz)) ?_
      have hxa : ¬ (fIsZero a = true ∧ fIsInf a = true) := fun h => by simp [notInf_of_zero h.1] at h
      have hxb : ¬ (fIsZero b = true ∧ fIsInf b = true) := fun h => by simp [notInf_of_zero h.1] at h
      tauto
    · exact .of_some (hc.trans (if_neg hz)) (by split <;> decide) (by tauto)
  · have hf : fIsFinite a = true ∧ fIsFinite b = true :=
      ⟨(inf_or_finite hna).resolve_left (by tauto), (inf_or_finite hnb).resolve_left (by tauto)⟩
    exact .of_some (fMulCore_of_finite hf.1 hf.2) (fIsNaN_fRound _ _ _) (by tauto)

theorem fDivCore_none (a b : F32) : NoneExactlyWhen (fDivCore a b)
    (fIsNaN a = true ∨ fIsNaN b = true ∨ (fIsInf a = true ∧ fIsInf b = true) ∨ (fIsZero a = true ∧ fIsZero b = true)) := by
  by_cases hna : fIsNaN a = true
  · exact .of_none (fDivCore_of_nan (.inl hna)) (.inl hna)
  by_cases hnb : fIsNaN b = true
  · exact .of_none (fDivCore_of_nan (.inr hnb)) (.inr (.inl hnb))
  rcases inf_or_finite hna with ha | ha <;> rcases inf_or_finite hnb with hb | hb
  · exact .of_none (fDivCore_of_inf_inf ha hb) (.inr (.inr (.inl ⟨ha, hb⟩)))
  · have hza : ¬ fIsZero a = true := fun h => by simp [notInf_of_zero h] at ha
    exact .of_some (fDivCore_of_inf_left ha hb) (by split <;> decide) (by simp [*, notNaN_notInf_of_finite hb])
  · have hzb : ¬ fIsZero b = true := fun h => by simp [notInf_of_zero h] at hb
    exact .of_some (fDivCore_of_inf_right ha hb) (by split <;> decide) (by simp [*, notNaN_notInf_of_finite ha])
  · have hai := (notNaN_notInf_of_finite ha).2
    by_cases hzb : fIsZero b = true
    · have hc := fDivCore_of_zero_right ha hzb
      by_cases hza : fIsZero a = true
      · exact .of_none (hc.trans (if_pos hza)) (.inr (.inr (.inr ⟨hza, hzb⟩)))
      · exact .of_some (hc.trans (if_neg hza)) (by split <;> decide) (by simp [*])
    · exact .of_some (fDivCore_of_finite ha hb (Bool.eq_false_of_not_eq_true hzb)) (fIsNaN_fRound _ _ _) (by simp [*])

theorem fSqrtCore_none (a : F32) : NoneExactlyWhen (fSqrtCore a)
    (fIsNaN a = true ∨ (fSign a = true ∧ fIsZero a = false)) := by
  unfold fSqrtCore
  split
  · next h => exact .of_none rfl (.inl h)
  next hn =>
  split
  · next h => exact .of_some rfl (notNaN_of_zero h) (by simp [hn, h])
  next hz =>
  split
  · next h => exact .of_none rfl (.inr ⟨h, by simpa using hz⟩)
  next hs =>
  split
  · next h => exact .of_some rfl (notNaN_of_inf h) (by simp [hn, hs])
  · exact .of_some rfl (fIsNaN_fRound _ _ _) (by simp [hn, hs])

end

/-- Settles O15: each core answers nothing exactly on a NaN and on an invalid operation, and what stands for nothing is quiet. -/
theorem nanResultsAreTheInvalidOperations : Obligations.NaNResultsAreTheInvalidOperations := by
  intro a b
  have hsub : NoneExactlyWhen (fAddCore a (fneg b))
      (fIsNaN a = true ∨ fIsNaN b = true ∨ (fIsInf a = true ∧ fIsInf b = true ∧ fSign a = fSign b)) := by
    simpa using fAddCore_none a (fneg b)
  refine ⟨(fAddCore_none a b).isNaN_iff, hsub.isNaN_iff, (fMulCore_none a b).isNaN_iff, (fDivCore_none a b).isNaN_iff,
    (fSqrtCore_none a).isNaN_iff, ?_⟩
  rintro r (rfl | rfl | rfl | rfl | rfl)
  · exact (fAddCore_none a b).quiet
  · exact hsub.quiet
  · exact (fMulCore_none a b).quiet
  · exact (fDivCore_none a b).quiet
  · exact (fSqrtCore_none a).quiet

/-! ## Sums, products and quotients -/

section
variable {a b : F32}

/-- A sum of finite values is rounded once, and an exact zero is negative only where both terms are `-0.0`. -/
theorem fAddCore_rounds (ha : fIsFinite a = true) (hb : fIsFinite b = true) :
    ∃ r, fAddCore a b = some r ∧ isRounded (fUnits a + fUnits b) 1 r ∧
      (fUnits a + fUnits b = 0 → r = if a = negZero ∧ b = negZero then negZero else posZero) := by
  refine ⟨_, fAddCore_of_finite ha hb, ?_, fun hz => ?_⟩
  · by_cases hz : fUnits a + fUnits b = 0
    · rw [if_pos hz, hz]
      have hpos : fRound false 0 1 = posZero := by decide
      have hneg : fRound true 0 1 = negZero := by decide
      split
      · simpa [hneg] using isRounded_fRound true 0 1 Nat.one_pos
      · simpa [hpos] using isRounded_fRound false 0 1 Nat.one_pos
    · rw [if_neg hz]
      have hval : (if decide (fUnits a + fUnits b < 0) = true then -((fUnits a + fUnits b).natAbs : Int)
          else ((fUnits a + fUnits b).natAbs : Int)) = fUnits a + fUnits b := by
        simp only [decide_eq_true_eq]
        split <;> omega
      have := isRounded_fRound (decide (fUnits a + fUnits b < 0)) (fUnits a + fUnits b).natAbs 1 Nat.one_pos
      rwa [hval] at this
  · rw [if_pos hz]
    congr 1
    rw [eq_negZero_iff, eq_negZero_iff, Bool.and_eq_true, eq_iff_iff]
    constructor
    · rintro ⟨hsa, hsb⟩
      have hua : fUnits a = -(fMagUnits a : Int) := by rw [fUnits_of_sign, if_pos hsa]
      have hub : fUnits b = -(fMagUnits b : Int) := by rw [fUnits_of_sign, if_pos hsb]
      exact ⟨⟨hsa, by omega⟩, hsb, by omega⟩
    · rintro ⟨⟨hsa, -⟩, hsb, -⟩
      exact ⟨hsa, hsb⟩

/-- An infinity plus a value that is neither a NaN nor the opposite infinity is the infinity. -/
theorem fAddCore_inf (ha : fIsInf a = true) (hb : fIsNaN b = false) (hne : b ≠ fneg a) : fAddCore a b = some a := by
  rw [fAddCore_of_inf_left ha hb, if_neg]
  rintro ⟨hbi, hs⟩
  refine hne ?_
  rw [eq_of_inf hbi, eq_of_inf (a := fneg a) (by simpa using ha), fSign_fneg]
  revert hs
  cases fSign a <;> cases fSign b <;> simp

/-- The sign and the magnitude of a product. -/
theorem fUnits_mul (a b : F32) :
    fUnits a * fUnits b =
      if (fSign a != fSign b) = true then -((fMagUnits a * fMagUnits b : Nat) : Int) else (fMagUnits a * fMagUnits b : Nat) := by
  rw [fUnits_of_sign, fUnits_of_sign]
  cases fSign a <;> cases fSign b <;> simp

theorem sign_fUnits (hz : fIsZero b = false) : (fUnits b).sign = if fSign b = true then -1 else 1 := by
  have hpos : 0 < fMagUnits b := Nat.pos_of_ne_zero fun h => by simp [(fIsZero_iff b).2 h] at hz
  rw [fUnits_of_sign]
  split
  · exact Int.sign_eq_neg_one_of_neg (by omega)
  · exact Int.sign_eq_one_of_pos (by omega)

/-- The sign and the magnitude of the dividend of a quotient whose divisor is taken positive. -/
theorem fUnits_mul_sign (a : F32) (hz : fIsZero b = false) :
    fUnits a * (fUnits b).sign * 2 ^ 149 =
      if (fSign a != fSign b) = true then -((fMagUnits a * 2 ^ 149 : Nat) : Int) else (fMagUnits a * 2 ^ 149 : Nat) := by
  rw [sign_fUnits hz, fUnits_of_sign]
  cases fSign a <;> cases fSign b <;> simp

theorem abs_fUnits (b : F32) : |fUnits b| = fMagUnits b := by
  rw [Int.abs_eq_natAbs, natAbs_fUnits]

end

/-- Settles O11: `fsub a b` is `fadd a (fneg b)` but for the NaN. -/
theorem addAndSubRoundTheExactResult : Obligations.AddAndSubRoundTheExactResult := by
  intro a b
  simp only [← fIsInf_iff_eq, fadd, fsub]
  refine ⟨fun ha hb => ?_, fun ha hb => ⟨fun hne => ?_, fun hne => ?_⟩, fun hb ha => ⟨?_, ?_⟩⟩
  · obtain ⟨r, hr, hround, hzero⟩ := fAddCore_rounds ha hb
    obtain ⟨q, hq, hqround, hqzero⟩ := fAddCore_rounds ha (fIsFinite_fneg hb)
    rw [fUnits_fneg, ← sub_eq_add_neg] at hqround hqzero
    rw [hr, hq]
    exact ⟨hround, hqround, hzero, by simpa [fneg_eq_iff, show fneg negZero = posZero by decide] using hqzero⟩
  · rw [fAddCore_inf ha hb hne, Option.getD_some]
  · rw [fAddCore_inf ha (by simpa using hb) (by simpa [fneg_eq_iff] using hne), Option.getD_some]
  · rw [fAddCore_of_inf_right ha hb, Option.getD_some]
  · rw [fAddCore_of_inf_right ha (by simpa using hb), Option.getD_some]

/-- Settles O12: the magnitudes are multiplied exactly and rounded once, with the sign of the product. -/
theorem mulRoundsTheExactProduct : Obligations.MulRoundsTheExactProduct := by
  intro a b
  refine ⟨fun ha hb => ?_, fun hi ha hb hza hzb => ?_⟩
  · rw [fmul, fMulCore_of_finite ha hb, Option.getD_some, fUnits_mul]
    exact ⟨by simpa using isRounded_fRound (fSign a != fSign b) (fMagUnits a * fMagUnits b) (2 ^ 149) (Nat.two_pow_pos _),
      fSign_fRound _ _ _⟩
  · rw [fmul, fMulCore_of_inf hi ha hb, if_neg (by simp [hza, hzb]), Option.getD_some]

/-- Settles O13: the magnitudes are divided exactly and rounded once, with the sign of the quotient. -/
theorem divRoundsTheExactQuotient : Obligations.DivRoundsTheExactQuotient := by
  intro a b
  refine ⟨fun ha hb hz => ?_, fun ha hza hzb => ?_, fun ha hb => ?_, fun ha hb => ?_⟩
  · have hpos : 0 < fMagUnits b := Nat.pos_of_ne_zero fun h => by simp [(fIsZero_iff b).2 h] at hz
    rw [fdiv, fDivCore_of_finite ha hb hz, Option.getD_some, fUnits_mul_sign a hz, abs_fUnits]
    exact ⟨isRounded_fRound _ _ _ hpos, fSign_fRound _ _ _⟩
  · rw [fdiv, fDivCore_of_zero_right ha hzb, if_neg (by simp [hza]), Option.getD_some]
  · rw [fdiv, fDivCore_of_inf_left ha hb, Option.getD_some]
  · rw [fdiv, fDivCore_of_inf_right ha hb, Option.getD_some]

/-! ## Square roots -/

theorem isqrt_eq_sqrt (n : Nat) : isqrt n = Nat.sqrt n := Nat.eq_sqrt.2 (isqrt_spec n)

/-- What `fSqrtCore` rounds, in quarters of a unit, where the root is `√n / 2` units: the root itself where it is exact, and otherwise the
middle of the two half units it lies between. -/
def rootQuarters (n : Nat) : Nat := 2 * Nat.sqrt n + if Nat.sqrt n * Nat.sqrt n = n then 0 else 1

/-- A whole number of half units is above the middle exactly when it is above the root. -/
theorem sqrt_le_of_rootQuarters_le {n : Nat} {j : Int} (h : (rootQuarters n : Int) ≤ 2 * j) : √(n : ℝ) ≤ j := by
  unfold rootQuarters at h
  by_cases he : Nat.sqrt n * Nat.sqrt n = n
  · have hroot : √(n : ℝ) = Nat.sqrt n := by
      rw [Real.sqrt_eq_iff_mul_self_eq (by positivity) (by positivity)]
      exact_mod_cast he.symm
    rw [hroot]
    rw [if_pos he] at h
    exact_mod_cast (by omega : (Nat.sqrt n : Int) ≤ j)
  · rw [if_neg he] at h
    calc √(n : ℝ) ≤ Nat.sqrt n + 1 := Real.real_sqrt_le_nat_sqrt_succ
      _ ≤ j := by exact_mod_cast (by omega : (Nat.sqrt n : Int) + 1 ≤ j)

theorem le_sqrt_of_le_rootQuarters {n : Nat} {j : Int} (h : 2 * j ≤ (rootQuarters n : Int)) : (j : ℝ) ≤ √(n : ℝ) := by
  unfold rootQuarters at h
  calc (j : ℝ) ≤ Nat.sqrt n := by exact_mod_cast (by split at h <;> omega : j ≤ (Nat.sqrt n : Int))
    _ ≤ √(n : ℝ) := Real.nat_sqrt_le_real_sqrt

/-- `u` is no farther from `x` than `v` is when `x` lies on its side of the point half way between them. -/
theorem abs_sub_le_abs_sub_of_mid {u v x : ℝ} (h : 0 ≤ (v - u) * (u + v - 2 * x)) : |u - x| ≤ |v - x| :=
  sq_le_sq.1 (by linarith [h, show (v - x) ^ 2 - (u - x) ^ 2 = (v - u) * (u + v - 2 * x) by ring])

/-- A whole number of units that is nearest to the middle is nearest to the root: the point half way between two whole numbers is a whole
number of half units, which lies on the same side of both. -/
theorem nearest_root_of_nearest_rootQuarters {n : Nat} {u v : Int}
    (h : |u * 4 - (rootQuarters n : Int)| ≤ |v * 4 - (rootQuarters n : Int)|) :
    |(u : ℝ) - √(n : ℝ) / 2| ≤ |(v : ℝ) - √(n : ℝ) / 2| := by
  have hu := abs_cases (u * 4 - (rootQuarters n : Int))
  have hv := abs_cases (v * 4 - (rootQuarters n : Int))
  rcases lt_trichotomy u v with huv | rfl | huv
  · have hmid : √(n : ℝ) ≤ ((u + v : Int) : ℝ) := sqrt_le_of_rootQuarters_le (by omega)
    have huv' : (u : ℝ) ≤ v := by exact_mod_cast huv.le
    push_cast at hmid
    exact abs_sub_le_abs_sub_of_mid (mul_nonneg (by linarith) (by linarith))
  · exact le_rfl
  · have hmid : ((u + v : Int) : ℝ) ≤ √(n : ℝ) := le_sqrt_of_le_rootQuarters (by omega)
    have huv' : (v : ℝ) ≤ u := by exact_mod_cast huv.le
    push_cast at hmid
    exact abs_sub_le_abs_sub_of_mid (mul_nonneg_of_nonpos_of_nonpos (by linarith) (by linarith))

/-- The root of a finite magnitude lies far below the overflow threshold. -/
theorem rootQuarters_lt {m : Nat} (h : m < 33554431 * 2 ^ 252) : (rootQuarters (m * 2 ^ 151) : Int) < overflowUnits * 4 := by
  have hn : m * 2 ^ 151 < 2 ^ 214 * 2 ^ 214 :=
    calc m * 2 ^ 151 < 33554431 * 2 ^ 252 * 2 ^ 151 := Nat.mul_lt_mul_of_pos_right h (Nat.two_pow_pos _)
      _ ≤ 2 ^ 25 * 2 ^ 252 * 2 ^ 151 := Nat.mul_le_mul_right _ (Nat.mul_le_mul_right _ (by norm_num))
      _ = 2 ^ 214 * 2 ^ 214 := by rw [← pow_add, ← pow_add, ← pow_add]
  have hr : Nat.sqrt (m * 2 ^ 151) < 2 ^ 214 := Nat.sqrt_lt.2 hn
  have hq : rootQuarters (m * 2 ^ 151) ≤ 2 * Nat.sqrt (m * 2 ^ 151) + 1 := by
    unfold rootQuarters
    split <;> omega
  rw [overflowUnits_eq]
  omega

/-- `fSqrtCore` works on twice the root, so that half units are whole numbers. -/
theorem sqrt_units_eq (m : Nat) : √((m : ℝ) * 2 ^ 149) = √((m * 2 ^ 151 : Nat) : ℝ) / 2 := by
  have h : ((m * 2 ^ 151 : Nat) : ℝ) = (m : ℝ) * 2 ^ 149 * 2 ^ 2 := by
    push_cast
    ring
  rw [h, Real.sqrt_mul (by positivity : 0 ≤ (m : ℝ) * 2 ^ 149), Real.sqrt_sq (by norm_num)]
  ring

/-- Settles O14: where what is rounded is not the root itself, it has the root's nearest values. -/
theorem sqrtIsTheNearestValue : Obligations.SqrtIsTheNearestValue := by
  refine ⟨fun a c ha hs hz hc => ?_, by decide, by decide, by decide⟩
  have hroot : fsqrt a = fRound false (rootQuarters (fMagUnits a * 2 ^ 151)) 4 := by
    rw [fsqrt, fSqrtCore_of_pos ha hs hz, Option.getD_some, isqrt_eq_sqrt, rootQuarters]
  have hsmall := rootQuarters_lt (m := fMagUnits a) (by rw [fMagUnits_eq]; exact magOf_lt_overflow ((fIsFinite_iff a).1 ha))
  have hunits : fUnits a = fMagUnits a := by rw [fUnits_of_sign, hs, if_neg (by simp)]
  have hround := (isRounded_fRound false (rootQuarters (fMagUnits a * 2 ^ 151)) 4 (by norm_num)).1 (by simpa using hsmall)
  obtain ⟨hfin, hnear⟩ := hround
  rw [hroot, hunits, Int.cast_natCast, sqrt_units_eq]
  exact ⟨hfin, fSign_fRound _ _ _, nearest_root_of_nearest_rootQuarters (by simpa using (hnear c hc).1)⟩

/-! ## Comparisons -/

theorem fOrd_lt_iff (a b : F32) : fOrd a < fOrd b ↔ fUnits a < fUnits b := by
  have h0 : magOf 0 = 0 := rfl
  rw [fOrd_eq, fOrd_eq, fUnits_eq, fUnits_eq]
  generalize a.toNat % 2147483648 = m
  generalize b.toNat % 2147483648 = n
  have hmn := magOf_lt_iff m n
  have hnm := magOf_lt_iff n m
  have hm := magOf_lt_iff 0 m
  have hn := magOf_lt_iff 0 n
  split_ifs <;> omega

theorem fOrd_eq_iff (a b : F32) : fOrd a = fOrd b ↔ fUnits a = fUnits b := by
  have hab := fOrd_lt_iff a b
  have hba := fOrd_lt_iff b a
  omega

theorem fOrd_of_finite {a : F32} (h : fIsFinite a = true) : fOrd negInf < fOrd a ∧ fOrd a < fOrd posInf := by
  have hpos : fOrd posInf = 2139095040 := by decide
  have hneg : fOrd negInf = -2139095040 := by decide
  rw [fIsFinite_iff] at h
  rw [hpos, hneg, fOrd_eq]
  split_ifs <;> omega

theorem fOrd_of_notNaN {a : F32} (h : fIsNaN a = false) : fOrd negInf ≤ fOrd a ∧ fOrd a ≤ fOrd posInf := by
  have hpos : fOrd posInf = 2139095040 := by decide
  have hneg : fOrd negInf = -2139095040 := by decide
  rw [← Bool.not_eq_true, fIsNaN_iff] at h
  rw [hpos, hneg, fOrd_eq]
  split_ifs <;> omega

theorem flt_iff (a b : F32) : flt a b = true ↔ fIsNaN a = false ∧ fIsNaN b = false ∧ fOrd a < fOrd b := by
  simp [flt, and_assoc]

theorem feq_iff (a b : F32) : feq a b = true ↔ fIsNaN a = false ∧ fIsNaN b = false ∧ fOrd a = fOrd b := by
  simp [feq, and_assoc]

/-- The sign bit is bit 31. -/
theorem getLsbD_signBit {k : Nat} (hk : k < 32) : (0x80000000#32).getLsbD k = decide (k = 31) := by
  revert k
  decide

theorem getLsbD_magBits {k : Nat} (hk : k < 32) : (0x7FFFFFFF#32).getLsbD k = decide (k ≠ 31) := by
  revert k
  decide

/-- Settles O16: the order of the encodings is the order of the numbers. -/
theorem comparisonsFollowTheNumbers : Obligations.ComparisonsFollowTheNumbers := by
  intro a b
  have hpi : fIsNaN posInf = false := by decide
  have hni : fIsNaN negInf = false := by decide
  refine ⟨fun ha hb => ?_, fun h => ?_, fun ha => ?_, ?_, rfl, rfl, fun k hk => ⟨?_, ?_⟩⟩
  · have hna := (notNaN_notInf_of_finite ha).1
    have hnb := (notNaN_notInf_of_finite hb).1
    simp [flt_iff, feq_iff, hna, hnb, fOrd_lt_iff, fOrd_eq_iff]
  · rcases h with h | h <;> simp [flt, feq, h]
  · have hna := (notNaN_notInf_of_finite ha).1
    have hord := fOrd_of_finite ha
    simp only [← Bool.not_eq_true, flt_iff, feq_iff]
    simp [hpi, hni, hna, hord, hord.1.ne', hord.2.ne]
  · refine ⟨?_, ?_, by decide, by decide, by decide⟩ <;> rw [← Bool.not_eq_true, flt_iff]
    · rintro ⟨hna, -, hlt⟩
      exact absurd (fOrd_of_notNaN hna).1 hlt.not_ge
    · rintro ⟨-, hna, hlt⟩
      exact absurd (fOrd_of_notNaN hna).2 hlt.not_ge
  · rw [fneg, BitVec.getLsbD_xor, getLsbD_signBit hk]
    split <;> simp [*]
  · rw [fabs, BitVec.getLsbD_and, getLsbD_magBits hk]
    split <;> simp [*]

end Sys2Proof.Machine

/-! PROOFS. The ports' turns, what each port's steps change, and the machine's invariant (O6, O9, O37, O43, O52, O53, O55, O59, O60).
The proof of O60 has one lemma `inv_…` per operation on the state, and each command's is made of those of its operations. -/

namespace Sys2Proof.Machine

/-! ## A port's turn -/

section
variable {s : State} {p : Port} {w : Command} {ws : List Command} {i : Instr}

theorem blockPending_eq_none : blockPending p s = none ↔ (p = .audio → s.job = none) := by
  cases p <;> simp [blockPending]

/-- A decoded command has room when its answer fits the FIFO (R31). -/
theorem hasRoom_iff_of_decode (hd : decode p w = .command i) :
    hasRoom p w s = true ↔ (s.ports.get p).resp.length + respCount i s ≤ s.dims.respDepth := by
  simp only [hasRoom, wordRespCount, hd, decide_eq_true_eq]

theorem portStep_of_command (hb : blockPending p s = none) (hs : (s.ports.get p).stream = w :: ws)
    (hd : decode p w = .command i) (hr : hasRoom p w s = true) : portStep p s = exec i (s.setStream p ws) := by
  simp only [portStep, hb, hs, hr, if_true, runWord, hd]

theorem portStep_of_noRoom (hb : blockPending p s = none) (hs : (s.ports.get p).stream = w :: ws)
    (hr : ¬ hasRoom p w s = true) : portStep p s = .next s := by
  simp only [portStep, hb, hs, if_neg hr]

end

/-- Settles O6: on the port's turn the room is there, so the word is taken and executed. -/
theorem stepExecutesTheDecodedCommand : Obligations.StepExecutesTheDecodedCommand := by
  intro s p w ws rest i ha hs hj hd hr
  rw [step_of_turn ha]
  exact portStep_of_command (blockPending_eq_none.2 hj) hs hd ((hasRoom_iff_of_decode hd).2 hr)

/-- Settles O9: on the port's turn the room is missing, so the turn is all that is taken. -/
theorem fullFifoHoldsTheCommand : Obligations.FullFifoHoldsTheCommand := by
  intro s p w ws rest i ha hs hj hd hr
  rw [step_of_turn ha]
  exact portStep_of_noRoom (blockPending_eq_none.2 hj) hs fun hroom => hr.not_ge ((hasRoom_iff_of_decode hd).1 hroom)

/-! ## Power-on values -/

/-- Settles O52: each value is read off the power-on state, whose memories list nothing. -/
theorem powerOnValues : Obligations.PowerOnValues := by
  intro d
  refine ⟨rfl, fun i => ⟨?_, ?_, ?_⟩, rfl, rfl, rfl, rfl, rfl, rfl, fun i => ⟨?_, ?_⟩, fun i c => rfl, fun j => rfl,
    fun k => ⟨rfl, rfl⟩, rfl, rfl, fun p => ?_⟩
  · simp [State.powerOn, Params.powerOn]
  · simp [State.powerOn, Params.powerOn, fOne]
  · simp [State.powerOn, Params.powerOn, posZero]
  · simp [State.powerOn, Bands.powerOn, Coef.ident, fOne, posZero]
  · simp [State.powerOn, Bands.powerOn]
  · cases p <;> exact ⟨rfl, rfl⟩

/-! ## Snapshot steps -/

theorem mem_allFields (f : PField) : f ∈ allFields := by
  cases f <;> simp [allFields]

/-- An accepted block goes on to its first step (R144). -/
theorem execProcess_of_accepted {s : State} {C ns : Nat} (h : blockAccepted s C ns) :
    execProcess C ns s = blockStep (startJob C ns) s := by
  obtain ⟨hC, hcap, hprep, hmax⟩ := h
  simp [execProcess, hC.not_gt, hcap.not_gt, hprep, hmax.not_gt]

/-- A field that remains is the one picked when its place is the next pick. -/
theorem exists_pickField_eq {f g : PField} {todo : List PField} (h : g ∈ f :: todo) (s : State) :
    ∃ k, ∀ ks, pickField (s.withEnv { s.env with picks := k :: ks }) f todo = g := by
  refine ⟨(f :: todo).idxOf g, fun ks => ?_⟩
  have hlt : (f :: todo).idxOf g < (f :: todo).length := List.idxOf_lt_length_iff.2 h
  rw [pickField, nextPick, State.withEnv_env, ← List.length_cons, Nat.mod_eq_of_lt hlt, List.getD_eq_getElem _ _ hlt]
  exact List.getElem_idxOf hlt

/-- One of the fields that remain is copied and taken off them (R41). -/
theorem blockStep_snapshot_copies (s : State) (C n : Nat) {todo : List PField} (h : todo ≠ []) :
    ∃ f ∈ todo, blockStep ⟨C, n, .snapshot todo⟩ s =
      .next { s with S := copyField s.P s.S f, job := some ⟨C, n, .snapshot (todo.erase f)⟩,
                     env := { s.env with picks := s.env.picks.tail,
                                         drawn := if s.env.picks = [] then s.env.drawn + 1 else s.env.drawn } } := by
  obtain ⟨f, rest, rfl⟩ := List.exists_cons_of_ne_nil h
  refine ⟨pickField s f rest, pickField_mem s f rest, ?_⟩
  simp only [blockStep, snapshotStep, State.takePick_eq]
  rfl

/-- Any of the fields that remain is copied under some pick (R41). -/
theorem blockStep_snapshot_copies_any (s : State) (C n : Nat) {todo : List PField} {f : PField} (h : f ∈ todo) :
    ∃ k, ∀ ks, blockStep ⟨C, n, .snapshot todo⟩ (s.withEnv { s.env with picks := k :: ks }) =
      .next { s with S := copyField s.P s.S f, job := some ⟨C, n, .snapshot (todo.erase f)⟩,
                     env := { s.env with picks := ks } } := by
  obtain ⟨g, rest, rfl⟩ := List.exists_cons_of_ne_nil (List.ne_nil_of_mem h)
  obtain ⟨k, hk⟩ := exists_pickField_eq h s
  refine ⟨k, fun ks => ?_⟩
  simp only [blockStep, snapshotStep, State.takePick_eq, hk ks]
  rfl

/-- Settles O37: the first step of an accepted block is a snapshot step with every field remaining. -/
theorem snapshotStepsCopyOneFieldEach : Obligations.SnapshotStepsCopyOneFieldEach := by
  intro s C n
  refine ⟨fun hacc => ⟨?_, fun f => ?_⟩,
    fun todo htodo => ⟨blockStep_snapshot_copies s C n htodo, fun f hf => blockStep_snapshot_copies_any s C n hf⟩⟩
  · obtain ⟨f, hf, hstep⟩ := blockStep_snapshot_copies s C n (List.ne_nil_of_mem (mem_allFields .mix))
    exact ⟨f, hf, (execProcess_of_accepted hacc).trans hstep⟩
  · obtain ⟨k, hk⟩ := blockStep_snapshot_copies_any s C n (mem_allFields f)
    exact ⟨k, fun ks => (execProcess_of_accepted (s := s.withEnv { s.env with picks := k :: ks }) hacc).trans (hk ks)⟩

/-! ## A block after its snapshot and the parameter store -/

section
variable (P : Params) (s : State)

theorem updateCoefficients_withP (i : Fin 10) : updateCoefficients i (s.withP P) = (updateCoefficients i s).withP P := by
  have hfresh : bandFresh (s.withP P) i = bandFresh s i := rfl
  unfold updateCoefficients
  rw [hfresh]
  split <;> rfl

theorem updateAll_withP (is : List (Fin 10)) : updateAll is (s.withP P) = (updateAll is s).withP P := by
  induction is generalizing s with
  | nil => rfl
  | cons i is ih => rw [updateAll, updateAll, updateCoefficients_withP, ih]

/-- A loop over channels whose steps commute with a parameter write commutes with it. -/
theorem forChannels_withP {f : Nat → State → State} (hf : ∀ c u, f c (u.withP P) = (f c u).withP P) (C : Nat) :
    forChannels f C (s.withP P) = (forChannels f C s).withP P := by
  induction C with
  | zero => rfl
  | succ C ih => rw [forChannels_succ, forChannels_succ, ih, hf]

theorem computeBlock_withP (C ns : Nat) : computeBlock C ns (s.withP P) = (computeBlock C ns s).withP P := by
  have hbands : bandsUpdated (s.withP P) = (bandsUpdated s).withP P := updateAll_withP P (bandCountUpdate s) _
  rw [computeBlock_eq, computeBlock_eq, hbands, forChannels_withP P _ (fun _ _ => rfl), State.withP_S]
  refine forChannels_withP P _ (fun c u => ?_) C
  split <;> rfl

end

/-- Settles O43: neither the compute step nor a capture step reads the parameter store. -/
theorem blockIgnoresLaterParameterWrites : Obligations.BlockIgnoresLaterParameterWrites := by
  rintro s t ⟨C, ns, phase⟩ P hphase h
  rcases blockStep_next h with ⟨f, todo, hp, -⟩ | ⟨hp, hfed, rfl⟩ | ⟨n, v, hp, hv, rfl⟩ <;> subst hp
  · simp at hphase
  · have hfed' : blockFed (s.withP P) C ns := hfed
    simp only [blockStep]
    rw [computeStep_of_fed hfed', computeBlock_withP]
    rfl
  · have hv' : memRead (s.withP P) .out (sampleIx analyzerChannel n) = some v := hv
    simp only [blockStep, captureNext, hv']
    rfl

/-! ## What each port's steps change -/

section
variable {s t : State}

/-- A step of the CTRL port changes the parameter store, the condition bits and its own port (R40). -/
theorem portStep_ctrl_frame (h : portStep .ctrl s = .next t) :
    ∃ P e c, t = { s with P := P, ev := e, ports := s.ports.set .ctrl c } := by
  rcases portStep_next h with ⟨j, hp, -, -⟩ | rfl | ⟨w, rest, -, -, -, ⟨-, rfl⟩ | ⟨i, hd, -, he⟩⟩
  · cases hp
  · exact ⟨_, _, t.ports.ctrl, rfl⟩
  · exact ⟨_, _, _, rfl⟩
  · obtain ⟨P, e, c, rfl⟩ := exec_ctrl_frame (legalOn_of_decode hd) he
    exact ⟨P, e, c, rfl⟩

theorem portStep_audioKeeps (h : portStep .audio s = .next t) : audioKeeps s t := by
  rcases portStep_next h with ⟨j, -, -, hb⟩ | rfl | ⟨w, rest, -, -, -, ⟨-, rfl⟩ | ⟨i, hd, -, he⟩⟩
  · exact blockStep_audioKeeps hb
  · exact ⟨rfl, rfl, rfl, rfl, rfl, rfl, rfl⟩
  · exact ⟨rfl, rfl, rfl, rfl, rfl, rfl, rfl⟩
  · have hkeeps : audioKeeps (s.setStream .audio rest) t := exec_audio_frame (legalOn_of_decode hd) he
    exact hkeeps

/-- A step of the DISP port changes `SPEC`, the registers of the published snapshot, the condition bits, its own port and the free
choices (R42). -/
theorem portStep_disp_frame (h : portStep .disp s = .next t) :
    ∃ m b q e c v, t = { s with mem := { s.mem with spec := m }, E := { s.E with snapValid := b, snapSeq := q }, ev := e,
                                ports := s.ports.set .disp c, env := v } := by
  rcases portStep_next h with ⟨j, hp, -, -⟩ | rfl | ⟨w, rest, -, -, -, ⟨-, rfl⟩ | ⟨i, hd, -, he⟩⟩
  · cases hp
  · exact ⟨_, _, _, _, t.ports.disp, _, rfl⟩
  · exact ⟨_, _, _, _, _, _, rfl⟩
  · obtain ⟨m, b, q, e, c, v, rfl, -⟩ := exec_disp_frame (legalOn_of_decode hd) he
    exact ⟨m, b, q, e, c, v, rfl⟩

end

/-- Settles O53, port by port. -/
theorem portsChangeOnlyTheirOwnState : Obligations.PortsChangeOnlyTheirOwnState := by
  intro s t
  refine ⟨fun h => ?_, fun h => ?_, fun h => ?_⟩
  · obtain ⟨P, e, c, rfl⟩ := portStep_ctrl_frame h
    and_intros <;> rfl
  · obtain ⟨hP, hspec, hseq, hdims, hctrl, hdisp, -⟩ := portStep_audioKeeps h
    exact ⟨hP, hspec, hseq, hdims, hctrl, hdisp⟩
  · obtain ⟨m, b, q, e, c, v, rfl⟩ := portStep_disp_frame h
    and_intros <;> rfl

/-! ## The stream's registers -/

/-- The registers of the engine that only `PREPARE` writes (R24, R143). -/
def keepsStream (s t : State) : Prop := t.E.prepared = s.E.prepared ∧ t.E.sr = s.E.sr ∧ t.E.maxBlk = s.E.maxBlk

theorem keepsStream_of_E {s t : State} (h : t.E = s.E) : keepsStream s t := by
  simp [keepsStream, h]

section
variable {s t : State}

/-! What the AUDIO commands can do, for each of them that has more than one outcome. -/

theorem execReset_next {target : ResetTarget} (h : execReset target s = .next t) :
    t = s.raise .invalidParam ∨ ∃ sel, t = s.withBands { s.bands with fs := fsZero s.bands.fs sel } := by
  unfold execReset at h
  split at h <;> cases h
  · exact .inr ⟨_, rfl⟩
  · exact .inl rfl

theorem execWriteIn_next {ch n : Nat} {v : F32} (h : execWriteIn ch n v s = .next t) :
    t = s.raise .invalidParam ∨ (ch < s.dims.maxChannels ∧ n < s.dims.maxBlockCap ∧ t = memWrite .inp (sampleIx ch n) v s) := by
  unfold execWriteIn at h
  split at h <;> cases h
  · next hr =>
    simp only [sampleInRange, Bool.and_eq_true, decide_eq_true_eq] at hr
    exact .inr ⟨hr.1, hr.2, rfl⟩
  · exact .inl rfl

/-- What a read of the AUDIO port does: one word answered, with condition 1 or without (R39). -/
def answersOneWord (s t : State) : Prop := ∃ e v, t = (s.withEv e).respond .audio [v]

theorem execReadOut_next {ch n : Nat} (h : execReadOut ch n s = .next t) : answersOneWord s t := by
  unfold execReadOut at h
  split at h
  · split at h <;> cases h
    exact ⟨s.ev, _, rfl⟩
  · cases h
    exact ⟨_, _, rfl⟩

theorem execReadState_next {band ch : Nat} {tap : Tap} (h : execReadState band ch tap s = .next t) : answersOneWord s t := by
  unfold execReadState at h
  split at h <;> cases h
  · exact ⟨s.ev, _, rfl⟩
  · exact ⟨_, _, rfl⟩

theorem execReadCoef_next {band k : Nat} (h : execReadCoef band k s = .next t) : answersOneWord s t := by
  unfold execReadCoef at h
  split at h
  · cases h
    exact ⟨_, _, rfl⟩
  · split at h <;> cases h
    · exact ⟨_, _, rfl⟩
    · exact ⟨s.ev, _, rfl⟩

theorem answersOneWord.E_eq (h : answersOneWord s t) : t.E = s.E := by
  obtain ⟨e, v, rfl⟩ := h
  rfl

/-! What keeps the stream's registers. -/

theorem blockStep_keepsStream {j : Job} (h : blockStep j s = .next t) : keepsStream s t := by
  rcases blockStep_next h with ⟨f, todo, -, rfl⟩ | ⟨-, -, rfl⟩ | ⟨n, v, -, -, rfl⟩
  · simp [keepsStream, snapshotStep]
  · simp [keepsStream]
  · simp [keepsStream, captureStep]

theorem forChannels_copyThrough_E (C ns : Nat) (s : State) : (forChannels (fun c => copyThrough c ns) C s).E = s.E :=
  forChannels_keeps State.E (fun c => copyThrough c ns) (fun _ _ => rfl) C s

theorem execProcess_keepsStream {C ns : Nat} (h : execProcess C ns s = .next t) : keepsStream s t := by
  rcases execProcess_next h with rfl | ⟨-, -, -, -, rfl⟩ | ⟨-, f, todo, -, rfl⟩
  · exact keepsStream_of_E rfl
  · exact keepsStream_of_E (forChannels_copyThrough_E C ns s)
  · simp [keepsStream, snapshotStep]

/-- Of the AUDIO commands only `PREPARE` writes the stream's registers. -/
theorem exec_audio_keepsStream {i : Instr} (hl : legalOn .audio (opcodeOf i) = true) (hi : ∀ mb sr, i ≠ .prepare mb sr)
    (he : exec i s = .next t) : keepsStream s t := by
  cases i with
  | nop => cases he; exact keepsStream_of_E rfl
  | prepare mb sr => exact absurd rfl (hi mb sr)
  | process C ns => exact execProcess_keepsStream he
  | reset target => rcases execReset_next he with rfl | ⟨sel, rfl⟩ <;> exact keepsStream_of_E rfl
  | writeIn ch n v => rcases execWriteIn_next he with rfl | ⟨-, -, rfl⟩ <;> exact keepsStream_of_E rfl
  | readOut ch n => exact keepsStream_of_E (execReadOut_next he).E_eq
  | readState band ch tap => exact keepsStream_of_E (execReadState_next he).E_eq
  | readCoef band k => exact keepsStream_of_E (execReadCoef_next he).E_eq
  | _ => exact absurd hl (by simp only [opcodeOf]; decide)

/-- A port's step that does not execute `PREPARE` keeps the stream's registers. -/
theorem portStep_keepsStream {p : Port} (h : portStep p s = .next t) (hi : ∀ mb sr, nextCommand p s ≠ some (.prepare mb sr)) :
    keepsStream s t := by
  cases p with
  | ctrl =>
    obtain ⟨P, e, c, rfl⟩ := portStep_ctrl_frame h
    exact keepsStream_of_E rfl
  | disp =>
    obtain ⟨m, b, q, e, c, v, rfl⟩ := portStep_disp_frame h
    exact ⟨rfl, rfl, rfl⟩
  | audio =>
    rcases portStep_next h with ⟨j, -, -, hb⟩ | rfl | ⟨w, rest, -, -, -, ⟨-, rfl⟩ | ⟨i, hd, hnext, he⟩⟩
    · exact blockStep_keepsStream hb
    · exact keepsStream_of_E rfl
    · exact keepsStream_of_E rfl
    · have hne : ∀ mb sr, i ≠ .prepare mb sr := fun mb sr hprep => hi mb sr (hprep ▸ hnext)
      have hkeeps : keepsStream (s.setStream .audio rest) t := exec_audio_keepsStream (legalOn_of_decode hd) hne he
      exact hkeeps

/-- A port's step that executes `PREPARE` sets `E.PREPARED` (R142). -/
theorem prepared_of_portStep_prepare {p : Port} {mb : Nat} {sr : F32} (h : portStep p s = .next t)
    (hnext : nextCommand p s = some (.prepare mb sr)) (hprep : s.E.prepared = true) : t.E.prepared = true := by
  rcases portStep_next h with ⟨j, -, -, hb⟩ | rfl | ⟨w, rest, -, -, -, ⟨-, rfl⟩ | ⟨i, -, hi, he⟩⟩
  · exact (blockStep_keepsStream hb).1.trans hprep
  · exact hprep
  · exact hprep
  · obtain rfl : i = .prepare mb sr := Option.some.inj (hi.symm.trans hnext)
    cases he
    rfl

end

/-- Settles O55: `PREPARE` sets `E.PREPARED`, and every other step keeps the three registers. -/
theorem preparedIsNeverCleared : Obligations.PreparedIsNeverCleared := by
  intro s t p h
  refine ⟨fun hprep => ?_, fun hi => portStep_keepsStream h hi⟩
  by_cases hi : ∃ mb sr, nextCommand p s = some (.prepare mb sr)
  · obtain ⟨mb, sr, hnext⟩ := hi
    exact prepared_of_portStep_prepare h hnext hprep
  · exact (portStep_keepsStream h fun mb sr hnext => hi ⟨mb, sr, hnext⟩).1.trans hprep

/-! ## The ranges of the parameter store -/

theorem fle_iff (a b : F32) : fle a b = true ↔ fIsNaN a = false ∧ fIsNaN b = false ∧ fOrd a ≤ fOrd b := by
  simp [fle, and_assoc]

/-- A clamp of a value that is no NaN lies between its bounds (R12). -/
theorem inRange_clampF {v lo hi : F32} (hv : fIsNaN v = false) (hb : fle lo hi = true) : inRange (clampF v lo hi) lo hi = true := by
  obtain ⟨hlo, hhi, hle⟩ := (fle_iff lo hi).1 hb
  rw [inRange, Bool.and_eq_true, fle_iff, fle_iff]
  unfold clampF
  split
  · exact ⟨⟨hlo, hlo, le_rfl⟩, hlo, hhi, hle⟩
  · next hvlo =>
    split
    · exact ⟨⟨hlo, hhi, hle⟩, hhi, hhi, le_rfl⟩
    · next hvhi =>
      simp only [flt_iff, hv, hlo, hhi, true_and, not_lt] at hvlo hvhi
      exact ⟨⟨hlo, hv, hvlo⟩, hv, hhi, hvhi⟩

/-- A legal store, field by field. -/
theorem Params.legal_iff (P : Params) : P.legal ↔
    (∀ i : Fin 10, inRange P.freq[i] freqMin freqMax = true) ∧ (∀ i : Fin 10, inRange P.q[i] qMin qMax = true) ∧
    (∀ i : Fin 10, inRange P.gain[i] gainMin gainMax = true) ∧ fIsNaN P.globalGain = false ∧
    inRange P.mix posZero fOne = true := by
  constructor
  · exact fun h => ⟨fun i => h (.freq i), fun i => h (.q i), fun i => h (.gain i), h .globalGain, h .mix⟩
  · rintro ⟨hfreq, hq, hgain, hglobal, hmix⟩ f
    cases f with
    | freq i => exact hfreq i
    | q i => exact hq i
    | gain i => exact hgain i
    | globalGain => exact hglobal
    | mix => exact hmix
    | _ => trivial

/-- A field's slot holds a word of its range when the word stored is one, and the slot held one if it is another slot. -/
theorem inRange_getElem_set {x : Vector F32 10} {v lo hi : F32} {i j : Fin 10} (hx : j ≠ i → inRange x[j] lo hi = true)
    (hv : inRange v lo hi = true) : inRange (x.set i v)[j] lo hi = true := by
  by_cases hji : j = i
  · simpa [hji] using hv
  · have hval : i.val ≠ j.val := fun h => hji (Fin.ext h.symm)
    simpa [hval] using hx hji

/-- A field stays within its range when some of its slots get defaults of the range. -/
theorem inRange_getElem_staged {x : Vector F32 10} {lo hi : F32} {d : Fin 10 → F32} {c : Fin 10 → Prop} [DecidablePred c]
    (hx : ∀ j : Fin 10, inRange x[j] lo hi = true) (hd : ∀ j, inRange (d j) lo hi = true) (j : Fin 10) :
    inRange (Vector.ofFn fun i => if c i then d i else x[i])[j] lo hi = true := by
  have hj : (Vector.ofFn fun i => if c i then d i else x[i])[j] = if c j then d j else x[j] := by simp
  rw [hj]
  split
  · exact hd j
  · exact hx j

section
variable {P : Params} (h : P.legal)
include h

theorem legal_putType (i : Fin 10) (ty : FilterType) : (putType P i ty).legal :=
  (Params.legal_iff _).2 ((Params.legal_iff P).1 h)

theorem legal_putFreq (i : Fin 10) {v : F32} (hv : inRange v freqMin freqMax = true) : (putFreq P i v).legal := by
  obtain ⟨hfreq, hrest⟩ := (Params.legal_iff P).1 h
  exact (Params.legal_iff _).2 ⟨fun j => inRange_getElem_set (fun _ => hfreq j) hv, hrest⟩

theorem legal_putQ (i : Fin 10) {v : F32} (hv : inRange v qMin qMax = true) : (putQ P i v).legal := by
  obtain ⟨hfreq, hq, hrest⟩ := (Params.legal_iff P).1 h
  exact (Params.legal_iff _).2 ⟨hfreq, fun j => inRange_getElem_set (fun _ => hq j) hv, hrest⟩

theorem legal_putGain (i : Fin 10) {v : F32} (hv : inRange v gainMin gainMax = true) : (putGain P i v).legal := by
  obtain ⟨hfreq, hq, hgain, hrest⟩ := (Params.legal_iff P).1 h
  exact (Params.legal_iff _).2 ⟨hfreq, hq, fun j => inRange_getElem_set (fun _ => hgain j) hv, hrest⟩

/-- The defaults of the staged slots are those of power-on (R32, R138). -/
theorem legal_stageCount (n : Fin 11) : (stageCount n P).legal := by
  obtain ⟨hfreq, hq, hgain, hrest⟩ := (Params.legal_iff P).1 h
  obtain ⟨hdfreq, hdq, hdgain, -⟩ := (Params.legal_iff _).1 params_powerOn_legal
  simp only [Params.powerOn, Fin.getElem_fin, Vector.getElem_replicate] at hdq hdgain
  exact (Params.legal_iff _).2
    ⟨inRange_getElem_staged hfreq hdfreq, inRange_getElem_staged hq hdq, inRange_getElem_staged hgain hdgain, hrest⟩

end

section
variable {s t : State}

/-- A band write keeps a legal store where storing a value of the range does (R128). -/
theorem legal_bandWrite {put : Params → Fin 10 → F32 → Params} {lo hi : F32} (hb : fle lo hi = true) (h : s.P.legal)
    (hput : ∀ (i : Fin 10) {v : F32}, inRange v lo hi = true → (put s.P i v).legal) (idx : Nat) (v : F32) :
    (bandWrite put idx v lo hi s).P.legal := by
  unfold bandWrite
  split
  · exact h
  · next i _ =>
    split
    · exact h
    · next hv => exact hput i (inRange_clampF (Bool.eq_false_of_not_eq_true hv) hb)

theorem exec_ctrl_legal {i : Instr} (hl : legalOn .ctrl (opcodeOf i) = true) (h : s.P.legal) (he : exec i s = .next t) :
    t.P.legal := by
  cases i with
  | nop => cases he; exact h
  | getStatus => cases he; exact h
  | clearStatus mask => cases he; exact h
  | setBandType band code =>
    simp only [exec, execSetBandType] at he
    split at he <;> cases he
    · exact legal_putType h _ _
    · exact h
  | setBandFreq band v => cases he; exact legal_bandWrite (by decide) h (legal_putFreq h) band v
  | setBandQ band v => cases he; exact legal_bandWrite (by decide) h (legal_putQ h) band v
  | setBandGain band v => cases he; exact legal_bandWrite (by decide) h (legal_putGain h) band v
  | setGlobalGain v =>
    obtain ⟨hfreq, hq, hgain, -, hmix⟩ := (Params.legal_iff _).1 h
    simp only [exec, execSetGlobalGain] at he
    split at he <;> cases he
    · exact h
    · next hv => exact (Params.legal_iff _).2 ⟨hfreq, hq, hgain, Bool.eq_false_of_not_eq_true hv, hmix⟩
  | setMix v =>
    obtain ⟨hfreq, hq, hgain, hglobal, -⟩ := (Params.legal_iff _).1 h
    simp only [exec, execSetMix] at he
    split at he <;> cases he
    · exact h
    · next hv =>
      exact (Params.legal_iff _).2
        ⟨hfreq, hq, hgain, hglobal, inRange_clampF (Bool.eq_false_of_not_eq_true hv) (by decide)⟩
  | setBypass v => cases he; exact (Params.legal_iff _).2 ((Params.legal_iff _).1 h)
  | setAnalyzerEn v => cases he; exact (Params.legal_iff _).2 ((Params.legal_iff _).1 h)
  | setBandCount n => cases he; exact legal_stageCount h _
  | _ => exact absurd hl (by simp only [opcodeOf]; decide)

/-- A port's step keeps a legal store: the CTRL commands clamp what they store, the other ports do not store. -/
theorem portStep_legal {p : Port} (h : s.P.legal) (hs : portStep p s = .next t) : t.P.legal := by
  cases p with
  | audio => rw [(portStep_audioKeeps hs).1]; exact h
  | disp => obtain ⟨m, b, q, e, c, v, rfl⟩ := portStep_disp_frame hs; exact h
  | ctrl =>
    rcases portStep_next hs with ⟨j, hp, -, -⟩ | rfl | ⟨w, rest, -, -, -, ⟨-, rfl⟩ | ⟨i, hd, -, he⟩⟩
    · cases hp
    · exact h
    · exact h
    · exact exec_ctrl_legal (s := s.setStream .ctrl rest) (legalOn_of_decode hd) h he

/-- What the environment's choices, the ports' steps and the host's actions keep, every step keeps. -/
theorem step_keeps {I : State → Prop} (henv : ∀ u e, I u → I (u.withEnv e))
    (hport : ∀ p u v, I u → portStep p u = .next v → I v) (hsubmit : ∀ p w u, I u → I (hostSubmit p w u))
    (hdrain : ∀ p n u, I u → I (hostDrain p n u)) (h : I s) (hs : step s = .next t) : I t := by
  rcases step_cases s with h' | ⟨e, h'⟩ | ⟨p, h'⟩ | ⟨p, e, h'⟩ | ⟨p, w, e, h'⟩ | ⟨p, n, e, h'⟩ <;> rw [h'] at hs
  · cases hs; exact h
  · cases hs; exact henv s e h
  · exact hport p s t h hs
  · exact hport p _ t (henv s e h) hs
  · cases hs; exact hsubmit p w _ (henv s e h)
  · cases hs; exact hdrain p n _ (henv s e h)

end

/-- Settles O59: only the CTRL commands store to the parameter store. -/
theorem stepKeepsParametersInRange : Obligations.StepKeepsParametersInRange := fun _ _ h =>
  step_keeps (I := fun u => u.P.legal) (fun _ _ hu => hu) (fun _ _ _ => portStep_legal) (fun _ _ _ hu => hu) (fun _ _ _ hu => hu) h

/-! ## Response FIFOs -/

section
variable {s t : State}

@[simp] theorem Ports.set_get_same (x : Ports) (p : Port) : x.set p (x.get p) = x := by cases p <;> rfl

theorem ports_respond_nil (p : Port) (s : State) : (s.respond p []).ports = s.ports := by
  rw [State.respond_ports, List.append_nil]
  exact Ports.set_get_same s.ports p

@[simp] theorem bandWrite_ports (put : Params → Fin 10 → F32 → Params) (idx : Nat) (v lo hi : F32) (s : State) :
    (bandWrite put idx v lo hi s).ports = s.ports := by
  obtain ⟨P, e, h, -⟩ := bandWrite_frame put idx v lo hi s
  rw [h]

theorem forChannels_copyThrough_ports (C ns : Nat) (s : State) : (forChannels (fun c => copyThrough c ns) C s).ports = s.ports :=
  forChannels_keeps State.ports (fun c => copyThrough c ns) (fun _ _ => rfl) C s

theorem blockStep_ports {j : Job} (h : blockStep j s = .next t) : t.ports = s.ports := by
  rcases blockStep_next h with ⟨f, todo, -, rfl⟩ | ⟨-, -, rfl⟩ | ⟨n, v, -, -, rfl⟩
  · simp [snapshotStep]
  · simp
  · simp [captureStep]

theorem execProcess_ports {C ns : Nat} (h : execProcess C ns s = .next t) : t.ports = s.ports := by
  rcases execProcess_next h with rfl | ⟨-, -, -, -, rfl⟩ | ⟨-, f, todo, -, rfl⟩
  · rfl
  · exact forChannels_copyThrough_ports C ns s
  · simp [snapshotStep]

/-- `i` appends exactly its number of words to its own port's FIFO and leaves all else of the ports as it is (R54, R58). -/
def responds (i : Instr) (s t : State) : Prop :=
  ∃ ws, ws.length = respCount i s ∧ t.ports = (s.respond (portOf i) ws).ports

theorem responds_of_silent {i : Instr} (h0 : respCount i s = 0) (h : t.ports = s.ports) : responds i s t :=
  ⟨[], h0.symm, h.trans (ports_respond_nil _ s).symm⟩

theorem answersOneWord.ports_eq (h : answersOneWord s t) : ∃ v, t.ports = (s.respond .audio [v]).ports := by
  obtain ⟨e, v, rfl⟩ := h
  exact ⟨v, rfl⟩

theorem responds_of_audio_word {i : Instr} (hp : portOf i = .audio) (h1 : respCount i s = 1) {v : Response}
    (h : t.ports = (s.respond .audio [v]).ports) : responds i s t :=
  ⟨[v], h1.symm, hp ▸ h⟩

/-- A command that completes answers as the opcode table says. -/
theorem exec_responds {i : Instr} (h : exec i s = .next t) : responds i s t := by
  cases i with
  | nop => cases h; exact responds_of_silent rfl rfl
  | setBandType band code =>
    simp only [exec, execSetBandType] at h
    split at h <;> cases h <;> exact responds_of_silent rfl rfl
  | setBandFreq band v => cases h; exact responds_of_silent rfl (bandWrite_ports ..)
  | setBandQ band v => cases h; exact responds_of_silent rfl (bandWrite_ports ..)
  | setBandGain band v => cases h; exact responds_of_silent rfl (bandWrite_ports ..)
  | setGlobalGain v =>
    simp only [exec, execSetGlobalGain] at h
    split at h <;> cases h <;> exact responds_of_silent rfl rfl
  | setMix v =>
    simp only [exec, execSetMix] at h
    split at h <;> cases h <;> exact responds_of_silent rfl (by simp)
  | setBypass v => cases h; exact responds_of_silent rfl rfl
  | setAnalyzerEn v => cases h; exact responds_of_silent rfl rfl
  | setBandCount n => cases h; exact responds_of_silent rfl (by simp)
  | getStatus => cases h; exact ⟨_, rfl, rfl⟩
  | clearStatus mask => cases h; exact responds_of_silent rfl rfl
  | prepare mb sr => cases h; exact responds_of_silent rfl (by simp [prepareState])
  | process C ns => exact responds_of_silent rfl (execProcess_ports h)
  | reset target => rcases execReset_next h with rfl | ⟨sel, rfl⟩ <;> exact responds_of_silent rfl rfl
  | writeIn ch n v => rcases execWriteIn_next h with rfl | ⟨-, -, rfl⟩ <;> exact responds_of_silent rfl rfl
  | readOut ch n =>
    obtain ⟨v, hv⟩ := (execReadOut_next h).ports_eq
    exact responds_of_audio_word (by simp only [portOf, opcodeOf]; decide) rfl hv
  | readState band ch tap =>
    obtain ⟨v, hv⟩ := (execReadState_next h).ports_eq
    exact responds_of_audio_word (by simp only [portOf, opcodeOf]; decide) rfl hv
  | readCoef band k =>
    obtain ⟨v, hv⟩ := (execReadCoef_next h).ports_eq
    exact responds_of_audio_word (by simp only [portOf, opcodeOf]; decide) rfl hv
  | analyze =>
    simp only [exec, execAnalyze] at h
    split at h <;> cases h
    · exact responds_of_silent rfl (by split <;> simp [publish])
    · exact responds_of_silent rfl rfl
  | getSpectrum =>
    simp only [exec, execGetSpectrum] at h
    split at h <;> cases h
    · next hv =>
      have hlen : (snapshotWords s).length = 2 + s.dims.window / 2 := by simp [snapshotWords]; omega
      exact ⟨snapshotWords s, by simp only [respCount, hv, if_true, hlen], rfl⟩
    · next hv => exact ⟨[0#32], by simp [respCount, hv], rfl⟩

/-- FIFOs that fit go on fitting when what a port appends fits. -/
theorem fifosFit_respond (h : s.fifosFit) {p : Port} {ws : List Response}
    (hroom : (s.ports.get p).resp.length + ws.length ≤ s.dims.respDepth) : (s.respond p ws).fifosFit := by
  intro q
  simp only [State.respond_ports, State.respond_dims, Ports.get_set]
  split
  · simpa using hroom
  · exact h q

theorem exec_dims {p : Port} {i : Instr} (hl : legalOn p (opcodeOf i) = true) (he : exec i s = .next t) : t.dims = s.dims := by
  cases p with
  | ctrl => obtain ⟨P, e, c, rfl⟩ := exec_ctrl_frame hl he; rfl
  | audio =>
    obtain ⟨-, -, -, hdims, -⟩ := exec_audio_frame hl he
    exact hdims
  | disp => obtain ⟨m, b, q, e, c, v, rfl, -⟩ := exec_disp_frame hl he; rfl

/-- A command whose answer fits keeps the FIFOs within their depth (R31). -/
theorem exec_fifosFit {p : Port} {i : Instr} (hl : legalOn p (opcodeOf i) = true) (h : s.fifosFit)
    (hroom : (s.ports.get (portOf i)).resp.length + respCount i s ≤ s.dims.respDepth) (he : exec i s = .next t) :
    t.fifosFit := by
  obtain ⟨ws, hws, hports⟩ := exec_responds he
  have hfit := fifosFit_respond h (p := portOf i) (ws := ws) (hws ▸ hroom)
  unfold State.fifosFit
  rw [hports, exec_dims hl he]
  exact hfit

end

/-! ## Words that stay written, and where they lie -/

theorem memWrite_eq_memWriteRow (sp : Space) (k : Nat) (v : F32) (s : State) : memWrite sp k v s = memWriteRow sp k [v] s := rfl

/-- A row of writes leaves no word without a value that had one. -/
theorem isSome_memRead_memWriteRow {s : State} {tp : Space} {j : Nat} (h : (memRead s tp j).isSome = true) (sp : Space) (k : Nat)
    (vs : List F32) : (memRead (memWriteRow sp k vs s) tp j).isSome = true := by
  rw [memRead_memWriteRow]
  split
  · next hj =>
    have hlt : j - k < vs.length := by omega
    simp [hlt]
  · exact h

/-- An index of a space (R34, R35). -/
def Space.holds (d : Dims) : Space → Nat → Prop
  | .inp, k => sampleIndex d k
  | .out, k => sampleIndex d k
  | .dry, k => sampleIndex d k
  | .cap, k => k < d.window
  | .spec, k => k < d.window / 2

theorem State.memInRange_iff (s : State) : s.memInRange ↔
    (∀ sp, ∀ e ∈ s.mem.get sp, Space.holds s.dims sp e.1) ∧ ∀ e ∈ s.bands.fs, tapIndex s.dims e.1 := by
  constructor
  · rintro ⟨hinp, hout, hdry, hcap, hspec, hfs⟩
    refine ⟨fun sp => ?_, hfs⟩
    cases sp with
    | inp => exact hinp
    | out => exact hout
    | dry => exact hdry
    | cap => exact hcap
    | spec => exact hspec
  · rintro ⟨h, hfs⟩
    exact ⟨h .inp, h .out, h .dry, h .cap, h .spec, hfs⟩

theorem memInRange_memWriteRow {s : State} (h : s.memInRange) {sp : Space} {k : Nat} {vs : List F32}
    (hr : ∀ j, k ≤ j → j < k + vs.length → Space.holds s.dims sp j) : (memWriteRow sp k vs s).memInRange := by
  obtain ⟨hmem, hfs⟩ := s.memInRange_iff.1 h
  refine (State.memInRange_iff _).2 ⟨fun tp e he => ?_, hfs⟩
  simp only [memWriteRow, State.withMem_mem, Mems.get_set] at he
  split at he
  · next htp =>
    subst htp
    rcases Memory.mem_writeRow _ _ _ _ he with ⟨hle, hlt⟩ | he
    · exact hr e.1 hle hlt
    · exact hmem tp e he
  · exact hmem tp e he

/-- The row of a channel of the block lies in its sample memory. -/
theorem sampleIndex_of_row {d : Dims} {c ns j : Nat} (hc : c < d.maxChannels) (hn : ns ≤ d.maxBlockCap) (hle : sampleIx c 0 ≤ j)
    (hlt : j < sampleIx c 0 + ns) : sampleIndex d j :=
  ⟨c, j - sampleIx c 0, hc, by omega, by simp only [sampleIx] at hle ⊢; omega⟩

/-- A block stays at its place when the snapshot is kept and the words of `OUT` stay written. -/
theorem phaseOk_of_kept {s t : State} {j : Job} (h : phaseOk s j) (hS : t.S = s.S)
    (hout : ∀ k, (memRead s .out k).isSome = true → (memRead t .out k).isSome = true) : phaseOk t j := by
  unfold phaseOk at h ⊢
  split at h
  · rw [hS]; exact h
  · obtain ⟨hn, hC, hw⟩ := h
    exact ⟨hn, hC, fun m hm => hout _ (hw m hm)⟩

/-! ## The invariant under the operations on the state -/

theorem clampNat_le {lo hi : Nat} (hle : lo ≤ hi) (v : Nat) : clampNat v lo hi ≤ hi := by
  unfold clampNat
  split_ifs <;> omega

section
variable {s : State} (h : s.Inv)
include h

theorem inv_withEnv (e : Env) : (s.withEnv e).Inv := { h with }

theorem inv_raise (c : Cond) : (s.raise c).Inv := { h with }

theorem inv_memWriteRow {sp : Space} {k : Nat} {vs : List F32}
    (hr : ∀ j, k ≤ j → j < k + vs.length → Space.holds s.dims sp j) : (memWriteRow sp k vs s).Inv :=
  { h with
    canonical := memCanonical_memWriteRow sp k vs s h.canonical
    inRange := memInRange_memWriteRow h.inRange hr
    snapshot := fun hv j hj => isSome_memRead_memWriteRow (h.snapshot hv j hj) sp k vs
    job := fun j hj => by
      obtain ⟨hprep, hC, hn, hphase⟩ := h.job j hj
      exact ⟨hprep, hC, hn, phaseOk_of_kept hphase rfl fun i hi => isSome_memRead_memWriteRow hi sp k vs⟩ }

/-- The engine registers that `PREPARE` does not own may change, within their ranges. -/
theorem inv_withE {E : Engine} (hprep : E.prepared = s.E.prepared) (hsr : E.sr = s.E.sr) (hmb : E.maxBlk = s.E.maxBlk)
    (hwp : E.wp < s.dims.window) (hsnap : E.snapValid = true → ∀ k, k < s.dims.window / 2 → (memRead s .spec k).isSome = true) :
    (s.withE E).Inv :=
  { h with
    cursor := hwp
    blockLimit := by rw [State.withE_E, hmb]; exact h.blockLimit
    snapshot := hsnap
    coefs := fun i hi => by rw [State.withE_E, hsr]; exact h.coefs i hi
    job := fun j hj => by
      obtain ⟨hp, hC, hn, hphase⟩ := h.job j hj
      exact ⟨hprep.trans hp, hC, hn.trans hmb.ge, hphase⟩ }

theorem inv_withBands {b : Bands} (hwf : b.fs.wf (some posZero)) (hfs : ∀ e ∈ b.fs, tapIndex s.dims e.1)
    (hcoef : (s.withBands b).coefsTrue) : (s.withBands b).Inv :=
  { h with
    canonical := ⟨h.canonical.1, hwf⟩
    inRange := (State.memInRange_iff _).2 ⟨(s.memInRange_iff.1 h.inRange).1, hfs⟩
    coefs := hcoef }

theorem tapIndex_of_mem_fs : ∀ e ∈ s.bands.fs, tapIndex s.dims e.1 := (s.memInRange_iff.1 h.inRange).2

/-- Zeroing delay registers lists no more of them. -/
theorem tapIndex_fsZero_of_inv (sel : Nat → Nat → Bool) : ∀ e ∈ fsZero s.bands.fs sel, tapIndex s.dims e.1 :=
  fun e he => tapIndex_of_mem_fs h e (List.mem_filter.1 he).1

theorem inv_withJob {x : Option Job}
    (hx : ∀ j, x = some j → s.E.prepared = true ∧ j.numCh ≤ s.dims.maxChannels ∧ j.numSamples ≤ s.E.maxBlk ∧ phaseOk s j) :
    (s.withJob x).Inv :=
  { h with job := hx }

/-- What every channel's step keeps, on the channels and the block sizes there are, a loop over channels keeps. -/
theorem inv_forChannels {f : Nat → State → State} {C ns : Nat} (hdims : ∀ c u, (f c u).dims = u.dims)
    (hf : ∀ c u, c < u.dims.maxChannels → ns ≤ u.dims.maxBlockCap → u.Inv → (f c u).Inv)
    (hC : C ≤ s.dims.maxChannels) (hn : ns ≤ s.dims.maxBlockCap) : (forChannels f C s).Inv := by
  refine (forChannels_preserves (fun u => u.Inv ∧ u.dims = s.dims) f C (fun c u hc hu => ?_) s ⟨h, rfl⟩).1
  obtain ⟨hinv, hd⟩ := hu
  exact ⟨hf c u (by rw [hd]; omega) (by rw [hd]; exact hn) hinv, (hdims c u).trans hd⟩

/-! The steps of a block -/

theorem inv_dryCopy {c ns : Nat} (hc : c < s.dims.maxChannels) (hn : ns ≤ s.dims.maxBlockCap) : (dryCopy c ns s).Inv :=
  inv_memWriteRow h fun _ hle hlt => sampleIndex_of_row hc hn hle (by simpa using hlt)

theorem inv_copyThrough {c ns : Nat} (hc : c < s.dims.maxChannels) (hn : ns ≤ s.dims.maxBlockCap) : (copyThrough c ns s).Inv :=
  inv_memWriteRow h fun _ hle hlt => sampleIndex_of_row hc hn hle (by simpa using hlt)

/-- The cascade lists delay registers of its own channel only. -/
theorem tapIndex_of_mem_chainProcess {c : Nat} (hc : c < s.dims.maxChannels) (bands : List (Fin 10)) (buf : List F32) :
    ∀ e ∈ (chainProcess s.bands.coef c bands buf s.bands.fs).2, tapIndex s.dims e.1 := by
  intro e he
  rcases mem_chainProcess _ _ _ _ _ he with he | ⟨i, -, tap, hi⟩
  · exact tapIndex_of_mem_fs h e he
  · exact ⟨i, c, tap, i.isLt, hc, hi⟩

theorem inv_filterChannel {c ns : Nat} (g : F32) (hc : c < s.dims.maxChannels) (hn : ns ≤ s.dims.maxBlockCap) :
    (filterChannel ns g c s).Inv := by
  have hfs : (s.withBands (filterChannel ns g c s).bands).Inv :=
    inv_withBands h (wf_chainProcess _ _ _ _ _ h.canonical.2) (tapIndex_of_mem_chainProcess h hc _ _) h.coefs
  unfold filterChannel mixBlock
  refine inv_memWriteRow hfs fun j hle hlt => sampleIndex_of_row hc hn hle ?_
  simpa using hlt

theorem inv_bandCountUpdate : (bandCountUpdate s).Inv := by
  have hcoef : (s.withBands (bandCountUpdate s).bands).coefsTrue := by
    intro i hi
    rw [State.withBands_bands, bandCountUpdate_valid, Bool.and_eq_true] at hi
    exact h.coefs i hi.1
  have hbands : (s.withBands (bandCountUpdate s).bands).Inv := by
    refine inv_withBands h ?_ ?_ hcoef <;> rw [bandCountUpdate_fs]
    · exact wf_fsZero _ _ h.canonical.2
    · exact tapIndex_fsZero_of_inv h _
  exact inv_withE hbands rfl rfl rfl h.cursor h.snapshot

/-- A band's new coefficients are those of its new key, at the block's sample rate (R90). -/
theorem coefsTrue_updateCoefficients (i : Fin 10) : (updateCoefficients i s).coefsTrue := by
  obtain ⟨b, hb, -⟩ := updateCoefficients_frame s i
  have hsr : (updateCoefficients i s).E.sr = s.E.sr := by rw [hb]; rfl
  intro j hj
  obtain ⟨hcoef, hused, hvalid⟩ := updateCoefficients_band s i j
  rw [hcoef, hused, hsr]
  rw [hvalid] at hj
  by_cases hji : j = i
  · subst hji
    cases hfresh : bandFresh s j with
    | false => simp [bandKey]
    | true =>
      obtain ⟨hv, hkey⟩ : s.bands.valid[j] = true ∧ s.bands.used[j] = bandKey s j := by simpa [bandFresh] using hfresh
      simpa [hkey] using h.coefs j hv
  · rw [if_neg hji] at hj
    simpa [hji] using h.coefs j hj

theorem inv_updateCoefficients (i : Fin 10) : (updateCoefficients i s).Inv := by
  have hcoef := coefsTrue_updateCoefficients h i
  obtain ⟨b, hb, hfs⟩ := updateCoefficients_frame s i
  rw [hb] at hcoef ⊢
  exact inv_withBands h (hfs ▸ h.canonical.2) (hfs ▸ tapIndex_of_mem_fs h) hcoef

theorem inv_updateAll (is : List (Fin 10)) : (updateAll is s).Inv := by
  induction is generalizing s with
  | nil => exact h
  | cons i is ih => exact ih (inv_updateCoefficients h i)

theorem inv_computeBlock {C ns : Nat} (hC : C ≤ s.dims.maxChannels) (hn : ns ≤ s.dims.maxBlockCap) :
    (computeBlock C ns s).Inv := by
  have hbands : (bandsUpdated s).Inv := inv_updateAll (inv_bandCountUpdate h) _
  have hdims : (bandsUpdated s).dims = s.dims := by simp [bandsUpdated]
  have hdry : (forChannels (fun c => dryCopy c ns) C (bandsUpdated s)).Inv :=
    inv_forChannels hbands (fun _ _ => rfl) (fun _ _ hc hn hu => inv_dryCopy hu hc hn) (hdims ▸ hC) (hdims ▸ hn)
  have hdims' : (forChannels (fun c => dryCopy c ns) C (bandsUpdated s)).dims = s.dims :=
    (forChannels_keeps State.dims (fun c => dryCopy c ns) (fun _ _ => rfl) C _).trans hdims
  rw [computeBlock_eq]
  split
  · exact inv_forChannels hdry (fun _ _ => rfl) (fun _ _ hc hn hu => inv_copyThrough hu hc hn) (hdims' ▸ hC) (hdims' ▸ hn)
  · exact inv_forChannels hdry (fun _ _ => rfl) (fun _ _ hc hn hu => inv_filterChannel hu _ hc hn) (hdims' ▸ hC) (hdims' ▸ hn)

theorem inv_captureStep (v : F32) : (captureStep v s).Inv := by
  have hcap : (memWrite .cap s.E.wp v s).Inv := by
    rw [memWrite_eq_memWriteRow]
    refine inv_memWriteRow h fun j hle hlt => ?_
    have hj : j = s.E.wp := by simp only [List.length_singleton] at hlt; omega
    rw [hj]
    exact h.cursor
  exact inv_withE hcap rfl rfl rfl (Nat.mod_lt _ (window_pos h.dims)) hcap.snapshot

end

/-! ## The steps of a block keep the invariant -/

/-- Copying one field of a legal store makes that field legal and leaves the others as they are. -/
theorem fieldLegal_copyField {src dst : Params} (hsrc : src.legal) {f g : PField} (hg : g ≠ f → fieldLegal dst g) :
    fieldLegal (copyField src dst f) g := by
  cases g with
  | freq i =>
    cases f with
    | freq j => exact inRange_getElem_set (fun hne => hg fun e => hne (PField.freq.inj e)) (hsrc (.freq j))
    | _ => exact hg nofun
  | q i =>
    cases f with
    | q j => exact inRange_getElem_set (fun hne => hg fun e => hne (PField.q.inj e)) (hsrc (.q j))
    | _ => exact hg nofun
  | gain i =>
    cases f with
    | gain j => exact inRange_getElem_set (fun hne => hg fun e => hne (PField.gain.inj e)) (hsrc (.gain j))
    | _ => exact hg nofun
  | globalGain =>
    cases f with
    | globalGain => exact hsrc .globalGain
    | _ => exact hg nofun
  | mix =>
    cases f with
    | mix => exact hsrc .mix
    | _ => exact hg nofun
  | _ => trivial

/-- After the compute step the `OUT` words of the block are written. -/
theorem isSome_memRead_out_computeBlock {C ns c n : Nat} (s : State) (hns : ns ≤ 65535) (hc : c < C) (hn : n < ns) :
    (memRead (computeBlock C ns s) .out (sampleIx c n)).isSome = true := by
  have hdiv : sampleIx c n / 65536 = c := by simp only [sampleIx]; omega
  have hmod : sampleIx c n % 65536 = n := by simp only [sampleIx]; omega
  rw [computeBlock_eq]
  split
  · rw [memRead_forChannels_rows .out (fun c => copyThrough c ns) (fun c s => inRow s c ns) ns (by omega)
      (fun _ _ => rfl) (fun _ _ => inRow_length ..)]
    simp [hdiv, hmod, hc, hn]
  · rw [memRead_forChannels_rows .out _ (fun c s => mixedRow c ns s _) ns (by omega) (fun _ _ => filterChannel_mem ..)
      (fun _ _ => mixedRow_length ..)]
    simp [hdiv, hmod, hc, hn]

section
variable {s t : State} (h : s.Inv)
include h

theorem inv_snapshotStep {C ns : Nat} {f : PField} {todo : List PField} (hprep : s.E.prepared = true)
    (hC : C ≤ s.dims.maxChannels) (hn : ns ≤ s.E.maxBlk) (hphase : ∀ g, g ∈ f :: todo ∨ fieldLegal s.S g) :
    (snapshotStep C ns f todo s).Inv := by
  obtain ⟨e, he, -⟩ := snapshotStep_frame C ns f todo s
  have hphase' : ∀ g, g ∈ (f :: todo).erase (pickField s f todo) ∨ fieldLegal (copyField s.P s.S (pickField s f todo)) g := by
    intro g
    by_cases hg : g = pickField s f todo
    · exact .inr (fieldLegal_copyField h.params fun hne => absurd hg hne)
    · exact (hphase g).imp (List.mem_erase_of_ne hg).2 fun hl => fieldLegal_copyField h.params fun _ => hl
  rw [he]
  exact { h with job := fun j hj => by cases hj; exact ⟨hprep, hC, hn, hphase'⟩ }

/-- The block that goes on to its captures has written what they read. -/
theorem inv_computeStep {C ns : Nat} (hprep : s.E.prepared = true) (hC : C ≤ s.dims.maxChannels) (hn : ns ≤ s.E.maxBlk) :
    ((computeBlock C ns s).withJob (afterCompute C ns s)).Inv := by
  have hcap : ns ≤ s.dims.maxBlockCap := hn.trans h.blockLimit
  obtain ⟨-, ⟨-, hcap'⟩, -⟩ := h.dims
  refine inv_withJob (inv_computeBlock h hC hcap) fun j hj => ?_
  unfold afterCompute at hj
  split at hj
  · next hcond =>
    obtain ⟨⟨-, hC1⟩, hns1⟩ : (s.S.analyzerEn = true ∧ 1 ≤ C) ∧ 1 ≤ ns := by simpa using hcond
    cases hj
    refine ⟨by simpa using hprep, by simpa using hC, by simpa using hn, hns1, hC1, fun m hm => ?_⟩
    exact isSome_memRead_out_computeBlock s (by omega) hC1 hm
  · cases hj

/-- A block in progress keeps the invariant, at each of its places (R41). -/
theorem inv_blockStep {j : Job} (hj : s.job = some j) (hs : blockStep j s = .next t) : t.Inv := by
  obtain ⟨hprep, hC, hn, hphase⟩ := h.job j hj
  rcases blockStep_next hs with ⟨f, todo, hp, rfl⟩ | ⟨-, -, rfl⟩ | ⟨n, v, hp, -, rfl⟩
  · simp only [phaseOk, hp] at hphase
    exact inv_snapshotStep h hprep hC hn hphase
  · exact inv_computeStep h hprep hC hn
  · simp only [phaseOk, hp] at hphase
    obtain ⟨-, hC1, hwritten⟩ := hphase
    refine inv_withJob (inv_captureStep h v) fun k hk => ?_
    split at hk
    · next hlt => cases hk; exact ⟨hprep, hC, hn, hlt, hC1, hwritten⟩
    · cases hk

/-! ## The commands keep the invariant -/

theorem inv_raiseIf (b : Bool) (c : Cond) : (s.raiseIf b c).Inv := by
  cases b
  · exact h
  · exact inv_raise h c

theorem inv_prepareState {mb : Nat} {sr : F32} (hmb : mb ≤ s.dims.maxBlockCap) (hjob : s.job = none) :
    (prepareState mb sr s).Inv := by
  obtain ⟨hinp, hout, hdry, -, hspec, -⟩ := h.inRange
  have hwf : ∀ sp, Memory.wf (Space.background sp) ((s.mem.set .cap []).get sp) := fun sp => by
    rw [Mems.get_set]
    split
    · exact Memory.wf_nil _
    · exact h.canonical.1 sp
  exact
    { h with
      canonical := ⟨hwf, Memory.wf_nil _⟩
      inRange := ⟨hinp, hout, hdry, by simp [prepareState, Mems.set], hspec, by simp [prepareState]⟩
      cursor := window_pos h.dims
      blockLimit := hmb
      snapshot := fun hv => nomatch hv
      coefs := fun i hi => by simp [prepareState] at hi
      job := fun j hj => nomatch hjob.symm.trans hj }

theorem inv_execProcess {C ns : Nat} (hs : execProcess C ns s = .next t) : t.Inv := by
  rcases execProcess_next hs with rfl | ⟨-, hC, hcap, -, rfl⟩ | ⟨⟨hC, -, hprep, hn⟩, f, todo, hall, rfl⟩
  · exact inv_raise h _
  · exact inv_raise (inv_forChannels (f := fun c => copyThrough c ns) h (fun _ _ => rfl)
      (fun _ _ hc hn hu => inv_copyThrough hu hc hn) hC hcap) _
  · exact inv_snapshotStep h hprep hC hn fun g => .inl (hall ▸ mem_allFields g)

theorem inv_publish {B : List F32} (hB : B.length = s.dims.window / 2) : (publish B s).Inv := by
  have hspec : (memWriteRow .spec 0 B s).Inv :=
    inv_memWriteRow h fun j _ hlt => show j < s.dims.window / 2 by omega
  refine inv_withE hspec rfl rfl rfl h.cursor fun _ k hk => ?_
  rw [memWriteRow_dims] at hk
  rw [memRead_memWriteRow]
  simp [hB, hk]

theorem inv_takeDrop : s.takeDrop.Inv := by
  obtain ⟨e, he, -⟩ := takeDrop_frame s
  rw [he]
  exact { h with }

theorem inv_execAnalyze (hs : execAnalyze s = .next t) : t.Inv := by
  unfold execAnalyze at hs
  split at hs <;> cases hs
  · split
    · exact inv_raise (inv_takeDrop h) _
    · exact inv_takeDrop (inv_publish h (by simp [spectrumFn, copyWindow]))
  · exact h

theorem inv_exec_audio {i : Instr} (hl : legalOn .audio (opcodeOf i) = true) (hjob : s.job = none) (hfit : t.fifosFit)
    (he : exec i s = .next t) : t.Inv := by
  have hanswer : answersOneWord s t → t.Inv := by
    rintro ⟨e, v, rfl⟩
    exact { h with fifos := hfit }
  cases i with
  | nop => cases he; exact h
  | prepare mb sr =>
    cases he
    refine inv_prepareState (inv_raiseIf (inv_raiseIf h _ _) _ _) ?_ (by simpa using hjob)
    simpa using clampNat_le h.dims.2.1.1 mb
  | process C ns => exact inv_execProcess h he
  | reset target =>
    rcases execReset_next he with rfl | ⟨sel, rfl⟩
    · exact inv_raise h _
    · exact inv_withBands h (wf_fsZero _ _ h.canonical.2) (tapIndex_fsZero_of_inv h sel) h.coefs
  | writeIn ch n v =>
    rcases execWriteIn_next he with rfl | ⟨hch, hn, rfl⟩
    · exact inv_raise h _
    · rw [memWrite_eq_memWriteRow]
      refine inv_memWriteRow h fun j hle hlt => ⟨ch, n, hch, hn, ?_⟩
      rw [List.length_singleton] at hlt
      omega
  | readOut ch n => exact hanswer (execReadOut_next he)
  | readState band ch tap => exact hanswer (execReadState_next he)
  | readCoef band k => exact hanswer (execReadCoef_next he)
  | _ => exact absurd hl (by simp only [opcodeOf]; decide)

theorem inv_exec_disp {i : Instr} (hl : legalOn .disp (opcodeOf i) = true) (hfit : t.fifosFit) (he : exec i s = .next t) :
    t.Inv := by
  cases i with
  | nop => cases he; exact h
  | analyze => exact inv_execAnalyze h he
  | getSpectrum =>
    simp only [exec, execGetSpectrum] at he
    split at he <;> cases he <;> exact { h with fifos := hfit }
  | _ => exact absurd hl (by simp only [opcodeOf]; decide)

theorem inv_exec {p : Port} {i : Instr} (hl : legalOn p (opcodeOf i) = true) (hjob : p = .audio → s.job = none)
    (hroom : (s.ports.get (portOf i)).resp.length + respCount i s ≤ s.dims.respDepth) (he : exec i s = .next t) : t.Inv := by
  have hfit := exec_fifosFit hl h.fifos hroom he
  cases p with
  | audio => exact inv_exec_audio h hl (hjob rfl) hfit he
  | disp => exact inv_exec_disp h hl hfit he
  | ctrl =>
    have hlegal := exec_ctrl_legal hl h.params he
    obtain ⟨P, e, c, rfl⟩ := exec_ctrl_frame hl he
    exact { h with params := hlegal, fifos := hfit }

/-! ## Every step keeps the invariant -/

theorem inv_setStream (p : Port) (ws : List Command) : (s.setStream p ws).Inv := by
  refine { h with fifos := fun q => ?_ }
  simp only [State.setStream_ports, State.setStream_dims, Ports.get_set]
  split
  · exact h.fifos p
  · exact h.fifos q

theorem inv_hostDrain (p : Port) (n : Nat) : (hostDrain p n s).Inv := by
  refine { h with fifos := fun q => ?_ }
  simp only [hostDrain, State.setResp_ports, State.setResp_dims, Ports.get_set]
  split
  · exact (List.drop_sublist n _).length_le.trans (h.fifos p)
  · exact h.fifos q

/-- The room the schedule checks on a port is room on the port the command answers on. -/
theorem room_of_hasRoom {p : Port} {w : Command} {i : Instr} (hd : decode p w = .command i) (hr : hasRoom p w s = true) :
    (s.ports.get (portOf i)).resp.length + respCount i s ≤ s.dims.respDepth := by
  rcases port_of_legalOn (legalOn_of_decode hd) with rfl | rfl
  · exact h.fifos _
  · exact (hasRoom_iff_of_decode hd).1 hr

theorem inv_portStep {p : Port} (hs : portStep p s = .next t) : t.Inv := by
  rcases portStep_next hs with ⟨j, -, hj, hb⟩ | rfl | ⟨w, rest, hb, -, hr, ⟨-, rfl⟩ | ⟨i, hd, -, he⟩⟩
  · exact inv_blockStep h hj hb
  · exact h
  · exact inv_raise (inv_setStream h p rest) _
  · have hroom : hasRoom p w (s.setStream p rest) = true := by
      rw [hasRoom_iff_of_decode hd] at hr ⊢
      rw [State.setStream_ports, Ports.get_set_same]
      exact hr
    have h' := inv_setStream h p rest
    exact inv_exec h' (legalOn_of_decode hd) (blockPending_eq_none.1 hb) (room_of_hasRoom h' hd hroom) he

end

/-- Settles O60: the ports' steps and the host's actions keep the invariant, which speaks of no choice of the environment. -/
theorem stepKeepsTheInvariant : Obligations.StepKeepsTheInvariant := fun _ _ h =>
  step_keeps (fun _ e hu => inv_withEnv hu e) (fun _ _ _ hu => inv_portStep hu) (fun p _ _ hu => inv_setStream hu p _)
    (fun p n _ hu => inv_hostDrain hu p n) h

end Sys2Proof.Machine

/-! PROOFS. The sample memories, the capture window and a block run to its end (O41, O42, O48, O56, O57). -/

namespace Sys2Proof.Machine

/-! ## The window of captured samples -/

section
variable (s : State)

@[simp] theorem copyWindow_length : (copyWindow s).length = s.dims.window := by simp [copyWindow]

/-- After a capture the cursor's word is the sample, and every other word of `CAP` is as before (R116). -/
theorem capWord_captureStep (v : F32) (j : Nat) : capWord (captureStep v s) j = if j = s.E.wp then v else capWord s j := by
  have hread : memRead (captureStep v s) .cap j = memRead (memWrite .cap s.E.wp v s) .cap j := rfl
  simp only [capWord, hread, memRead_memWrite]
  by_cases hj : j = s.E.wp <;> simp [hj]

variable {s}

/-- A capture drops the oldest word of the window and puts its sample after the newest (R37, R118). -/
theorem copyWindow_captureStep (h : s.E.wp < s.dims.window) (v : F32) :
    copyWindow (captureStep v s) = (copyWindow s ++ [v]).drop 1 := by
  refine List.ext_getElem (by simp [captureStep]) fun i hi _ => ?_
  have hlt : i < s.dims.window := by simpa [captureStep] using hi
  have hleft : (copyWindow (captureStep v s))[i] =
      capWord (captureStep v s) (((s.E.wp + 1) % s.dims.window + i) % s.dims.window) := by
    simp only [copyWindow, List.getElem_map, List.getElem_range]
    rfl
  rw [hleft, capWord_captureStep, Nat.mod_add_mod, List.getElem_drop]
  by_cases hlast : i + 1 < s.dims.window
  · have hne : (s.E.wp + 1 + i) % s.dims.window ≠ s.E.wp := by
      rcases Nat.lt_or_ge (s.E.wp + 1 + i) s.dims.window with hin | hwrap
      · rw [Nat.mod_eq_of_lt hin]; omega
      · rw [Nat.mod_eq_sub_mod hwrap, Nat.mod_eq_of_lt (by omega)]; omega
    rw [if_neg hne, List.getElem_append_left (by simpa [Nat.add_comm] using hlast)]
    simp [copyWindow, Nat.add_assoc]
  · have heq : s.E.wp + 1 + i = s.E.wp + s.dims.window := by omega
    rw [heq, Nat.add_mod_right, Nat.mod_eq_of_lt h, if_pos rfl, List.getElem_append_right (by simp; omega)]
    simp

theorem captureMany_cons (v : F32) (vs : List F32) (s : State) : captureMany (v :: vs) s = captureMany vs (captureStep v s) := rfl

/-- The window after any number of captures, and how far the cursor has come (R118, R126). -/
theorem copyWindow_captureMany (h : s.E.wp < s.dims.window) (vs : List F32) :
    copyWindow (captureMany vs s) = (copyWindow s ++ vs).drop vs.length ∧
    (captureMany vs s).E.wp = (s.E.wp + vs.length) % s.dims.window := by
  induction vs generalizing s with
  | nil => simp [captureMany, Nat.mod_eq_of_lt h]
  | cons v vs ih =>
    have hpos : 0 < s.dims.window := by omega
    obtain ⟨hwin, hwp⟩ := ih (s := captureStep v s) (Nat.mod_lt _ hpos)
    constructor
    · have hdrop : (copyWindow s ++ [v]).drop 1 ++ vs = (copyWindow s ++ v :: vs).drop 1 := by
        rw [← List.drop_append_of_le_length (by simp), List.append_assoc, List.singleton_append]
      rw [copyWindow_captureStep h, hdrop, List.drop_drop, Nat.add_comm] at hwin
      exact hwin
    · refine hwp.trans ?_
      simp [captureStep, Nat.add_assoc, Nat.add_comm 1]

end

theorem captureNext_of_written {s : State} {C ns n : Nat} {v : F32} (h : memRead s .out (sampleIx analyzerChannel n) = some v) :
    captureNext C ns n s =
      .next ((captureStep v s).withJob (if n + 1 < ns then some ⟨C, ns, .capture (n + 1)⟩ else none)) := by
  simp only [captureNext, h]

/-- Settles O48: a capture puts one word at the cursor, and the window read from the moved cursor is the old one moved on by it. -/
theorem windowIsTheNewestSamples : Obligations.WindowIsTheNewestSamples := by
  refine ⟨fun s C n k => ⟨fun v hv => ?_, fun hnone => ?_⟩,
    fun s vs => ⟨captureMany_frame vs s, fun _ hwp => copyWindow_captureMany hwp vs⟩⟩
  · refine ⟨_, captureNext_of_written hv, ?_, fun j hj => ?_, rfl⟩
    · exact (memRead_memWrite s .cap .cap _ _ v).trans (if_pos ⟨rfl, rfl⟩)
    · exact (memRead_memWrite s .cap .cap _ _ v).trans (if_neg fun h => hj h.2)
  · have hnone' : memRead s .out (sampleIx analyzerChannel k) = none := hnone
    simp only [blockStep, captureNext, hnone']
    rfl

/-! ## The first unwritten word of a block -/

/-- `firstUnwritten` names the word before which, channels outer and samples inner, every word is written (R145, entry 11). -/
theorem firstUnwritten_eq_some {s : State} {C ns c k : Nat} (hc : c < C) (hk : k < ns)
    (hnone : memRead s .inp (sampleIx c k) = none)
    (hfirst : ∀ d j, d < C → j < ns → d < c ∨ (d = c ∧ j < k) → (memRead s .inp (sampleIx d j)).isSome = true) :
    firstUnwritten s C ns = some (c, k) := by
  obtain ⟨r, rfl⟩ := Nat.exists_eq_add_of_lt hc
  have hrow : (List.range ns).find? (fun j => (memRead s .inp (sampleIx c j)).isNone) = some k := by
    rw [List.find?_range_eq_some]
    exact ⟨by simp [hnone], List.mem_range.2 hk, fun j hj => by simpa using hfirst c j hc (by omega) (.inr ⟨rfl, hj⟩)⟩
  have hbefore : ∀ d < c, (List.range ns).find? (fun j => (memRead s .inp (sampleIx d j)).isNone) = none := by
    intro d hd
    rw [List.find?_range_eq_none]
    exact fun j hj => by simpa using hfirst d j (by omega) hj (.inl hd)
  unfold firstUnwritten blockIndexes
  rw [List.find?_flatMap, List.findSome?_eq_some_iff]
  refine ⟨List.range c, c, _, by rw [Nat.add_assoc, List.range_add, List.range_succ_eq_map]; rfl, ?_, fun d hd => ?_⟩
  · rw [List.find?_map]
    exact congrArg (Option.map fun j => (c, j)) hrow
  · rw [List.find?_map]
    exact congrArg (Option.map fun j => (d, j)) (hbefore d (List.mem_range.1 hd))

theorem computeStep_of_unwritten {s : State} {C ns c n : Nat} (h : firstUnwritten s C ns = some (c, n)) :
    computeStep C ns s = .fault (.unwrittenIn c n) := by
  simp only [computeStep, h]

theorem passThrough_of_unwritten {s : State} {C ns c n : Nat} (h : firstUnwritten s C ns = some (c, n)) :
    passThrough C ns s = .fault (.unwrittenIn c n) := by
  simp only [passThrough, h]

/-- A `PROCESS` that fits the memories of an unprepared block is a pass-through (R144, R147). -/
theorem execProcess_of_unprepared {s : State} {C ns : Nat} (hC : C ≤ s.dims.maxChannels) (hns : ns ≤ s.dims.maxBlockCap)
    (hprep : s.E.prepared = false) : execProcess C ns s = passThrough C ns s := by
  simp [execProcess, hC.not_gt, hns.not_gt, hprep]

/-- Settles O41: the compute step and the pass-through look for the first unwritten word before they change anything. -/
theorem unwrittenInputStopsTheBlock : Obligations.UnwrittenInputStopsTheBlock := by
  intro s C n c k hc hk hnone hfirst
  have hfound := firstUnwritten_eq_some hc hk hnone hfirst
  exact ⟨computeStep_of_unwritten hfound,
    fun hC hn hprep => (execProcess_of_unprepared hC hn hprep).trans (passThrough_of_unwritten hfound)⟩

/-! ## Who writes `IN` -/

section
variable {s t : State}

theorem forChannels_copyThrough_inp (C ns : Nat) (s : State) :
    (forChannels (fun c => copyThrough c ns) C s).mem.inp = s.mem.inp :=
  forChannels_keeps (fun u => u.mem.inp) (fun c => copyThrough c ns) (fun _ _ => rfl) C s

theorem computeBlock_inp (C ns : Nat) (s : State) : (computeBlock C ns s).mem.inp = s.mem.inp :=
  (computeBlock_from (fun u => u.mem.inp) (fun _ _ _ => rfl) (fun _ _ _ => rfl) (fun _ _ _ _ => rfl) C ns s).trans
    (by simp [bandsUpdated])

theorem blockStep_inp {j : Job} (h : blockStep j s = .next t) : t.mem.inp = s.mem.inp := by
  rcases blockStep_next h with ⟨f, todo, -, rfl⟩ | ⟨-, -, rfl⟩ | ⟨n, v, -, -, rfl⟩
  · simp [snapshotStep]
  · exact computeBlock_inp _ _ s
  · rfl

theorem execProcess_inp {C ns : Nat} (h : execProcess C ns s = .next t) : t.mem.inp = s.mem.inp := by
  rcases execProcess_next h with rfl | ⟨-, -, -, -, rfl⟩ | ⟨-, f, todo, -, rfl⟩
  · rfl
  · exact forChannels_copyThrough_inp C ns s
  · simp [snapshotStep]

theorem answersOneWord.mem_eq (h : answersOneWord s t) : t.mem = s.mem := by
  obtain ⟨e, v, rfl⟩ := h
  rfl

/-- Of the AUDIO commands only `WRITE_IN` writes `IN` (R34). -/
theorem exec_audio_inp {i : Instr} (hl : legalOn .audio (opcodeOf i) = true) (hi : ∀ c n v, i ≠ .writeIn c n v)
    (he : exec i s = .next t) : t.mem.inp = s.mem.inp := by
  cases i with
  | nop => cases he; rfl
  | prepare mb sr => cases he; simp [prepareState, Mems.set]
  | process C ns => exact execProcess_inp he
  | reset target => rcases execReset_next he with rfl | ⟨sel, rfl⟩ <;> rfl
  | writeIn c n v => exact absurd rfl (hi c n v)
  | readOut ch n => rw [(execReadOut_next he).mem_eq]
  | readState band ch tap => rw [(execReadState_next he).mem_eq]
  | readCoef band k => rw [(execReadCoef_next he).mem_eq]
  | _ => exact absurd hl (by simp only [opcodeOf]; decide)

end

/-- Settles O56, port by port. -/
theorem onlyWriteInWritesIn : Obligations.OnlyWriteInWritesIn := by
  intro s t p h hi
  cases p with
  | ctrl =>
    obtain ⟨P, e, c, rfl⟩ := portStep_ctrl_frame h
    rfl
  | disp =>
    obtain ⟨m, b, q, e, c, v, rfl⟩ := portStep_disp_frame h
    rfl
  | audio =>
    rcases portStep_next h with ⟨j, -, -, hb⟩ | rfl | ⟨w, rest, -, -, -, ⟨-, rfl⟩ | ⟨i, hd, hnext, he⟩⟩
    · exact blockStep_inp hb
    · rfl
    · rfl
    · exact exec_audio_inp (s := s.setStream .audio rest) (legalOn_of_decode hd)
        (fun c n v hw => hi c n v (hw ▸ hnext)) he

/-! ## What a block's steps after its snapshot read and write -/

/-- `u` with the parts of `s` that the compute and capture steps of a block read and write: the snapshot, the engine registers, the band
state and the memories (R41, R145). -/
def State.withBlockParts (u s : State) : State := { u with S := s.S, E := s.E, bands := s.bands, mem := s.mem }

section
variable (u s : State)

@[simp] theorem State.withBlockParts_withBlockParts (t : State) : u.withBlockParts (t.withBlockParts s) = u.withBlockParts s := rfl

theorem withBlockParts_congr {u t : State} (hdims : u.dims = t.dims) (hP : u.P = t.P) (hev : u.ev = t.ev) (hports : u.ports = t.ports)
    (x : Option Job) (e : Env) : ((u.withBlockParts s).withJob x).withEnv e = ((t.withBlockParts s).withJob x).withEnv e := by
  simp only [State.withBlockParts, State.withJob, State.withEnv, hdims, hP, hev, hports]

theorem updateCoefficients_withBlockParts (i : Fin 10) :
    updateCoefficients i (u.withBlockParts s) = u.withBlockParts (updateCoefficients i s) := by
  have hfresh : bandFresh (u.withBlockParts s) i = bandFresh s i := rfl
  unfold updateCoefficients
  rw [hfresh]
  split <;> rfl

theorem updateAll_withBlockParts (is : List (Fin 10)) : updateAll is (u.withBlockParts s) = u.withBlockParts (updateAll is s) := by
  induction is generalizing s with
  | nil => rfl
  | cons i is ih => rw [updateAll, updateAll, updateCoefficients_withBlockParts, ih]

/-- A loop over channels commutes with what every channel's step commutes with. -/
theorem forChannels_commutes {g : State → State} {f : Nat → State → State} (hf : ∀ c v, f c (g v) = g (f c v)) (C : Nat) :
    forChannels f C (g s) = g (forChannels f C s) := by
  induction C with
  | zero => rfl
  | succ C ih => rw [forChannels_succ, forChannels_succ, ih, hf]

/-- The compute step reads and writes the block's parts of the state only. -/
theorem computeBlock_withBlockParts (C ns : Nat) :
    computeBlock C ns (u.withBlockParts s) = u.withBlockParts (computeBlock C ns s) := by
  have hbands : bandsUpdated (u.withBlockParts s) = u.withBlockParts (bandsUpdated s) :=
    updateAll_withBlockParts u (bandCountUpdate s) _
  have hS : (u.withBlockParts s).S = s.S := rfl
  rw [computeBlock_eq, computeBlock_eq, hbands, hS,
    forChannels_commutes (g := u.withBlockParts) (f := fun c => dryCopy c ns) _ (fun _ _ => rfl)]
  refine forChannels_commutes (g := u.withBlockParts) _ (fun c v => ?_) C
  split <;> rfl

variable {u s}

/-- A capture step reads and writes the block's parts of the state only, and the length of the window. -/
theorem captureStep_withBlockParts (h : u.dims.window = s.dims.window) (v : F32) :
    captureStep v (u.withBlockParts s) = u.withBlockParts (captureStep v s) := by
  unfold captureStep
  rw [← h]
  rfl

theorem captureMany_withBlockParts (h : u.dims.window = s.dims.window) (vs : List F32) :
    captureMany vs (u.withBlockParts s) = u.withBlockParts (captureMany vs s) := by
  induction vs generalizing s with
  | nil => rfl
  | cons v vs ih =>
    rw [captureMany_cons, captureMany_cons, captureStep_withBlockParts h]
    exact ih h

end

/-! ## The platform parameters -/

/-- The free choice among several ports that have a step (R43). -/
theorem step_of_manyReady {s : State} {p q : Port} {ps : List Port} (h : s.env.agenda = []) (hr : readyPorts s = p :: q :: ps) :
    step s = portStep ((p :: q :: ps).getD (Config.freeTurn s.env.drawn % ((q :: ps).length + 1)) p)
      (s.withEnv { s.env with drawn := s.env.drawn + 1 }) := by
  simp only [step, nextStep, h, hr]

section
variable (o : ByteOrder) (m : PortMap)

/-- The same machine on another platform (R38, R52). -/
def State.withPlatform (s : State) : State := { s with dims := { s.dims with hostByteOrder := o, portMap := m } }

/-- An outcome with its next state, if it has one, changed. -/
def mapNext (g : State → State) : Host.Outcome State Fault Refusal → Host.Outcome State Fault Refusal
  | .next s => .next (g s)
  | .fault r => .fault r
  | .refused r => .refused r

/-- Two outcomes correspond when they branch on one condition and their branches correspond. -/
theorem ite_eq_mapNext {g : State → State} {c : Prop} [Decidable c] {x y x' y' : Host.Outcome State Fault Refusal}
    (hx : x' = mapNext g x) (hy : y' = mapNext g y) : (if c then x' else y') = mapNext g (if c then x else y) := by
  split <;> assumption

variable (s : State)

theorem computeBlock_withPlatform (C ns : Nat) :
    computeBlock C ns (s.withPlatform o m) = (computeBlock C ns s).withPlatform o m :=
  calc computeBlock C ns (s.withPlatform o m)
    _ = (s.withPlatform o m).withBlockParts (computeBlock C ns s) := computeBlock_withBlockParts (s.withPlatform o m) s C ns
    _ = (s.withBlockParts (computeBlock C ns s)).withPlatform o m := rfl
    _ = (computeBlock C ns s).withPlatform o m := by rw [← computeBlock_withBlockParts s s]; rfl

theorem raiseIf_withPlatform (b : Bool) (c : Cond) : (s.withPlatform o m).raiseIf b c = (s.raiseIf b c).withPlatform o m := by
  cases b <;> rfl

theorem bandWrite_withPlatform (put : Params → Fin 10 → F32 → Params) (idx : Nat) (v lo hi : F32) :
    bandWrite put idx v lo hi (s.withPlatform o m) = (bandWrite put idx v lo hi s).withPlatform o m := by
  unfold bandWrite
  split
  · rfl
  · split
    · rfl
    · rw [raiseIf_withPlatform]; rfl

theorem takeDrop_withPlatform : (s.withPlatform o m).takeDrop = s.takeDrop.withPlatform o m := by
  have henv : (s.withPlatform o m).env = s.env := rfl
  unfold State.takeDrop
  rw [henv]
  split <;> rfl

theorem passThrough_withPlatform (C ns : Nat) :
    passThrough C ns (s.withPlatform o m) = mapNext (State.withPlatform o m) (passThrough C ns s) := by
  have hcopy : forChannels (fun c => copyThrough c ns) C (s.withPlatform o m) =
      (forChannels (fun c => copyThrough c ns) C s).withPlatform o m :=
    forChannels_commutes (g := State.withPlatform o m) (f := fun c => copyThrough c ns) s (fun _ _ => rfl) C
  have hu : firstUnwritten (s.withPlatform o m) C ns = firstUnwritten s C ns := rfl
  unfold passThrough
  rw [hu, hcopy]
  split <;> rfl

theorem blockStep_withPlatform (j : Job) : blockStep j (s.withPlatform o m) = mapNext (State.withPlatform o m) (blockStep j s) := by
  unfold blockStep
  split
  · have hu : firstUnwritten (s.withPlatform o m) j.numCh j.numSamples = firstUnwritten s j.numCh j.numSamples := rfl
    unfold computeStep
    rw [hu]
    split
    · rfl
    · rw [computeBlock_withPlatform]; rfl
  · simp only [snapshotStep, State.takePick_eq]
    rfl
  · next n _ =>
    unfold captureNext
    have hr : memRead (s.withPlatform o m) .out (sampleIx analyzerChannel n) = memRead s .out (sampleIx analyzerChannel n) := rfl
    rw [hr]
    split <;> rfl

theorem execProcess_withPlatform (C ns : Nat) :
    execProcess C ns (s.withPlatform o m) = mapNext (State.withPlatform o m) (execProcess C ns s) :=
  ite_eq_mapNext rfl (ite_eq_mapNext (passThrough_withPlatform o m s C ns)
    (ite_eq_mapNext rfl (blockStep_withPlatform o m s _)))

theorem execReadOut_withPlatform (ch n : Nat) :
    execReadOut ch n (s.withPlatform o m) = mapNext (State.withPlatform o m) (execReadOut ch n s) := by
  have hread : memRead (s.withPlatform o m) .out (sampleIx ch n) = memRead s .out (sampleIx ch n) := rfl
  unfold execReadOut
  rw [hread]
  refine ite_eq_mapNext ?_ rfl
  split <;> rfl

theorem execReadCoef_withPlatform (band k : Nat) :
    execReadCoef band k (s.withPlatform o m) = mapNext (State.withPlatform o m) (execReadCoef band k s) := by
  have hbands : (s.withPlatform o m).bands = s.bands := rfl
  unfold execReadCoef
  rw [hbands]
  split
  · rfl
  · split <;> rfl

theorem execAnalyze_withPlatform : execAnalyze (s.withPlatform o m) = mapNext (State.withPlatform o m) (execAnalyze s) := by
  have hdrop : nextDrop (s.withPlatform o m) = nextDrop s := rfl
  have hpublish : publish (spectrumFn (copyWindow (s.withPlatform o m))) (s.withPlatform o m) =
      (publish (spectrumFn (copyWindow s)) s).withPlatform o m := rfl
  unfold execAnalyze
  rw [hdrop, hpublish, takeDrop_withPlatform, takeDrop_withPlatform]
  refine ite_eq_mapNext ?_ rfl
  split <;> rfl

/-- Every command does the same on another platform (R52). -/
theorem exec_withPlatform (i : Instr) : exec i (s.withPlatform o m) = mapNext (State.withPlatform o m) (exec i s) := by
  cases i with
  | nop => rfl
  | setBandType band code => simp only [exec, execSetBandType]; split <;> rfl
  | setBandFreq band hz => exact congrArg Host.Outcome.next (bandWrite_withPlatform ..)
  | setBandQ band q => exact congrArg Host.Outcome.next (bandWrite_withPlatform ..)
  | setBandGain band db => exact congrArg Host.Outcome.next (bandWrite_withPlatform ..)
  | setGlobalGain db => exact ite_eq_mapNext rfl rfl
  | setMix v => exact ite_eq_mapNext rfl (by rw [raiseIf_withPlatform]; rfl)
  | setBypass v => rfl
  | setAnalyzerEn v => rfl
  | setBandCount n => simp only [exec, execSetBandCount, raiseIf_withPlatform]; rfl
  | getStatus => rfl
  | clearStatus mask => rfl
  | prepare maxBlock sr => simp only [exec, execPrepare, raiseIf_withPlatform]; rfl
  | process C ns => exact execProcess_withPlatform o m s C ns
  | reset target => exact ite_eq_mapNext rfl rfl
  | writeIn ch n v => exact ite_eq_mapNext rfl rfl
  | readOut ch n => exact execReadOut_withPlatform o m s ch n
  | readState band ch tap => exact ite_eq_mapNext rfl rfl
  | readCoef band k => exact execReadCoef_withPlatform o m s band k
  | analyze => exact execAnalyze_withPlatform o m s
  | getSpectrum => exact ite_eq_mapNext rfl rfl

theorem portStep_withPlatform (p : Port) : portStep p (s.withPlatform o m) = mapNext (State.withPlatform o m) (portStep p s) := by
  have hb : blockPending p (s.withPlatform o m) = blockPending p s := rfl
  have hp : (s.withPlatform o m).ports = s.ports := rfl
  unfold portStep
  rw [hb, hp]
  split
  · exact blockStep_withPlatform o m s _
  · split
    · rfl
    · next w rest _ =>
      have hroom : hasRoom p w (s.withPlatform o m) = hasRoom p w s := rfl
      rw [hroom]
      split
      · unfold runWord
        split
        · rfl
        · exact exec_withPlatform o m (s.setStream p rest) _
      · rfl

/-- Every step does the same on another platform (R52). -/
theorem step_withPlatform : step (s.withPlatform o m) = mapNext (State.withPlatform o m) (step s) := by
  have hready : readyPorts (s.withPlatform o m) = readyPorts s := rfl
  match ha : s.env.agenda with
  | .turn p :: rest =>
    rw [step_of_turn ha, step_of_turn (s := s.withPlatform o m) ha]
    exact portStep_withPlatform o m (s.withEnv { s.env with agenda := rest }) p
  | .submit p w :: rest =>
    rw [step_of_submit ha, step_of_submit (s := s.withPlatform o m) ha]
    rfl
  | .drain p n :: rest =>
    rw [step_of_drain ha, step_of_drain (s := s.withPlatform o m) ha]
    rfl
  | [] =>
    match hr : readyPorts s with
    | [] =>
      rw [step_of_noneReady ha hr, step_of_noneReady (s := s.withPlatform o m) ha (hready.trans hr)]
      rfl
    | [p] =>
      rw [step_of_oneReady ha hr, step_of_oneReady (s := s.withPlatform o m) ha (hready.trans hr)]
      exact portStep_withPlatform o m s p
    | p :: q :: ps =>
      rw [step_of_manyReady ha hr, step_of_manyReady (s := s.withPlatform o m) ha (hready.trans hr)]
      exact portStep_withPlatform o m (s.withEnv { s.env with drawn := s.env.drawn + 1 }) _

end

/-- Settles O57: the platform's parameters stay out of every step, so a step commutes with changing them. -/
theorem platformParametersAreNotRead : Obligations.PlatformParametersAreNotRead := by
  intro s t o m h
  have hstep := step_withPlatform o m s
  rw [h] at hstep
  exact hstep

/-! ## A block's snapshot -/

/-- The snapshot `S` holds a field of the parameter store `P` (R25). -/
def fieldCopied (P S : Params) : PField → Prop
  | .type i => S.type[i] = P.type[i]
  | .freq i => S.freq[i] = P.freq[i]
  | .q i => S.q[i] = P.q[i]
  | .gain i => S.gain[i] = P.gain[i]
  | .globalGain => S.globalGain = P.globalGain
  | .mix => S.mix = P.mix
  | .bypass => S.bypass = P.bypass
  | .analyzerEn => S.analyzerEn = P.analyzerEn
  | .bandCount => S.bandCount = P.bandCount

/-- A snapshot that holds every field is the store. -/
theorem eq_of_fieldCopied {P S : Params} (h : ∀ f, fieldCopied P S f) : S = P := by
  have hvec : ∀ {α : Type} {x y : Vector α 10}, (∀ i : Fin 10, x[i] = y[i]) → x = y :=
    fun hxy => Vector.ext fun i hi => hxy ⟨i, hi⟩
  cases P
  cases S
  rw [Params.mk.injEq]
  exact ⟨hvec fun i => h (.type i), hvec fun i => h (.freq i), hvec fun i => h (.q i), hvec fun i => h (.gain i),
    h .globalGain, h .mix, h .bypass, h .analyzerEn, h .bandCount⟩

theorem getElem_set_copied {α : Type} {x y : Vector α 10} {i j : Fin 10} (h : j ≠ i → x[j] = y[j]) :
    (x.set i y[i])[j] = y[j] := by
  by_cases hji : j = i
  · simp [hji]
  · have hval : i.val ≠ j.val := fun e => hji (Fin.ext e.symm)
    simpa [hval] using h hji

/-- A copy adds its field to those the snapshot holds. -/
theorem fieldCopied_copyField {P S : Params} {f g : PField} (hg : g ≠ f → fieldCopied P S g) :
    fieldCopied P (copyField P S f) g := by
  cases f with
  | type j =>
    cases g with
    | type i => exact getElem_set_copied fun hne => hg fun e => hne (PField.type.inj e)
    | _ => exact hg nofun
  | freq j =>
    cases g with
    | freq i => exact getElem_set_copied fun hne => hg fun e => hne (PField.freq.inj e)
    | _ => exact hg nofun
  | q j =>
    cases g with
    | q i => exact getElem_set_copied fun hne => hg fun e => hne (PField.q.inj e)
    | _ => exact hg nofun
  | gain j =>
    cases g with
    | gain i => exact getElem_set_copied fun hne => hg fun e => hne (PField.gain.inj e)
    | _ => exact hg nofun
  | globalGain => cases g with | globalGain => rfl | _ => exact hg nofun
  | mix => cases g with | mix => rfl | _ => exact hg nofun
  | bypass => cases g with | bypass => rfl | _ => exact hg nofun
  | analyzerEn => cases g with | analyzerEn => rfl | _ => exact hg nofun
  | bandCount => cases g with | bandCount => rfl | _ => exact hg nofun

theorem wholeBlock_withBlockParts {u s : State} (hP : u.P = s.P) (hw : u.dims.window = s.dims.window) (C ns : Nat) :
    wholeBlock C ns (u.withBlockParts s) = u.withBlockParts (wholeBlock C ns s) := by
  have hcompute : computeBlock C ns ((u.withBlockParts s).withS (u.withBlockParts s).P) =
      u.withBlockParts (computeBlock C ns (s.withS s.P)) := by
    rw [show (u.withBlockParts s).P = s.P from hP]
    exact computeBlock_withBlockParts u (s.withS s.P) C ns
  have hw' : u.dims.window = (computeBlock C ns (s.withS s.P)).dims.window := by rw [computeBlock_dims]; exact hw
  unfold wholeBlock
  rw [hcompute]
  exact captureMany_withBlockParts hw' _

theorem captureCount_eq (P : Params) (C ns : Nat) : captureCount P C ns = if P.analyzerEn = true ∧ 1 ≤ C then ns else 0 := by
  simp [captureCount]

/-- The words of `OUT` that a block captures are written by its compute step. -/
theorem memRead_out_of_outRow {s : State} {C ns i : Nat} {v : F32} (hns : ns ≤ 65535)
    (hi : (outRow (computeBlock C ns s) analyzerChannel (captureCount (computeBlock C ns s).S C ns))[i]? = some v) :
    memRead (computeBlock C ns s) .out (sampleIx analyzerChannel i) = some v := by
  obtain ⟨hlt, hval⟩ : i < captureCount s.S C ns ∧
      (memRead (computeBlock C ns s) .out (sampleIx analyzerChannel i)).getD posZero = v := by
    simpa [outRow, List.getElem?_eq_some_iff] using hi
  rw [captureCount_eq] at hlt
  split at hlt
  · next hcap =>
    obtain ⟨w, hw⟩ := Option.isSome_iff_exists.1 (isSome_memRead_out_computeBlock s hns hcap.2 hlt)
    rw [analyzerChannel, hw] at hval ⊢
    exact congrArg some hval
  · exact absurd hlt (Nat.not_lt_zero i)

theorem allFields_length : allFields.length = 45 := by simp [allFields]

/-! ## A block alone -/

section
variable {s : State} {C n : Nat} {rest : List Event}

/-- While the AUDIO port alone moves, a block takes one step for each field that remains, and then its snapshot is the parameter store,
whatever order it took them in (R41). -/
theorem run_snapshot {todo : List PField} (hj : s.job = some ⟨C, n, .snapshot todo⟩)
    (ha : s.env.agenda = List.replicate todo.length (.turn .audio) ++ rest) (hS : ∀ f, f ∈ todo ∨ fieldCopied s.P s.S f) :
    ∃ e : Env, e.agenda = rest ∧
      Sys2Proof.core.run todo.length s = .next (((s.withS s.P).withJob (some ⟨C, n, .snapshot []⟩)).withEnv e) := by
  generalize hk : todo.length = k at ha ⊢
  induction k generalizing s todo with
  | zero =>
    obtain rfl := List.length_eq_zero_iff.1 hk
    have hcopied : s.S = s.P := eq_of_fieldCopied fun f => (hS f).resolve_left List.not_mem_nil
    have hself : (s.withS s.P).withJob (some ⟨C, n, .snapshot []⟩) = s := by rw [← hcopied, ← hj]; rfl
    exact ⟨s.env, ha, congrArg Host.Outcome.next hself.symm⟩
  | succ k ih =>
    obtain ⟨f, hf, hstep⟩ := blockStep_snapshot_copies
      (s.withEnv { s.env with agenda := List.replicate k (.turn .audio) ++ rest }) C n (List.ne_nil_of_length_eq_add_one hk)
    have hleft : ∀ g, g ∈ todo.erase f ∨ fieldCopied s.P (copyField s.P s.S f) g := by
      intro g
      by_cases hgf : g = f
      · exact .inr (fieldCopied_copyField fun hne => absurd hgf hne)
      · exact (hS g).imp (List.mem_erase_of_ne hgf).2 fun hc => fieldCopied_copyField fun _ => hc
    rw [run_succ ((step_of_turn_audio ha hj).trans hstep)]
    exact ih rfl hleft (by rw [List.length_erase_of_mem hf, hk]; rfl) rfl

theorem step_capture {k : Nat} {v : F32} (hj : s.job = some ⟨C, n, .capture k⟩) (ha : s.env.agenda = .turn .audio :: rest)
    (hv : memRead s .out (sampleIx analyzerChannel k) = some v) :
    ∃ e : Env, e.agenda = rest ∧ step s =
      .next (((captureStep v s).withJob (if k + 1 < n then some ⟨C, n, .capture (k + 1)⟩ else none)).withEnv e) :=
  ⟨{ s.env with agenda := rest }, rfl, (step_of_turn_audio ha hj).trans
    (captureNext_of_written (s := s.withEnv { s.env with agenda := rest }) hv)⟩

/-- While the AUDIO port alone moves, a block takes one step for each `OUT` word it captures, and then it is at its end (R41, R116). -/
theorem run_captures {k : Nat} {vs : List F32} (hj : s.job = if vs = [] then none else some ⟨C, k + vs.length, .capture k⟩)
    (ha : s.env.agenda = List.replicate vs.length (.turn .audio) ++ rest)
    (hout : ∀ i v, vs[i]? = some v → memRead s .out (sampleIx analyzerChannel (k + i)) = some v) :
    ∃ e : Env, e.agenda = rest ∧
      Sys2Proof.core.run vs.length s = .next (((s.withBlockParts (captureMany vs s)).withJob none).withEnv e) := by
  induction vs generalizing s k with
  | nil =>
    have hself : s.withJob none = s := by rw [← show s.job = none from hj]; rfl
    exact ⟨s.env, ha, congrArg Host.Outcome.next hself.symm⟩
  | cons v vs ih =>
    obtain ⟨e, he, hstep⟩ := step_capture hj ha (hout 0 v rfl)
    generalize hx : (if k + 1 < k + (v :: vs).length then
      some (⟨C, k + (v :: vs).length, .capture (k + 1)⟩ : Job) else none) = x at hstep
    have hmore : x = if vs = [] then none else some ⟨C, k + 1 + vs.length, .capture (k + 1)⟩ := by
      rw [← hx]
      cases vs with
      | nil => simp
      | cons v' vs => simp [Nat.add_assoc, Nat.add_comm 1]
    have hleft : ∀ i v', vs[i]? = some v' → memRead (captureStep v s) .out (sampleIx analyzerChannel (k + 1 + i)) = some v' := by
      intro i v' hi
      rw [Nat.add_assoc, Nat.add_comm 1]
      exact (memRead_memWrite s .cap .out s.E.wp _ v).trans (hout (i + 1) v' hi)
    let t := ((captureStep v s).withJob x).withEnv e
    obtain ⟨e', he', hrun⟩ := ih (s := t) (k := k + 1) hmore he hleft
    have hmany : captureMany vs t = t.withBlockParts (captureMany vs (captureStep v s)) :=
      captureMany_withBlockParts (u := t) (s := captureStep v s) rfl vs
    refine ⟨e', he', (run_succ (t := t) hstep).trans ?_⟩
    rw [hrun, hmany, State.withBlockParts_withBlockParts, captureMany_cons,
      withBlockParts_congr (u := t) (t := s) _ rfl rfl rfl rfl]

theorem step_compute (hj : s.job = some ⟨C, n, .snapshot []⟩) (ha : s.env.agenda = .turn .audio :: rest) (hfed : blockFed s C n) :
    ∃ e : Env, e.agenda = rest ∧
      step s = .next (((s.withBlockParts (computeBlock C n s)).withJob (afterCompute C n s)).withEnv e) := by
  refine ⟨{ s.env with agenda := rest }, rfl, ?_⟩
  let t := s.withEnv { s.env with agenda := rest }
  have hcompute : computeBlock C n t = t.withBlockParts (computeBlock C n s) := computeBlock_withBlockParts t s C n
  have hstep : step s = .next ((computeBlock C n t).withJob (afterCompute C n t)) :=
    (step_of_turn_audio ha hj).trans (computeStep_of_fed (s := t) hfed)
  rw [hstep, hcompute]
  rfl

/-- After the compute step a block is at the first of its captures, or at its end when it captures nothing (R41, R117). -/
theorem afterCompute_eq {vs : List F32} (hlen : vs.length = captureCount s.S C n) :
    afterCompute C n s = if vs = [] then none else some ⟨C, 0 + vs.length, .capture 0⟩ := by
  simp only [← List.length_eq_zero_iff, hlen, captureCount, afterCompute, Nat.zero_add]
  cases s.S.analyzerEn && decide (1 ≤ C) with
  | false => rfl
  | true => cases n <;> simp

/-- While the AUDIO port alone moves, a block that has been started runs to its end and its state is the rules' composition
(R145, R185). -/
theorem run_startedBlock (hns : n ≤ 65535) (hfed : blockFed s C n) (hj : s.job = some (startJob C n))
    (ha : s.env.agenda = List.replicate (45 + 1 + captureCount s.P C n) (.turn .audio) ++ rest) :
    ∃ e : Env, e.agenda = rest ∧ Sys2Proof.core.run (45 + 1 + captureCount s.P C n) s =
      .next (((s.withBlockParts (wholeBlock C n s)).withJob none).withEnv e) := by
  let u := computeBlock C n (s.withS s.P)
  let vs := outRow u analyzerChannel (captureCount u.S C n)
  have hlen : vs.length = captureCount s.P C n := by simp [vs, outRow, u]
  rw [← hlen, ← allFields_length, List.replicate_add, List.replicate_succ', List.append_assoc, List.append_assoc] at ha
  obtain ⟨e₁, he₁, hsnapshot⟩ := run_snapshot hj ha fun f => .inl (mem_allFields f)
  rw [allFields_length] at hsnapshot
  let s₁ := ((s.withS s.P).withJob (some ⟨C, n, .snapshot []⟩)).withEnv e₁
  have hcompute₁ : computeBlock C n s₁ = s₁.withBlockParts u := computeBlock_withBlockParts s₁ (s.withS s.P) C n
  obtain ⟨e₂, he₂, hcompute⟩ := step_compute (s := s₁) rfl he₁ hfed
  rw [hcompute₁, afterCompute_eq (s := s₁) hlen] at hcompute
  let s₂ := ((s₁.withBlockParts u).withJob (if vs = [] then none else some ⟨C, 0 + vs.length, .capture 0⟩)).withEnv e₂
  obtain ⟨e₃, he₃, hcapture⟩ := run_captures (s := s₂) (k := 0) (vs := vs) rfl he₂ fun i v hi => by
    rw [Nat.zero_add]
    exact memRead_out_of_outRow hns hi
  have hcaptured : captureMany vs s₂ = s₂.withBlockParts (wholeBlock C n s) :=
    captureMany_withBlockParts (u := s₂) (s := u) (by simp [s₂, s₁, u, State.withBlockParts]) vs
  rw [hcaptured, State.withBlockParts_withBlockParts] at hcapture
  refine ⟨e₃, he₃, ?_⟩
  calc Sys2Proof.core.run (45 + 1 + captureCount s.P C n) s
    _ = Sys2Proof.core.run (45 + (1 + vs.length)) s := by rw [hlen, Nat.add_assoc]
    _ = Sys2Proof.core.run (1 + vs.length) s₁ := run_add hsnapshot
    _ = Sys2Proof.core.run vs.length s₂ := by rw [Nat.add_comm]; exact run_succ hcompute
    _ = .next (((s.withBlockParts (wholeBlock C n s)).withJob none).withEnv e₃) :=
      hcapture.trans (congrArg Host.Outcome.next (withBlockParts_congr (u := s₂) (t := s) _ rfl rfl rfl rfl none e₃))

theorem snapshotStep_withJob (f : PField) (todo : List PField) (x : Option Job) :
    snapshotStep C n f todo (s.withJob x) = snapshotStep C n f todo s := by
  simp only [snapshotStep, State.takePick_eq]
  rfl

/-- A `PROCESS` that is accepted on the AUDIO port's turn does what that turn does once the command is taken and its block started. -/
theorem step_of_accepted {w : Command} {ws : List Command} (hacc : blockAccepted s C n) (hjob : s.job = none)
    (hs : s.ports.audio.stream = w :: ws) (hd : decode .audio w = .command (.process C n))
    (hfit : s.ports.audio.resp.length ≤ s.dims.respDepth) (ha : s.env.agenda = .turn .audio :: rest) :
    step s = step ((s.setStream .audio ws).withJob (some (startJob C n))) := by
  obtain ⟨f, todo, hall⟩ : ∃ f todo, allFields = f :: todo := ⟨_, _, rfl⟩
  let t := s.withEnv { s.env with agenda := rest }
  have hexec : portStep .audio t = execProcess C n (t.setStream .audio ws) :=
    portStep_of_command (p := .audio) (s := t) (blockPending_eq_none.2 fun _ => hjob) hs hd ((hasRoom_iff_of_decode hd).2 hfit)
  rw [step_of_turn ha, hexec, execProcess_of_accepted (s := t.setStream .audio ws) hacc,
    step_of_turn_audio (s := (s.setStream .audio ws).withJob _) ha rfl]
  simp only [blockStep, startJob, hall]
  exact congrArg Host.Outcome.next (snapshotStep_withJob (s := t.setStream .audio ws) f todo _).symm

theorem run_congr {s t : State} (h : step s = step t) (k : Nat) :
    Sys2Proof.core.run (k + 1) s = Sys2Proof.core.run (k + 1) t := by
  have hcore : Sys2Proof.core.step s = Sys2Proof.core.step t := h
  simp only [Host.Core.run, hcore]

end

/-- Settles O42: taking the command starts the block, and the started block runs to its end. -/
theorem blockRunsToItsEnd : Obligations.BlockRunsToItsEnd := by
  intro s C n w ws rest hdims hacc hfed hjob hs hd hfit
  simp only [← captureCount_eq]
  intro ha
  have hns : n ≤ 65535 := by
    obtain ⟨-, ⟨-, hcap⟩, -⟩ := hdims
    obtain ⟨-, hn, -⟩ := hacc
    omega
  let s₀ := (s.setStream .audio ws).withJob (some (startJob C n))
  have hwhole : wholeBlock C n s₀ = s₀.withBlockParts (wholeBlock C n s) :=
    wholeBlock_withBlockParts (u := s₀) (s := s) rfl rfl C n
  have hstart : step s = step s₀ :=
    step_of_accepted hacc hjob hs hd hfit (by rw [ha, Nat.add_right_comm, List.replicate_succ]; rfl)
  obtain ⟨e, he, hrun⟩ := run_startedBlock (s := s₀) hns hfed rfl ha
  rw [hwhole, State.withBlockParts_withBlockParts] at hrun
  rw [Nat.add_right_comm, run_congr hstart, ← Nat.add_right_comm]
  have hS : (wholeBlock C n s).S = s.P := by
    rw [wholeBlock, captureMany_frame]
    exact computeBlock_S ..
  refine ⟨_, hrun, ?_, rfl, rfl, rfl, rfl, hS, rfl, rfl, rfl, he, rfl⟩
  rw [wholeBlock, computeBlock_S]
  rfl

end Sys2Proof.Machine

/-! PROOFS. The decoder and the encoder (O1 to O4), illegal words (O8) and response words (O10). -/

namespace Sys2Proof

/-! ## Decoding what the encoder wrote -/

/-- A well-formed command's operands come back from the fields that carry them (R53, R57). -/
theorem decodeMap_encode {i : Instr} (h : i.wf = true) : decodeMap (encode i) = some i := by
  simp only [decodeMap, encode, opField_packFields, idxField_packFields, auxField_packFields, dataField_packFields]
  cases i with
  | nop | setGlobalGain _ | setMix _ | getStatus | analyze | getSpectrum => rfl
  | setBandFreq _ _ | setBandQ _ _ | setBandGain _ _ | setBandType _ _ =>
    simp only [Instr.wf, Bool.and_eq_true, decide_eq_true_eq] at h
    simp [opcodeOf, idxOf, dataOf, Nat.mod_eq_of_lt, h]
  | setBypass _ | setAnalyzerEn _ => simp [opcodeOf, dataOf, dataBool_boolData]
  | setBandCount n =>
    simp only [Instr.wf, Bool.and_eq_true, decide_eq_true_eq] at h
    simp [opcodeOf, dataOf, dataInt32_ofInt h]
  | clearStatus mask => simp [opcodeOf, dataOf, dataMask_append]
  | reset target =>
    cases target with
    | all => rfl
    | channel c =>
      simp only [Instr.wf, decide_eq_true_eq] at h
      simp [opcodeOf, idxOf, idxTarget_ofNat h]
  | readState band ch tap =>
    simp only [Instr.wf, Bool.and_eq_true, decide_eq_true_eq] at h
    obtain ⟨hband, hch⟩ := h
    simp [opcodeOf, idxOf, auxOf, Nat.mod_eq_of_lt hband, auxChannel_append hch, auxTap_append]
  | prepare _ _ | process _ _ | writeIn _ _ _ | readOut _ _ | readCoef _ _ =>
    simp only [Instr.wf, Bool.and_eq_true, decide_eq_true_eq] at h
    simp [opcodeOf, idxOf, auxOf, dataOf, Nat.mod_eq_of_lt, h]

theorem decode_of_decodeMap {p : Port} {w : Command} {i : Instr} (h : decodeMap w = some i) (hl : legalOn p (opField w) = true) :
    decode p w = .command i := by
  simp only [decode, h, hl, if_true]

/-- Settles O1: the map of R54 reads the command back, and its opcode is legal on the port. -/
theorem decodeOfEncodeIsTheCommand : Obligations.DecodeOfEncodeIsTheCommand := by
  intro i p hwf hl
  exact decode_of_decodeMap (decodeMap_encode hwf) ((Laws.EncodedOp.all i).1.symm ▸ hl)

/-! ## Encoding what the decoder read -/

/-! Operands: what the encoder makes of a field's reading is the field, or the bits of it that are read (R57, R60). -/

theorem boolData_dataBool (d : BitVec 32) : boolData (dataBool d) = d &&& 1#32 := by
  apply BitVec.eq_of_getLsbD_eq
  intro k hk
  rw [boolData, dataBool]
  cases k with
  | zero => cases h : d[0] <;> simp [h]
  | succ k => cases d.getLsbD 0 <;> simp

theorem dataMask_padded (d : BitVec 32) : 0#17 ++ dataMask d ++ 0#8 = d &&& 0x7F00#32 := by
  have hmask : 0x7F00#32 = 0#17 ++ BitVec.allOnes 7 ++ 0#8 := rfl
  rw [hmask]
  apply BitVec.eq_of_getLsbD_eq
  intro k hk
  simp only [dataMask, BitVec.getLsbD_and, BitVec.getLsbD_append, BitVec.getLsbD_extractLsb', BitVec.getLsbD_allOnes]
  by_cases hlow : k < 8
  · simp [hlow]
  · by_cases hmid : k - 8 < 7
    · simp [hlow, hmid, Nat.add_sub_cancel' (Nat.not_lt.1 hlow)]
    · simp [hlow, hmid]

theorem auxChannel_append_auxTap (a : BitVec 16) : BitVec.ofNat 15 (auxChannel a) ++ tapBit (auxTap a) = a := by
  have hch : BitVec.ofNat 15 (auxChannel a) = a.extractLsb' 1 15 := by rw [auxChannel, BitVec.ofNat_toNat, BitVec.setWidth_eq]
  apply BitVec.eq_of_getLsbD_eq
  intro k hk
  rw [hch, BitVec.getLsbD_append]
  cases k with
  | zero => cases h : a[0] <;> simp [auxTap, tapBit, h]
  | succ k =>
    have hk' : k < 15 := by omega
    simp [hk', Nat.add_comm]

theorem idxOf_reset_idxTarget (x : BitVec 8) : idxOf (.reset (idxTarget x)) = x := by
  by_cases h : x = 0xFF#8 <;> simp [idxTarget, h, idxOf]

theorem wf_reset_idxTarget (x : BitVec 8) : (Instr.reset (idxTarget x)).wf = true := by
  by_cases h : x = 0xFF#8
  · simp [idxTarget, h, Instr.wf]
  · have hlt : x.toNat < 255 := by bv_omega
    simp [idxTarget, h, Instr.wf, hlt]

theorem auxChannel_lt (a : BitVec 16) : auxChannel a < 32768 := (a.extractLsb' 1 15).isLt

/-! A mask that keeps a whole field. -/

theorem and_fullIdx (x : BitVec 8) : x &&& 0xFF#8 = x := BitVec.and_allOnes
theorem and_fullAux (x : BitVec 16) : x &&& 0xFFFF#16 = x := BitVec.and_allOnes
theorem and_fullData (x : BitVec 32) : x &&& 0xFFFFFFFF#32 = x := BitVec.and_allOnes

/-- A bitwise and, field by field (R53). -/
theorem and_eq_packFields (w m : Command) :
    w &&& m = packFields (opField w &&& opField m) (idxField w &&& idxField m) (auxField w &&& auxField m)
      (dataField w &&& dataField m) := by
  conv_lhs => rw [← packFields_fields m, and_packFields]

section
variable {w v : Command} {i : Instr}

/-- What a field's reading can be is what its command's operand admits (R53). -/
theorem wf_of_decodeMap (h : decodeMap w = some i) : i.wf = true := by
  have hidx : (idxField w).toNat < 256 := (idxField w).isLt
  have haux : (auxField w).toNat < 65536 := (auxField w).isLt
  have hdata : (dataField w).toNat < 4294967296 := (dataField w).isLt
  have hop := opField_of_decodeMap h
  simp only [decodeMap, hop] at h
  cases i with
  | setBandCount _ => cases h; simpa [Instr.wf] using ⟨BitVec.le_toInt (dataField w), BitVec.toInt_lt⟩
  | readState _ _ _ => cases h; simp [Instr.wf, hidx, auxChannel_lt]
  | reset _ => cases h; exact wf_reset_idxTarget (idxField w)
  | _ => cases h; simp [Instr.wf, hidx, haux, hdata]

/-- Field by field: the operands read give the bits read, and an ignored field is encoded as zero (R60). -/
theorem encode_of_decodeMap (h : decodeMap w = some i) : encode i = w &&& usedBits (opField w) := by
  have hop := opField_of_decodeMap h
  simp only [decodeMap, hop] at h
  rw [and_eq_packFields, hop, encode]
  generalize idxField w = idx, auxField w = aux, dataField w = data at h ⊢
  cases i with
  | setBypass _ | setAnalyzerEn _ =>
    cases h
    simp [opcodeOf, idxOf, auxOf, dataOf, usedBits, opField, idxField, auxField, dataField, boolData_dataBool]
  | clearStatus _ =>
    cases h
    simp [opcodeOf, idxOf, auxOf, dataOf, usedBits, opField, idxField, auxField, dataField, dataMask_padded]
  | reset _ =>
    cases h
    simp [opcodeOf, auxOf, dataOf, usedBits, opField, idxField, auxField, dataField, idxOf_reset_idxTarget, and_fullIdx]
  | readState _ _ _ =>
    cases h
    simp [opcodeOf, idxOf, auxOf, dataOf, usedBits, opField, idxField, auxField, dataField, auxChannel_append_auxTap,
      and_fullIdx, and_fullAux]
  | _ =>
    cases h
    simp [opcodeOf, idxOf, auxOf, dataOf, usedBits, opField, idxField, auxField, dataField, dataInt32, and_fullIdx,
      and_fullAux, and_fullData]

/-- Whether a word names a command depends on its opcode alone (R54). -/
theorem isSome_decodeMap (h : opField w = opcodeOf i) : (decodeMap w).isSome = true := by
  unfold decodeMap
  rw [h]
  cases i <;> rfl

/-- Both words name a command with one encoding, and the encoder is one to one on the commands words name. -/
theorem decodeMap_of_usedBits_eq (hop : opField w = opField v) (hbits : w &&& usedBits (opField w) = v &&& usedBits (opField v))
    (h : decodeMap w = some i) : decodeMap v = some i := by
  obtain ⟨j, hj⟩ := Option.isSome_iff_exists.1 (isSome_decodeMap (hop ▸ opField_of_decodeMap h))
  have henc : encode i = encode j := by rw [encode_of_decodeMap h, encode_of_decodeMap hj, hbits]
  rw [← decodeMap_encode (wf_of_decodeMap h), henc, decodeMap_encode (wf_of_decodeMap hj), hj]

end

end Sys2Proof

namespace Sys2Proof.Machine

/-- Settles O2: what decodes on a port is what the map of R54 reads. -/
theorem encodeOfDecodeKeepsTheUsedBits : Obligations.EncodeOfDecodeKeepsTheUsedBits := by
  intro p w i h
  obtain ⟨hmap, -⟩ := decode_command h
  exact ⟨wf_of_decodeMap hmap, encode_of_decodeMap hmap⟩

/-- Settles O3: the encoding is determined by the used bits, and the command by its encoding. -/
theorem ignoredBitsDoNotChangeTheCommand : Obligations.IgnoredBitsDoNotChangeTheCommand := by
  intro p w v hop hbits
  have hmap : decodeMap w = decodeMap v :=
    Option.ext fun i => ⟨decodeMap_of_usedBits_eq hop hbits, decodeMap_of_usedBits_eq hop.symm hbits.symm⟩
  simp only [decode, hmap, hop]

/-! ## Legal opcodes -/

theorem opcodeOf_mem_legalOpcodes {p : Port} {i : Instr} (h : legalOn p (opcodeOf i) = true) : opcodeOf i ∈ legalOpcodes p := by
  revert h
  cases i <;> simp only [opcodeOf] <;> cases p <;> decide

theorem legalOn_of_mem_legalOpcodes {p : Port} {op : BitVec 8} (h : op ∈ legalOpcodes p) :
    legalOn p op = true ∧ ∃ i, op = opcodeOf i := by
  have hall : ∀ op ∈ legalOpcodes p, legalOn p op = true ∧ (decodeMap (packFields op 0#8 0#16 0#32)).isSome = true := by
    cases p <;> decide
  obtain ⟨hl, hsome⟩ := hall op h
  obtain ⟨i, hi⟩ := Option.isSome_iff_exists.1 hsome
  exact ⟨hl, i, by rw [← opField_of_decodeMap hi, opField_packFields]⟩

/-- Settles O4: both sides depend on the opcode alone, and the port's list is that of the opcodes legal there. -/
theorem decodesExactlyTheLegalOpcodes : Obligations.DecodesExactlyTheLegalOpcodes := by
  intro p w
  constructor
  · rintro ⟨i, h⟩
    obtain ⟨hmap, -⟩ := decode_command h
    rw [opField_of_decodeMap hmap]
    exact opcodeOf_mem_legalOpcodes (legalOn_of_decode h)
  · intro hmem
    obtain ⟨hl, i, hi⟩ := legalOn_of_mem_legalOpcodes hmem
    obtain ⟨j, hj⟩ := Option.isSome_iff_exists.1 (isSome_decodeMap hi)
    exact ⟨j, decode_of_decodeMap hj hl⟩

/-! ## Illegal words -/

section
variable {s : State} {p : Port} {w : Command} {ws : List Command} {y : Illegal}

theorem hasRoom_of_illegal (hd : decode p w = .illegal y) (hfit : (s.ports.get p).resp.length ≤ s.dims.respDepth) :
    hasRoom p w s = true := by
  simpa only [hasRoom, wordRespCount, hd, decide_eq_true_eq, Nat.add_zero] using hfit

theorem portStep_of_illegal (hb : blockPending p s = none) (hs : (s.ports.get p).stream = w :: ws)
    (hd : decode p w = .illegal y) (hr : hasRoom p w s = true) :
    portStep p s = .next ((s.setStream p ws).raise .illegalCmd) := by
  simp only [portStep, hb, hs, hr, if_true, runWord, hd]

end

/-- A word that no legal opcode names is `ILLEGAL` (R56). -/
theorem exists_decode_illegal {p : Port} {w : Command} (h : opField w ∉ legalOpcodes p) : ∃ y, decode p w = .illegal y := by
  cases hd : decode p w with
  | illegal y => exact ⟨y, rfl⟩
  | command i => exact absurd ((decodesExactlyTheLegalOpcodes p w).1 ⟨i, hd⟩) h

/-- Settles O8: the word decodes to no command, needs no room, and raises the condition. -/
theorem illegalWordOnlyRaisesCondition6 : Obligations.IllegalWordOnlyRaisesCondition6 := by
  intro s p w ws rest ha hs hj hop hfit
  obtain ⟨y, hd⟩ := exists_decode_illegal hop
  refine ⟨setCond s.ev .illegalCmd, ?_, ?_, fun k hk hne => ?_⟩
  · rw [step_of_turn ha]
    exact portStep_of_illegal (blockPending_eq_none.2 hj) hs hd (hasRoom_of_illegal hd hfit)
  · rw [setCond_bit _ _ _ (by decide)]
    simp [condIndex]
  · rw [setCond_bit _ _ _ hk]
    simp [condIndex, hne]

/-! ## Response words -/

/-- Settles O10: the ports after the command are those before with the answer appended on one of them. -/
theorem commandsAppendTheirResponses : Obligations.CommandsAppendTheirResponses := by
  intro i s t h
  obtain ⟨ws, hlen, hports⟩ := exec_responds h
  rw [hports, State.respond_ports]
  refine ⟨⟨ws, by rw [Ports.get_set_same], hlen⟩, fun q hq => by rw [Ports.get_set_ne _ _ hq], fun q => ?_⟩
  rw [Ports.get_set]
  split
  · next hq => rw [hq]
  · rfl

end Sys2Proof.Machine

/-! PROOFS. The coefficient calculator and the configuration functions (O17 to O20). -/

namespace Sys2Proof.Machine

/-! ## The calculator on a valid and on a bad sample rate -/

theorem validRate_iff (sr : F32) : validRate sr = true ↔ flt posZero sr = true ∧ sr ≠ posInf := by
  simp [validRate]

theorem coefCalc_of_validRate (ty : FilterType) {sr : F32} (f q gdb : F32) (h : validRate sr = true) :
    coefCalc ty sr f q gdb =
      coefOf ty (cos32 (angularFreq f sr)) (sin32 (angularFreq f sr)) q (pow10 (fdiv gdb fForty)) :=
  if_pos h

theorem coefCalc_of_badRate (ty : FilterType) {sr : F32} (f q gdb : F32) (h : ¬ validRate sr = true) :
    coefCalc ty sr f q gdb = Coef.ident :=
  if_neg h

/-- Settles O17: such a rate is not valid, and `IDENT` is the answer of that branch. -/
theorem badSampleRateGivesIdent : Obligations.BadSampleRateGivesIdent := by
  intro ty sr f q gdb hsr
  refine coefCalc_of_badRate ty f q gdb fun hv => ?_
  obtain ⟨hpos, hfin⟩ := (validRate_iff sr).1 hv
  rcases hsr with hneg | hinf
  · exact absurd hpos (by simp [hneg])
  · exact hfin hinf

/-- Settles O18: on a valid rate each type's rule is its arm of `rawCoef`, normalized. -/
theorem cookbookFormsOfTheEightTypes : Obligations.CookbookFormsOfTheEightTypes := by
  intro sr f q gdb hpos hfin
  simp only [coefCalc_of_validRate _ f q gdb ((validRate_iff sr).2 ⟨hpos, hfin⟩)]
  exact ⟨rfl, rfl, rfl, rfl, rfl, rfl, rfl, rfl⟩

/-! ## A Peak band at 0 dB -/

/-- R86 item 1. -/
theorem pow10_of_zero {x : F32} (h : fIsZero x = true) : pow10 x = fOne := by
  simp [pow10, h]

/-- `A` of R80 is 1.0 at a gain of zero. -/
theorem pow10_gain_of_zero {gdb : F32} (h : fIsZero gdb = true) : pow10 (fdiv gdb fForty) = fOne := by
  have hz : gdb = posZero ∨ gdb = negZero := by simpa [fIsZero] using h
  refine pow10_of_zero ?_
  rcases hz with rfl | rfl <;> decide

/-- The greatest finite value has a magnitude of `(2^24 - 1) * 2^253` units. -/
theorem fMagUnits_le_max {a : F32} (h : fIsFinite a = true) : fMagUnits a ≤ 16777215 * 2 ^ 253 := by
  have hmax : magOf 0x7F7FFFFF = 16777215 * 2 ^ 253 := by decide +kernel
  have hle := (magOf_lt_iff 0x7F7FFFFF (a.toNat % 2147483648)).not.2 (by have := (fIsFinite_iff a).1 h; omega)
  rw [fMagUnits_eq, ← hmax]
  exact Nat.le_of_not_lt hle

/-- `1.0 + a` stays finite, since 1.0 lies far below half the last place of the greatest finite value, and it is not rounded to zero,
since 1.0 is nearer to it. -/
theorem fOne_fadd_of_nonneg {a : F32} (h : fIsFinite a = true) (h0 : fle posZero a = true) :
    fIsFinite (fadd fOne a) = true ∧ fIsZero (fadd fOne a) = false := by
  have hone : fIsFinite fOne = true := by decide
  have huone : fUnits fOne = 2 ^ 149 := by decide +kernel
  have hnonneg : 0 ≤ fUnits a := (fle_iff_fUnits (by decide) h).1 h0
  have hmax : fUnits a ≤ 16777215 * 2 ^ 253 := by
    have := fMagUnits_le_max h
    rw [← natAbs_fUnits] at this
    omega
  obtain ⟨⟨hround, -⟩, -⟩ := (addAndSubRoundTheExactResult fOne a).1 hone h
  have hbelow : |fUnits fOne + fUnits a| < overflowUnits * 1 := by
    rw [huone, abs_of_nonneg (by omega), overflowUnits]
    omega
  obtain ⟨hfin, hnear⟩ := hround hbelow
  refine ⟨hfin, Bool.eq_false_iff.2 fun hz => ?_⟩
  have hu : fUnits (fadd fOne a) = 0 := by
    rw [← Int.natAbs_eq_zero, natAbs_fUnits, ← fIsZero_iff, hz]
  have hclose := (hnear fOne hone).1
  rw [hu, huone, zero_mul, zero_sub, abs_neg, mul_one, sub_add_cancel_left, abs_neg, abs_of_nonneg (by omega),
    abs_of_nonneg hnonneg] at hclose
  omega

/-- Where `A` is 1.0 both halves of R80 are the same three values. -/
theorem rawPeak_fOne (cw : F32) {alpha : F32} (h : fIsFinite alpha = true) :
    rawPeak cw alpha fOne =
      { b0 := fadd fOne alpha, b1 := fmul fNegTwo cw, b2 := fsub fOne alpha,
        a0 := fadd fOne alpha, a1 := fmul fNegTwo cw, a2 := fsub fOne alpha } := by
  simp only [rawPeak, fmul_fOne h, fdiv_fOne h]

/-- Settles O19: `A` is 1.0, so `alpha * A` and `alpha / A` are both `alpha`, and `a0 = 1.0 + alpha` is finite and not zero. -/
theorem peakAtZeroDecibelsIsFlat : Obligations.PeakAtZeroDecibelsIsFlat := by
  intro sr f q gdb hsr hgdb hfin hnonneg
  obtain ⟨hafin, hazero⟩ := fOne_fadd_of_nonneg hfin hnonneg
  rw [coefCalc_of_validRate _ f q gdb hsr, pow10_gain_of_zero hgdb, coefOf, rawCoef, rawPeak_fOne _ hfin]
  exact ⟨fdiv_self hafin hazero, rfl, rfl⟩

/-! ## The configuration functions -/

/-- A free value that is replaced where it breaks a property keeps that property, once its replacement does. -/
theorem imposed_property {c : Bool} (P : F32 → Bool) {d : F32} (v : F32) (hc : c = true) (hd : P d = true) :
    P (if c && !P v then d else v) = true := by
  cases hv : P v <;> simp [hc, hd, hv]

/-- The property R86 item 2 gives `Sin32` at `x`. -/
def sinAllowed (x v : F32) : Bool := inUnit v && (!(fle posZero x && fle x pi32) || fle posZero v)

theorem sin32_allowed {x : F32} (h : fIsFinite x = true) : sinAllowed x (sin32 x) = true :=
  imposed_property (sinAllowed x) (Config.freeSin x) h (by
    have hunit : inUnit posZero = true := by decide
    have hzero : fle posZero posZero = true := by decide
    simp [sinAllowed, hunit, hzero])

theorem cos32_inUnit {x : F32} (h : fIsFinite x = true) : inUnit (cos32 x) = true :=
  imposed_property inUnit (Config.freeCos x) h (by decide)

theorem sin32_inUnit {x : F32} (h : fIsFinite x = true) : inUnit (sin32 x) = true := by
  have hs := sin32_allowed h
  rw [sinAllowed, Bool.and_eq_true] at hs
  exact hs.1

/-- On `[0, TWO_PI32/2]` the sine is not below zero. -/
theorem sin32_nonneg {x : F32} (h : fIsFinite x = true) (hx : inRange x posZero pi32 = true) : fle posZero (sin32 x) = true := by
  have hs := sin32_allowed h
  rw [inRange] at hx
  rw [sinAllowed, hx, Bool.not_true, Bool.false_or, Bool.and_eq_true] at hs
  exact hs.2

/-- R86 item 3 on finite values, the underflow said by the power. -/
theorem pow10_pos_or_underflow {x : F32} (h : fIsFinite x = true) :
    flt posZero (pow10 x) = true ∨ (pow10 x = posZero ∧ (10 : ℝ) ^ fReal x < 1 / 2 ^ 126) := by
  rw [← pow10Underflows_iff h]
  simpa [pow10Allowed] using pow10_allowed h

/-- R86 item 4 below zero. -/
theorem log10_of_neg {x : F32} (h : flt x posZero = true) : fIsNaN (log10 x) = true := by
  have hone : x ≠ fOne := by rintro rfl; revert h; decide
  have hzero : x ≠ posZero := by rintro rfl; revert h; decide
  rw [log10, if_neg hone, if_neg hzero, if_pos h]
  split
  · next hn => exact hn
  · exact (isQuietNaN_or _).1

/-- A bin of a window of zeros is the floor (R121 item 2). -/
theorem spectrumBin_of_zeros {X : List F32} (k : Nat) (h : ∀ x ∈ X, fIsZero x = true) : spectrumBin X k = dbFloor :=
  if_pos (List.all_eq_true.2 h)

/-- A bin of a window of finite values is finite and not below the floor (R121 item 3). -/
theorem spectrumBin_of_finite {X : List F32} (k : Nat) (h : ∀ x ∈ X, fIsFinite x = true) :
    fIsFinite (spectrumBin X k) = true ∧ fle dbFloor (spectrumBin X k) = true := by
  have hfloor : (fIsFinite dbFloor && fle dbFloor dbFloor) = true := by decide
  rw [← Bool.and_eq_true, spectrumBin]
  split
  · exact hfloor
  · exact imposed_property (fun v => fIsFinite v && fle dbFloor v) _ (List.all_eq_true.2 h) hfloor

theorem length_spectrumFn (X : List F32) : (spectrumFn X).length = X.length / 2 := by
  simp [spectrumFn]

/-- What holds of every bin of a window holds of every value `SpectrumFn` answers. -/
theorem forall_mem_spectrumFn {X : List F32} {p : F32 → Prop} (h : ∀ k, p (spectrumBin X k)) : ∀ b ∈ spectrumFn X, p b := by
  intro b hb
  obtain ⟨k, -, rfl⟩ := List.mem_map.1 hb
  exact h k

/-- Settles O20, function by function. -/
theorem configurationFunctionsKeepTheirProperties : Obligations.ConfigurationFunctionsKeepTheirProperties := by
  refine ⟨⟨pow10_of_zero (by decide), pow10_of_zero (by decide)⟩, fun x hx => ⟨sin32_inUnit hx, cos32_inUnit hx, sin32_nonneg hx⟩,
    fun x hx => pow10_pos_or_underflow hx, ⟨rfl, rfl⟩, ⟨rfl, rfl, fun x hx => log10_of_neg hx⟩, fun X => ⟨length_spectrumFn X, ?_, ?_⟩⟩
  · exact fun hX => forall_mem_spectrumFn fun k => spectrumBin_of_zeros k hX
  · exact fun hX => forall_mem_spectrumFn fun k => spectrumBin_of_finite k hX

end Sys2Proof.Machine

/-! PROOFS. Bands, the cascade, the updates before it, and the delay registers a compute step leaves (O21 to O26, O39). -/

namespace Sys2Proof.Machine

/-! ## Flushing (R93) -/

theorem fUnits_fabs (v : F32) : fUnits (fabs v) = |fUnits v| := by
  have hpos : ¬ 2147483648 ≤ v.toNat % 2147483648 := by omega
  rw [abs_fUnits, fMagUnits_eq, fUnits_eq, fabs_toNat, if_neg hpos, Nat.mod_mod]

/-- Flushing compares numbers, so it flushes a finite value below the threshold and no infinity or NaN. -/
theorem flt_fabs_flushTh (v : F32) :
    flt (fabs v) flushTh = true ↔ fIsFinite v = true ∧ |fUnits v| < fUnits flushTh := by
  have hinf : fOrd flushTh = 0x0DA24260 := by decide
  have hmag : fOrd (fabs v) = (v.toNat % 2147483648 : Nat) := by
    rw [fOrd_eq, fabs_toNat, if_neg (by omega), Nat.mod_mod]
  have hnan : fIsNaN flushTh = false := by decide
  rw [flt_iff, ← fUnits_fabs, ← fOrd_lt_iff, hnan, Bool.eq_false_iff, ne_eq, fIsNaN_iff, fIsFinite_iff, fabs_toNat, hmag, hinf]
  simp only [true_and]
  omega

/-- Settles O21: `flush` takes the branch of its comparison. -/
theorem flushZeroesOnlyTinyValues : Obligations.FlushZeroesOnlyTinyValues := by
  intro v
  refine ⟨fun hfin hlt => if_pos ((flt_fabs_flushTh v).2 ⟨hfin, hlt⟩), fun hkeep => if_neg fun hflush => ?_⟩
  obtain ⟨hfin, hlt⟩ := (flt_fabs_flushTh v).1 hflush
  rcases hkeep with hinf | hle
  · simp [hinf] at hfin
  · exact absurd hlt (not_lt.2 hle)

/-! ## A flat band (R95) -/

/-- Products of one coefficient with the two zeros are zeros, once one of them is finite. -/
theorem fIsZero_fmul_of_zero {c x y : F32} (hx : fIsZero x = true) (hy : fIsZero y = true) (h : fIsFinite (fmul c x) = true) :
    fIsZero (fmul c y) = true := by
  have hc : fIsFinite c = true := by
    have hnum := mt (nanResultsAreTheInvalidOperations c x).2.2.1.2 (by simp [notNaN_notInf_of_finite h])
    exact (inf_or_finite (by tauto)).resolve_left (by tauto)
  rw [fmul, fMulCore_of_finite hc (finite_of_zero hy), (fIsZero_iff y).1 hy, Nat.mul_zero, Option.getD_some]
  cases (fSign c != fSign y) <;> decide

/-- The difference of two finite values of one number is a zero. -/
theorem fIsZero_fsub_of_fUnits_eq {a b : F32} (ha : fIsFinite a = true) (hb : fIsFinite b = true) (h : fUnits a = fUnits b) :
    fIsZero (fsub a b) = true := by
  obtain ⟨-, -, -, hzero⟩ := (addAndSubRoundTheExactResult a b).1 ha hb
  rw [hzero (sub_eq_zero.2 h)]
  split <;> decide

theorem eq_zero_of_fIsZero {a : F32} (h : fIsZero a = true) : a = posZero ∨ a = negZero := by
  simpa [fIsZero] using h

theorem fUnits_of_fIsZero {a : F32} (h : fIsZero a = true) : fUnits a = 0 := by
  rcases eq_zero_of_fIsZero h with rfl | rfl <;> decide

/-- The value a flat band passes on. -/
def signlessZero (x : F32) : F32 := if x = negZero then posZero else x

/-- A coefficient's products with a sample and with the sample passed on cancel to a zero. -/
theorem fIsZero_fsub_fmul_signlessZero {c x : F32} (h : fIsFinite (fmul c x) = true) :
    fIsZero (fsub (fmul c x) (fmul c (signlessZero x))) = true := by
  unfold signlessZero
  split
  · next hx =>
    have hz : fIsZero x = true := by rw [hx]; decide
    have hl := fIsZero_fmul_of_zero hz hz h
    have hr := fIsZero_fmul_of_zero hz (y := posZero) (by decide) h
    exact fIsZero_fsub_of_fUnits_eq (finite_of_zero hl) (finite_of_zero hr)
      ((fUnits_of_fIsZero hl).trans (fUnits_of_fIsZero hr).symm)
  · exact fIsZero_fsub_of_fUnits_eq h h rfl

/-- One sample through a flat band with zero state. -/
theorem biquadStep_flat {c1 c2 x : F32} (hx : fIsFinite x = true) (h1 : fIsFinite (fmul c1 x) = true)
    (h2 : fIsFinite (fmul c2 x) = true) :
    biquadStep ⟨fOne, c1, c2, c1, c2⟩ ⟨posZero, posZero⟩ x = (signlessZero x, ⟨posZero, posZero⟩) := by
  have hout : fadd (fmul fOne x) posZero = signlessZero x := by rw [fOne_fmul hx, fadd_posZero hx, signlessZero]
  have hz1 : ∀ d, fIsZero d = true → flush (fadd d posZero) = posZero := by
    intro d hd
    rcases eq_zero_of_fIsZero hd with rfl | rfl <;> decide
  have hz2 : ∀ d, fIsZero d = true → flush d = posZero := by
    intro d hd
    rcases eq_zero_of_fIsZero hd with rfl | rfl <;> decide
  simp only [biquadStep, biquadOut, biquadState, hout, hz1 _ (fIsZero_fsub_fmul_signlessZero h1),
    hz2 _ (fIsZero_fsub_fmul_signlessZero h2)]

/-- Settles O24, sample by sample. -/
theorem flatBandIsTheIdentity : Obligations.FlatBandIsTheIdentity := by
  intro c1 c2 xs h
  induction xs with
  | nil => rfl
  | cons x xs ih =>
    obtain ⟨hx, h1, h2⟩ := h x (List.mem_cons_self ..)
    rw [bandProcess, biquadStep_flat hx h1 h2, ih fun y hy => h y (List.mem_cons_of_mem _ hy)]
    rfl

/-! ## The updates before the cascade (R90, R100 to R102) -/

theorem grownBand_iff (old n : Fin 11) (i : Nat) : grownBand old n i = true ↔ old.val ≤ i ∧ i < n.val := by
  simp [grownBand]

/-- Settles O25: what the update zeroes and marks is what `grownBand` selects. -/
theorem bandCountUpdateZeroesGrownSlots : Obligations.BandCountUpdateZeroesGrownSlots := by
  intro s
  refine ⟨rfl, fun i c hc => ?_, fun i => ?_, rfl, rfl, rfl, rfl, rfl, rfl, rfl, rfl, rfl, rfl⟩
  · simp only [bandCountUpdate_fs, fsGet_fsZero _ _ hc, grownBand_iff]
  · simp only [bandCountUpdate_valid, ← grownBand_iff]
    cases grownBand s.E.activeCount s.S.bandCount i <;> simp

section
variable (s : State)

theorem bandFresh_iff (j : Fin 10) : bandFresh s j = true ↔ s.bands.valid[j] = true ∧ s.bands.used[j] = bandKey s j := by
  simp [bandFresh]

/-- The update of one band leaves what the others' coefficients are computed from. -/
theorem bandKey_updateCoefficients (i j : Fin 10) : bandKey (updateCoefficients i s) j = bandKey s j := by
  obtain ⟨b, hb, -⟩ := updateCoefficients_frame s i
  rw [hb]
  rfl

theorem bandFresh_updateCoefficients_ne {i j : Fin 10} (h : j ≠ i) : bandFresh (updateCoefficients i s) j = bandFresh s j := by
  obtain ⟨-, hused, hvalid⟩ := updateCoefficients_band s i j
  rw [bandFresh, bandKey_updateCoefficients, hused, hvalid, if_neg h, if_neg h, bandFresh]

/-- The registers of a band that is not in the list stay. -/
theorem updateAll_band_of_not_mem (j : Fin 10) (is : List (Fin 10)) (h : j ∉ is) :
    (updateAll is s).bands.coef[j] = s.bands.coef[j] ∧ (updateAll is s).bands.used[j] = s.bands.used[j] ∧
    (updateAll is s).bands.valid[j] = s.bands.valid[j] := by
  induction is generalizing s with
  | nil => exact ⟨rfl, rfl, rfl⟩
  | cons i is ih =>
    obtain ⟨hji, hjs⟩ := not_or.1 (mt List.mem_cons.2 h)
    obtain ⟨hcoef, hused, hvalid⟩ := updateCoefficients_band s i j
    have hrest := ih (updateCoefficients i s) hjs
    rw [hcoef, hused, hvalid] at hrest
    rw [updateAll]
    simpa [hji] using hrest

/-- Every band of the list ends Fresh, with new coefficients where it was Stale (R90). -/
theorem updateAll_band_of_mem (j : Fin 10) (is : List (Fin 10)) (hn : is.Nodup) (h : j ∈ is) :
    (updateAll is s).bands.coef[j] = (if bandFresh s j = true then s.bands.coef[j] else coefOfKey (bandKey s j)) ∧
    (updateAll is s).bands.used[j] = bandKey s j ∧ (updateAll is s).bands.valid[j] = true := by
  induction is generalizing s with
  | nil => simp at h
  | cons i is ih =>
    obtain ⟨his, hn⟩ := List.nodup_cons.1 hn
    rw [updateAll]
    by_cases hji : j = i
    · subst hji
      obtain ⟨hc, hu, hv⟩ := updateAll_band_of_not_mem (updateCoefficients j s) j is his
      obtain ⟨hc', hu', hv'⟩ := updateCoefficients_band s j j
      rw [hc, hu, hv, hc', hu', hv']
      cases bandFresh s j <;> simp
    · have hcoef := (updateCoefficients_band s i j).1
      have hrest := ih (updateCoefficients i s) hn (List.mem_of_ne_of_mem hji h)
      rw [bandKey_updateCoefficients, bandFresh_updateCoefficients_ne s hji, hcoef] at hrest
      simpa [hji] using hrest

end

/-- Settles O26, the active bands being a list without repetition. -/
theorem updateRecomputesExactlyTheStaleBands : Obligations.UpdateRecomputesExactlyTheStaleBands := by
  intro s i
  refine ⟨fun hi => ?_, fun hi => ?_, updateAll_fs s _, ?_⟩
  · obtain ⟨hc, hu, hv⟩ := updateAll_band_of_mem s i _ (activeBands_nodup _) (mem_activeBands.2 hi)
    simp only [bandFresh_iff] at hc
    exact ⟨hu, hv, hc⟩
  · obtain ⟨hc, hu, hv⟩ := updateAll_band_of_not_mem s i (activeBands s.E.activeCount) (by rw [mem_activeBands]; omega)
    exact ⟨hu, hv, hc⟩
  · obtain ⟨b, hb, -⟩ := updateAll_frame s (activeBands s.E.activeCount)
    rw [hb]
    rfl

/-! ## A band and the cascade, in parts (R96, R97) -/

/-- A band processes a buffer in two parts, the second from the state the first leaves (R96). -/
theorem bandProcess_append (c : Coef) (z : Taps) (xs ys : List F32) :
    bandProcess c z (xs ++ ys) =
      ((bandProcess c z xs).1 ++ (bandProcess c (bandProcess c z xs).2 ys).1, (bandProcess c (bandProcess c z xs).2 ys).2) := by
  induction xs generalizing z with
  | nil => rfl
  | cons x xs ih => simp [bandProcess, ih]

/-- The cascade on a list of bands in two parts, the second on what the first leaves. -/
theorem chainProcess_append_bands (coef : Vector Coef 10) (c : Nat) (is js : List (Fin 10)) (buf : List F32) (fs : Memory) :
    chainProcess coef c (is ++ js) buf fs =
      chainProcess coef c js (chainProcess coef c is buf fs).1 (chainProcess coef c is buf fs).2 := by
  induction is generalizing buf fs with
  | nil => rfl
  | cons i is ih => exact ih ..

/-! ## The two orders of the cascade (R97) -/

/-- A space with a background word has a word at every index. -/
theorem isSome_read_of_background (b : F32) (m : Memory) (k : Nat) : (m.read (some b) k).isSome = true := by
  induction m with
  | nil => rfl
  | cons e rest ih =>
    rw [Memory.read_cons]
    split
    · rfl
    · exact ih

theorem tapIx_ne_of_band_ne {i j : Nat} (c : Nat) (h : j ≠ i) (t u : Tap) : tapIx j c t ≠ tapIx i c u := by
  cases t <;> cases u <;> simp only [tapIx, tapNum] <;> omega

/-- A word after the delay registers of a band and channel are set: one of the two set, or the word before. -/
theorem read_fsSet (fs : Memory) (i c : Nat) (z : Taps) (k : Nat) :
    (fsSet fs i c z).read (some posZero) k =
      if k = tapIx i c .z2 then some z.z2 else if k = tapIx i c .z1 then some z.z1 else fs.read (some posZero) k := by
  simp only [fsSet, Memory.read_write]

/-- Setting the registers a band and channel already have changes no word. -/
theorem read_fsSet_fsGet (fs : Memory) (i c k : Nat) :
    (fsSet fs i c (fsGet fs i c)).read (some posZero) k = fs.read (some posZero) k := by
  have hword : ∀ k, some ((fs.read (some posZero) k).getD posZero) = fs.read (some posZero) k := fun k => by
    obtain ⟨v, hv⟩ := Option.isSome_iff_exists.1 (isSome_read_of_background posZero fs k)
    rw [hv, Option.getD_some]
  rw [read_fsSet]
  split
  · next hk => rw [hk]; exact hword _
  · split
    · next hk => rw [hk]; exact hword _
    · rfl

section
variable (coef : Vector Coef 10) (c : Nat)

/-- On memories that agree on the delay registers of its bands the cascade gives the same samples, and its memories agree wherever the
memories did. -/
theorem chainProcess_congr_on (bands : List (Fin 10)) (buf : List F32) (fs gs : Memory)
    (h : ∀ i ∈ bands, ∀ t, fs.read (some posZero) (tapIx i.val c t) = gs.read (some posZero) (tapIx i.val c t)) :
    (chainProcess coef c bands buf fs).1 = (chainProcess coef c bands buf gs).1 ∧
    ∀ k, fs.read (some posZero) k = gs.read (some posZero) k →
      (chainProcess coef c bands buf fs).2.read (some posZero) k = (chainProcess coef c bands buf gs).2.read (some posZero) k := by
  induction bands generalizing buf fs gs with
  | nil => exact ⟨rfl, fun _ hk => hk⟩
  | cons i is ih =>
    have hi : fsGet fs i c = fsGet gs i c := by simp only [fsGet, h i (List.mem_cons_self ..)]
    have hset : ∀ (z : Taps) (k : Nat), fs.read (some posZero) k = gs.read (some posZero) k →
        (fsSet fs i c z).read (some posZero) k = (fsSet gs i c z).read (some posZero) k := fun z k hk => by
      rw [read_fsSet, read_fsSet, hk]
    obtain ⟨h1, h2⟩ := ih (bandProcess coef[i] (fsGet gs i c) buf).1 _ _
      fun j hj t => hset (bandProcess coef[i] (fsGet gs i c) buf).2 _ (h j (List.mem_cons_of_mem _ hj) t)
    simp only [chainProcess, hi]
    exact ⟨h1, fun k hk => h2 k (hset _ k hk)⟩

/-- Setting the delay registers of a band that is not in the cascade may as well be done after it. -/
theorem chainProcess_fsSet_of_not_mem {i : Fin 10} {bands : List (Fin 10)} (hi : i ∉ bands) (buf : List F32) (fs : Memory) (z : Taps) :
    (chainProcess coef c bands buf (fsSet fs i c z)).1 = (chainProcess coef c bands buf fs).1 ∧
    ∀ k, (chainProcess coef c bands buf (fsSet fs i c z)).2.read (some posZero) k =
      (fsSet (chainProcess coef c bands buf fs).2 i c z).read (some posZero) k := by
  have hoff : ∀ j ∈ bands, ∀ t u, tapIx j.val c t ≠ tapIx i.val c u := fun j hj =>
    tapIx_ne_of_band_ne c fun e => hi (Fin.ext e ▸ hj)
  obtain ⟨hout, hmem⟩ := chainProcess_congr_on coef c bands buf (fsSet fs i c z) fs fun j hj t => by
    rw [read_fsSet, if_neg (hoff j hj t _), if_neg (hoff j hj t _)]
  refine ⟨hout, fun k => ?_⟩
  by_cases hk : ∃ u, k = tapIx i.val c u
  · obtain ⟨u, rfl⟩ := hk
    rw [read_chainProcess_ne _ _ _ _ _ _ fun j hj t => (hoff j hj t u).symm, read_fsSet, read_fsSet]
    cases u <;> simp [tapIx, tapNum]
  · have hk2 : k ≠ tapIx i.val c .z2 := fun e => hk ⟨_, e⟩
    have hk1 : k ≠ tapIx i.val c .z1 := fun e => hk ⟨_, e⟩
    have hmem := hmem k
    simp only [read_fsSet, if_neg hk1, if_neg hk2] at hmem ⊢
    exact hmem trivial

/-- The cascade of distinct bands processes a buffer in two parts, the second on the delay registers the first leaves: each band's
registers are its own. -/
theorem chainProcess_append {bands : List (Fin 10)} (hn : bands.Nodup) (xs ys : List F32) (fs : Memory) :
    let r := chainProcess coef c bands xs fs
    let q := chainProcess coef c bands ys r.2
    (chainProcess coef c bands (xs ++ ys) fs).1 = r.1 ++ q.1 ∧
    ∀ k, (chainProcess coef c bands (xs ++ ys) fs).2.read (some posZero) k = q.2.read (some posZero) k := by
  induction bands generalizing xs ys fs with
  | nil => exact ⟨rfl, fun _ => rfl⟩
  | cons i is ih =>
    obtain ⟨hi, hn⟩ := List.nodup_cons.1 hn
    have hne : ∀ j ∈ is, i.val * 256 + c ≠ j.val * 256 + c := fun j hj e =>
      hi ((Fin.ext (by omega) : j = i) ▸ hj)
    simp only [chainProcess, bandProcess_append, fsGet_chainProcess_ne _ _ _ _ _ _ _ hne, fsGet_fsSet_same]
    generalize bandProcess coef[i] (fsGet fs i c) xs = r
    generalize bandProcess coef[i] r.2 ys = q
    obtain ⟨hout, hmem⟩ := ih hn r.1 q.1 (fsSet fs i c q.2)
    have hagree : ∀ k, (chainProcess coef c is r.1 (fsSet fs i c q.2)).2.read (some posZero) k =
        (fsSet (chainProcess coef c is r.1 (fsSet fs i c r.2)).2 i c q.2).read (some posZero) k := fun k => by
      rw [(chainProcess_fsSet_of_not_mem coef c hi r.1 fs q.2).2, read_fsSet, read_fsSet,
        (chainProcess_fsSet_of_not_mem coef c hi r.1 fs r.2).2, read_fsSet]
      split_ifs <;> rfl
    obtain ⟨hout', hmem'⟩ := chainProcess_congr_on coef c is q.1 _ _ fun j _ t => hagree (tapIx j.val c t)
    refine ⟨?_, fun k => (hmem k).trans (hmem' k (hagree k))⟩
    rw [hout, hout', (chainProcess_fsSet_of_not_mem coef c hi r.1 fs q.2).1, (chainProcess_fsSet_of_not_mem coef c hi r.1 fs r.2).1]

/-- One sample through all bands is the cascade on a buffer of one sample. -/
theorem chainProcess_singleton (bands : List (Fin 10)) (x : F32) (fs : Memory) :
    chainProcess coef c bands [x] fs =
      ([(sampleThroughBands coef c bands x fs).1], (sampleThroughBands coef c bands x fs).2) := by
  induction bands generalizing x fs with
  | nil => rfl
  | cons i is ih => exact ih ..

/-- The cascade leaves every word alone on an empty buffer. -/
theorem read_chainProcess_nil (bands : List (Fin 10)) (fs : Memory) (k : Nat) :
    (chainProcess coef c bands [] fs).2.read (some posZero) k = fs.read (some posZero) k := by
  induction bands generalizing fs with
  | nil => rfl
  | cons i is ih => exact (ih _).trans (read_fsSet_fsGet fs i c k)

end

/-- Settles O22: the sample-major order takes the buffer apart one sample at a time. -/
theorem bandMajorEqualsSampleMajor : Obligations.BandMajorEqualsSampleMajor := by
  intro coef c bands buf fs hn
  induction buf generalizing fs with
  | nil =>
    refine ⟨?_, read_chainProcess_nil coef c bands fs⟩
    exact List.length_eq_zero_iff.1 (chainProcess_length ..)
  | cons x xs ih =>
    obtain ⟨hout, hmem⟩ := chainProcess_append coef c hn [x] xs fs
    obtain ⟨hout', hmem'⟩ := ih (sampleThroughBands coef c bands x fs).2
    rw [chainProcess_singleton] at hout hmem
    refine ⟨?_, fun k => (hmem k).trans (hmem' k)⟩
    rw [chainSampleMajor, ← hout']
    exact hout

/-! ## The channels (R96, R99) -/

/-- Settles O23: the cascade reads and writes the delay registers of its own channel only. -/
theorem channelsAreIndependent : Obligations.ChannelsAreIndependent := by
  intro coef c bands buf fs gs hc h
  obtain ⟨hout, hmem⟩ := chainProcess_congr coef c bands buf fs gs h
  refine ⟨hout, hmem, fun i d hd hdc => fsGet_chainProcess_ne _ _ _ _ _ _ _ fun j _ => ?_⟩
  omega

/-- A row of inputs is read from the sample memories alone. -/
theorem inRow_of_mem_eq {s t : State} {c ns : Nat} (h : t.mem = s.mem) : inRow t c ns = inRow s c ns := by
  unfold inRow inWord memRead
  rw [h]

section
variable (ns : Nat) (g : F32) (s : State)

/-- The loop over the channels leaves in each channel it has reached the delay registers its cascade leaves there, and in every other
channel the registers it had. -/
theorem fsGet_forChannels_filterChannel {C : Nat} (hC : C ≤ 256) (i : Fin 10) {c : Nat} (hc : c < 256) :
    fsGet (forChannels (filterChannel ns g) C s).bands.fs i c =
      if c < C then fsGet (chainProcess s.bands.coef c (activeBands s.E.activeCount) (inRow s c ns) s.bands.fs).2 i c
      else fsGet s.bands.fs i c := by
  induction C generalizing i c with
  | zero => simp
  | succ C ih =>
    have hcoef := forChannels_keeps (fun u => u.bands.coef) (filterChannel ns g) (fun _ _ => rfl) C s
    have hcount := forChannels_keeps (fun u => u.E.activeCount) (filterChannel ns g) (fun _ _ => rfl) C s
    have hrow := forChannels_keeps (fun u => inRow u C ns) (filterChannel ns g) (fun _ _ => rfl) C s
    have ih := fun i {c} => ih (by omega) i (c := c)
    simp only [forChannels_succ, filterChannel_fs, hcoef, hcount, hrow]
    by_cases hcC : c = C
    · subst hcC
      rw [if_pos (Nat.lt_succ_self _)]
      exact (chainProcess_congr _ _ _ _ _ _ fun j => by rw [ih j hc, if_neg (lt_irrefl _)]).2 i
    · rw [fsGet_chainProcess_ne _ _ _ _ _ _ _ fun j _ => by omega, ih i hc]
      simp only [show c < C + 1 ↔ c < C by omega]

/-- The delay registers an unbypassed compute step leaves in a channel of its block. -/
theorem fsGet_computeBlock {C : Nat} (hC : C ≤ 256) (hb : s.S.bypass = false) (i : Fin 10) {c : Nat} (hc : c < C) :
    fsGet (computeBlock C ns s).bands.fs i c =
      fsGet (chainProcess (bandsUpdated s).bands.coef c (activeBands s.S.bandCount) (inRow s c ns) (bandsUpdated s).bands.fs).2 i c := by
  have hbands := forChannels_keeps State.bands (fun c => dryCopy c ns) (fun _ _ => rfl) C (bandsUpdated s)
  have hE := forChannels_keeps State.E (fun c => dryCopy c ns) (fun _ _ => rfl) C (bandsUpdated s)
  have hrow := forChannels_keeps (fun u => inRow u c ns) (fun c => dryCopy c ns) (fun _ _ => rfl) C (bandsUpdated s)
  have hcount : (bandsUpdated s).E.activeCount = s.S.bandCount := by simp [bandsUpdated]
  have hmem : (bandsUpdated s).mem = s.mem := by simp [bandsUpdated]
  rw [computeBlock_eq, hb, if_neg Bool.false_ne_true, fsGet_forChannels_filterChannel _ _ _ hC i (by omega), if_pos hc, hbands, hE,
    hrow, hcount, inRow_of_mem_eq hmem]

end

/-- The active bands are the slots below the count, in rising order (R26, R98). -/
theorem activeBands_val (n : Fin 11) : (activeBands n).map Fin.val = List.range n.val := by
  revert n
  decide

/-- Settles O39: the recurrence by definition, bands and cascades by their last sample and last band, and the compute step channel by
channel. -/
theorem computeStepAdvancesTheFilterState : Obligations.ComputeStepAdvancesTheFilterState := by
  refine ⟨fun _ _ _ _ _ _ _ _ => rfl, fun c z => ⟨rfl, fun xs x => bandProcess_append c z xs [x]⟩, activeBands_val,
    fun coef c buf fs => ⟨rfl, fun is i => chainProcess_append_bands coef c is [i] buf fs⟩, fun s C n hd hC _ hfed hb => ?_⟩
  have hchannels : C ≤ 256 := by have := hd.1.2; omega
  refine ⟨_, computeStep_of_fed hfed, fun c i hc => ?_⟩
  have hfs := fsGet_computeBlock n s hchannels hb i hc
  refine ⟨hfs, fun hi => hfs.trans (fsGet_chainProcess_ne _ _ _ _ _ _ _ fun j hj => ?_)⟩
  have := mem_activeBands.1 hj
  omega

end Sys2Proof.Machine

/-! PROOFS. The mix, the linear gain, and what a compute step writes (O27, O38, O40). -/

namespace Sys2Proof.Machine

/-! ## The mix and the linear gain (R104 to R106) -/

theorem mixSample_of_feq_zero (wet dry g : F32) {m : F32} (h : feq m posZero = true) : mixSample wet dry g m = dry := if_pos h

theorem mixSample_fOne (wet dry g : F32) : mixSample wet dry g fOne = fmul wet g := by
  have hzero : feq fOne posZero = false := by decide
  have hone : feq fOne fOne = true := by decide
  simp [mixSample, hzero, hone]

theorem mixSample_between (wet dry g : F32) {m : F32} (h0 : feq m posZero = false) (h1 : feq m fOne = false) :
    mixSample wet dry g m = fadd (fmul (fmul wet g) m) (fmul dry (fsub fOne m)) := by
  simp [mixSample, h0, h1]

theorem linearGain_of_zero {gdb : F32} (h : fIsZero gdb = true) : linearGain gdb = fOne := by
  refine pow10_of_zero ?_
  rcases eq_zero_of_fIsZero h with rfl | rfl <;> decide

theorem linearGain_posInf : linearGain posInf = posInf := by
  have hquot : fdiv posInf fTwenty = posInf := by decide
  rw [linearGain, hquot]
  rfl

theorem linearGain_negInf : linearGain negInf = posZero := by
  have hquot : fdiv negInf fTwenty = negInf := by decide
  rw [linearGain, hquot]
  rfl

/-- Settles O27, a clause per branch of `mixSample` and per special value of `pow10`. -/
theorem mixEndpointsAndFormula : Obligations.MixEndpointsAndFormula := by
  have hpos : feq posZero posZero = true := by decide
  have hneg : feq negZero posZero = true := by decide
  exact ⟨fun wet dry g => ⟨mixSample_of_feq_zero wet dry g hpos, mixSample_of_feq_zero wet dry g hneg, mixSample_fOne wet dry g⟩,
    fun wet dry g _ => mixSample_between wet dry g, fun _ => rfl, linearGain_of_zero (by decide), linearGain_of_zero (by decide),
    linearGain_posInf, linearGain_negInf⟩

/-! ## What the channels of a block write (R107, R108, R111) -/

theorem sampleIx_div {k : Nat} (c : Nat) (h : k < 65536) : sampleIx c k / 65536 = c := by
  unfold sampleIx
  omega

theorem sampleIx_mod {k : Nat} (c : Nat) (h : k < 65536) : sampleIx c k % 65536 = k := by
  unfold sampleIx
  omega

section
variable {sp : Space} {f : Nat → State → State} {row : Nat → State → List F32} {ns : Nat} (hns : ns ≤ 65536)
  (hf : ∀ c s, (f c s).mem = (memWriteRow sp (sampleIx c 0) (row c s) s).mem) (hl : ∀ c s, (row c s).length = ns)
include hns hf hl

/-- A word the loop over the channels writes is the one its channel's step writes. -/
theorem memRead_forChannels_sampleIx {C c k : Nat} (hc : c < C) (hk : k < ns) (s : State) :
    memRead (forChannels f C s) sp (sampleIx c k) = (row c (forChannels f c s))[k]? := by
  rw [memRead_forChannels_rows sp f row ns hns hf hl, sampleIx_div c (by omega), sampleIx_mod c (by omega), if_pos ⟨rfl, hc, hk⟩]

/-- The loop over the channels leaves the other spaces and the words outside its block. -/
theorem memRead_forChannels_of_outside {C j : Nat} {tp : Space} (s : State)
    (h : tp = sp → ∀ c k, c < C → k < ns → j ≠ sampleIx c k) : memRead (forChannels f C s) tp j = memRead s tp j := by
  rw [memRead_forChannels_rows sp f row ns hns hf hl, if_neg]
  rintro ⟨htp, hc, hk⟩
  exact h htp _ _ hc hk (Nat.div_add_mod' j 65536).symm

end

section
variable (C ns : Nat) (s : State)

/-- The state the channels' output loop starts from: the updates and the dry copy done (R145). -/
def dryCopied : State := forChannels (fun c => dryCopy c ns) C (bandsUpdated s)

/-- The step of one channel in the output loop: the bypass copy, or the cascade with gain and mix (R145). -/
def channelStep : Nat → State → State :=
  if s.S.bypass then fun c => copyThrough c ns else filterChannel ns (linearGain s.S.globalGain)

/-- The words that step writes to `OUT`. -/
def channelRow (c : Nat) (t : State) : List F32 :=
  if s.S.bypass then inRow t c ns else mixedRow c ns t (linearGain s.S.globalGain)

theorem computeBlock_eq_channelSteps : computeBlock C ns s = forChannels (channelStep ns s) C (dryCopied C ns s) :=
  computeBlock_eq C ns s

theorem channelStep_mem (c : Nat) (t : State) :
    (channelStep ns s c t).mem = (memWriteRow .out (sampleIx c 0) (channelRow ns s c t) t).mem := by
  unfold channelStep channelRow
  split
  · rfl
  · exact filterChannel_mem ..

theorem channelRow_length (c : Nat) (t : State) : (channelRow ns s c t).length = ns := by
  unfold channelRow
  split
  · exact inRow_length ..
  · exact mixedRow_length ..

@[simp] theorem bandsUpdated_mem : (bandsUpdated s).mem = s.mem := by simp [bandsUpdated]

end

section
variable {s : State} {C ns : Nat}

theorem memRead_inp_of_fed (h : blockFed s C ns) {c k : Nat} (hc : c < C) (hk : k < ns) :
    memRead s .inp (sampleIx c k) = some (inWord s c k) := by
  obtain ⟨v, hv⟩ := Option.isSome_iff_exists.1 (h c k hc hk)
  rw [inWord, hv]
  rfl

theorem inRow_getElem? (s : State) (c : Nat) {k : Nat} (hk : k < ns) : (inRow s c ns)[k]? = some (inWord s c k) := by
  simp [inRow, hk]

/-- A row of inputs is read from `IN` alone. -/
theorem inRow_of_inp_eq {t : State} (c : Nat) (h : t.mem.inp = s.mem.inp) : inRow t c ns = inRow s c ns := by
  unfold inRow inWord memRead Mems.get
  rw [h]

theorem dryCopied_inp : (dryCopied C ns s).mem.inp = s.mem.inp :=
  (forChannels_keeps (fun u => u.mem.inp) (fun c => dryCopy c ns) (fun _ _ => rfl) C _).trans (by rw [bandsUpdated_mem])

/-- The dry copy leaves in `DRY` the inputs of the block (R108). -/
theorem memRead_dry_dryCopied (hns : ns ≤ 65536) {c k : Nat} (hc : c < C) (hk : k < ns) :
    memRead (dryCopied C ns s) .dry (sampleIx c k) = some (inWord s c k) := by
  have hinp : (forChannels (fun c => dryCopy c ns) c (bandsUpdated s)).mem.inp = s.mem.inp := dryCopied_inp
  rw [dryCopied, memRead_forChannels_sampleIx (f := fun c => dryCopy c ns) (row := fun c t => inRow t c ns) hns (fun _ _ => rfl)
    (fun _ _ => inRow_length ..) hc hk, inRow_of_inp_eq c hinp, inRow_getElem? s c hk]

/-- The output loop leaves `DRY`. -/
theorem memRead_dry_channelSteps (hns : ns ≤ 65536) (u : State) (D j : Nat) :
    memRead (forChannels (channelStep ns s) D u) .dry j = memRead u .dry j :=
  memRead_forChannels_of_outside hns (channelStep_mem ns s) (channelRow_length ns s) u nofun

theorem memRead_dry_computeBlock (hns : ns ≤ 65536) {c k : Nat} (hc : c < C) (hk : k < ns) :
    memRead (computeBlock C ns s) .dry (sampleIx c k) = some (inWord s c k) := by
  rw [computeBlock_eq_channelSteps, memRead_dry_channelSteps hns, memRead_dry_dryCopied hns hc hk]

theorem memRead_out_computeBlock (hns : ns ≤ 65536) {c k : Nat} (hc : c < C) (hk : k < ns) :
    memRead (computeBlock C ns s) .out (sampleIx c k) =
      (channelRow ns s c (forChannels (channelStep ns s) c (dryCopied C ns s)))[k]? := by
  rw [computeBlock_eq_channelSteps,
    memRead_forChannels_sampleIx hns (channelStep_mem ns s) (channelRow_length ns s) hc hk]

/-- A compute step writes no word but those of its block in `OUT` and `DRY`. -/
theorem memRead_computeBlock_of_outside (hns : ns ≤ 65536) {sp : Space} {j : Nat}
    (h : sp = .out ∨ sp = .dry → ∀ c k, c < C → k < ns → j ≠ sampleIx c k) :
    memRead (computeBlock C ns s) sp j = memRead s sp j := by
  have hdry : memRead (dryCopied C ns s) sp j = memRead (bandsUpdated s) sp j :=
    memRead_forChannels_of_outside (row := fun c t => inRow t c ns) hns (fun _ _ => rfl) (fun _ _ => inRow_length ..) _
      fun hsp => h (.inr hsp)
  rw [computeBlock_eq_channelSteps,
    memRead_forChannels_of_outside hns (channelStep_mem ns s) (channelRow_length ns s) _ fun hsp => h (.inl hsp), hdry]
  unfold memRead
  rw [bandsUpdated_mem]

theorem afterCompute_eq_ite :
    afterCompute C ns s = if s.S.analyzerEn = true ∧ 1 ≤ C ∧ 1 ≤ ns then some ⟨C, ns, .capture 0⟩ else none := by
  simp [afterCompute, and_assoc]

/-! ## The bypassed block (R110 to R114) -/

theorem computeBlock_bands_of_bypass (hb : s.S.bypass = true) : (computeBlock C ns s).bands = (bandsUpdated s).bands := by
  rw [computeBlock_eq, hb, if_pos rfl]
  exact (forChannels_keeps State.bands (fun c => copyThrough c ns) (fun _ _ => rfl) C _).trans
    (forChannels_keeps State.bands (fun c => dryCopy c ns) (fun _ _ => rfl) C _)

theorem memRead_out_computeBlock_of_bypass (hns : ns ≤ 65536) (hb : s.S.bypass = true) {c k : Nat} (hc : c < C) (hk : k < ns) :
    memRead (computeBlock C ns s) .out (sampleIx c k) = some (inWord s c k) := by
  have hinp : (forChannels (fun c => copyThrough c ns) c (dryCopied C ns s)).mem.inp = s.mem.inp :=
    (forChannels_copyThrough_inp ..).trans dryCopied_inp
  rw [memRead_out_computeBlock hns hc hk, channelRow, channelStep, hb, if_pos rfl, if_pos rfl, inRow_of_inp_eq c hinp,
    inRow_getElem? s c hk]

/-- The updates before the channels leave the delay registers of a band that was active (R101). -/
theorem fsGet_bandsUpdated_of_active {i c : Nat} (hi : i < s.E.activeCount.val) (hc : c < 256) :
    fsGet (bandsUpdated s).bands.fs i c = fsGet s.bands.fs i c := by
  have hgrown : grownBand s.E.activeCount s.S.bandCount i = false := by simp [grownBand, hi]
  rw [bandsUpdated, updateAll_fs, bandCountUpdate_fs, fsGet_fsZero _ _ hc, hgrown, if_neg Bool.false_ne_true]

/-! ## The mixed block (R105, R107) -/

/-- One word of a mixed row is the mix of its wet and its dry sample. -/
theorem mixedRow_getElem? (s : State) (c : Nat) (g : F32) {k : Nat} (hk : k < ns) :
    (mixedRow c ns s g)[k]? = some (mixSample ((wetRow s c ns).getD k posZero) (dryWord s c k) g s.S.mix) := by
  have hlen : k < (wetRow s c ns).length := by simpa [wetRow] using hk
  change (List.zipWith (fun w d => mixSample w d g s.S.mix) (wetRow s c ns) (dryRow s c ns))[k]? = _
  simp [List.getElem?_zipWith, dryRow, hk, List.getElem?_eq_getElem hlen]

/-- The wet signal of a channel depends on the coefficients, the count of active bands, `IN` and the channel's delay registers. -/
theorem wetRow_congr {t u : State} {c : Nat} (hcoef : t.bands.coef = u.bands.coef) (hcount : t.E.activeCount = u.E.activeCount)
    (hinp : t.mem.inp = u.mem.inp) (hfs : ∀ i : Fin 10, fsGet t.bands.fs i c = fsGet u.bands.fs i c) :
    wetRow t c ns = wetRow u c ns := by
  unfold wetRow
  rw [hcoef, hcount, inRow_of_inp_eq c hinp]
  exact (chainProcess_congr _ _ _ _ _ _ hfs).1

theorem dryCopied_bands : (dryCopied C ns s).bands = (bandsUpdated s).bands :=
  forChannels_keeps State.bands (fun c => dryCopy c ns) (fun _ _ => rfl) C _

/-- When the output loop reaches a channel, its wet signal is still the one after the updates. -/
theorem wetRow_before_channel (g : F32) {c : Nat} (hc : c < 256) :
    wetRow (forChannels (filterChannel ns g) c (dryCopied C ns s)) c ns = wetRow (bandsUpdated s) c ns := by
  refine wetRow_congr ?_ ?_ ?_ fun i => ?_
  · exact (forChannels_keeps (fun u => u.bands.coef) (filterChannel ns g) (fun _ _ => rfl) c _).trans (by rw [dryCopied_bands])
  · exact (forChannels_keeps (fun u => u.E.activeCount) (filterChannel ns g) (fun _ _ => rfl) c _).trans
      (forChannels_keeps (fun u => u.E.activeCount) (fun c => dryCopy c ns) (fun _ _ => rfl) C _)
  · exact (forChannels_keeps (fun u => u.mem.inp) (filterChannel ns g) (fun _ _ => rfl) c _).trans
      (forChannels_keeps (fun u => u.mem.inp) (fun c => dryCopy c ns) (fun _ _ => rfl) C _)
  · rw [fsGet_forChannels_filterChannel ns g _ hc.le i hc, if_neg (lt_irrefl c), dryCopied_bands]

theorem memRead_out_computeBlock_of_mixed (hC : C ≤ 256) (hns : ns ≤ 65536) (hb : s.S.bypass = false) {c k : Nat} (hc : c < C)
    (hk : k < ns) :
    memRead (computeBlock C ns s) .out (sampleIx c k) =
      some (mixSample ((wetRow (bandsUpdated s) c ns).getD k posZero) (inWord s c k) (linearGain s.S.globalGain) s.S.mix) := by
  set t := forChannels (filterChannel ns (linearGain s.S.globalGain)) c (dryCopied C ns s) with ht
  have hstep : channelStep ns s = filterChannel ns (linearGain s.S.globalGain) := by
    rw [channelStep, hb, if_neg Bool.false_ne_true]
  have hwet : wetRow t c ns = wetRow (bandsUpdated s) c ns := wetRow_before_channel _ (by omega)
  have hdry : dryWord t c k = inWord s c k := by
    rw [dryWord, ht, ← hstep, memRead_dry_channelSteps hns, memRead_dry_dryCopied hns hc hk, Option.getD_some]
  have hmix : t.S.mix = s.S.mix :=
    calc t.S.mix
      _ = (dryCopied C ns s).S.mix := forChannels_keeps (fun u => u.S.mix) (filterChannel ns _) (fun _ _ => rfl) c _
      _ = (bandsUpdated s).S.mix := forChannels_keeps (fun u => u.S.mix) (fun c => dryCopy c ns) (fun _ _ => rfl) C _
      _ = s.S.mix := by simp [bandsUpdated]
  rw [memRead_out_computeBlock hns hc hk, hstep, channelRow, hb, if_neg Bool.false_ne_true, mixedRow_getElem? _ _ _ hk, ← ht, hwet,
    hdry, hmix]

/-- A compute step leaves the delay registers of the channels outside its block. -/
theorem fsGet_computeBlock_of_outside (hC : C ≤ 256) (hb : s.S.bypass = false) (i : Fin 10) {c : Nat} (hCc : C ≤ c) (hc : c < 256) :
    fsGet (computeBlock C ns s).bands.fs i c = fsGet (bandsUpdated s).bands.fs i c := by
  rw [computeBlock_eq, hb, if_neg Bool.false_ne_true, fsGet_forChannels_filterChannel _ _ _ hC i hc, if_neg hCc.not_gt]
  exact congrArg (fun b => fsGet b.fs i c) dryCopied_bands

/-- A compute step changes no band register after the updates but the delay registers. -/
theorem computeBlock_bands :
    (computeBlock C ns s).bands = { (bandsUpdated s).bands with fs := (computeBlock C ns s).bands.fs } :=
  computeBlock_from (fun u => { u.bands with fs := (computeBlock C ns s).bands.fs }) (fun _ _ _ => rfl) (fun _ _ _ => rfl)
    (fun _ _ _ _ => rfl) C ns s

end

/-- Settles O38: the block's `OUT` words row by row, and what the updates, the dry copy and the channels keep. -/
theorem computeStepWritesTheMixedBlock : Obligations.ComputeStepWritesTheMixedBlock := by
  intro s C n hd hC hn hfed hb
  obtain ⟨⟨-, hmax⟩, ⟨-, hcap⟩, -⟩ := hd
  have hC : C ≤ 256 := by omega
  have hn : n ≤ 65536 := by omega
  refine ⟨_, computeStep_of_fed hfed, fun c k hc hk => memRead_out_computeBlock_of_mixed hC hn hb hc hk, fun c k hc hk => ?_,
    fun sp j _ hj => memRead_computeBlock_of_outside hn fun _ => hj,
    fun sp j hout hdry => memRead_computeBlock_of_outside hn fun hsp => (hsp.elim hout hdry).elim,
    fun i c hCc hc => fsGet_computeBlock_of_outside hC hb i hCc hc, computeBlock_E C n s, computeBlock_bands, computeBlock_P C n s,
    computeBlock_S C n s, computeBlock_ev C n s, computeBlock_ports C n s, computeBlock_env C n s, computeBlock_dims C n s,
    afterCompute_eq_ite⟩
  exact (memRead_dry_computeBlock hn hc hk).trans (memRead_inp_of_fed hfed hc hk).symm

/-- Settles O40: the bypass copy writes the inputs, and only the updates before it touch the bands. -/
theorem bypassedBlockCopiesAndKeepsState : Obligations.BypassedBlockCopiesAndKeepsState := by
  intro s C n hd _ hn hfed hb
  obtain ⟨-, ⟨-, hcap⟩, -⟩ := hd
  have hn : n ≤ 65536 := by omega
  have hbands := computeBlock_bands_of_bypass (C := C) (ns := n) hb
  refine ⟨_, computeStep_of_fed hfed, fun c k hc hk => ?_, fun c k hc hk => ?_,
    fun sp j _ hj => memRead_computeBlock_of_outside hn fun _ => hj,
    fun sp j hout hdry => memRead_computeBlock_of_outside hn fun hsp => (hsp.elim hout hdry).elim, hbands, fun i c hi hc => ?_,
    computeBlock_E C n s, computeBlock_P C n s, computeBlock_S C n s, computeBlock_ev C n s, computeBlock_ports C n s,
    computeBlock_env C n s, computeBlock_dims C n s, afterCompute_eq_ite⟩
  · exact (memRead_out_computeBlock_of_bypass hn hb hc hk).trans (memRead_inp_of_fed hfed hc hk).symm
  · exact (memRead_dry_computeBlock hn hc hk).trans (memRead_inp_of_fed hfed hc hk).symm
  · exact (congrArg (fun b => fsGet b.fs i c) hbands).trans (fsGet_bandsUpdated_of_active hi hc)

end Sys2Proof.Machine

/-! PROOFS. `ANALYZE` and the reference spectrum (O49, O51). -/

namespace Sys2Proof.Machine

/-! ## The three outcomes of `ANALYZE` (R122, R153, R154) -/

section
variable {s : State}

theorem execAnalyze_of_disabled (hen : s.P.analyzerEn = false) : execAnalyze s = .next s := by
  rw [execAnalyze, hen, if_neg Bool.false_ne_true]

theorem execAnalyze_of_dropped (hen : s.P.analyzerEn = true) (hdrop : nextDrop s = true) :
    execAnalyze s = .next (s.takeDrop.raise .analyzeDropped) := by
  rw [execAnalyze, if_pos hen, if_pos hdrop]

theorem execAnalyze_of_kept (hen : s.P.analyzerEn = true) (hdrop : nextDrop s = false) :
    execAnalyze s = .next (publish (spectrumFn (copyWindow s)) s).takeDrop := by
  rw [execAnalyze, if_pos hen, hdrop, if_neg Bool.false_ne_true]

end

theorem length_spectrumFn_copyWindow (s : State) : (spectrumFn (copyWindow s)).length = s.dims.window / 2 := by
  rw [length_spectrumFn, copyWindow, List.length_map, List.length_range]

/-- A publication writes the bins from word 0 of `SPEC` on, and no other word. -/
theorem memRead_publish (B : List F32) (s : State) (sp : Space) (k : Nat) :
    memRead (publish B s) sp k = if sp = .spec ∧ k < B.length then B[k]? else memRead s sp k := by
  have hrow : memRead (publish B s) sp k = memRead (memWriteRow .spec 0 B s) sp k := rfl
  rw [hrow, memRead_memWriteRow]
  simp only [Nat.zero_le, true_and, Nat.zero_add, Nat.sub_zero]

theorem memRead_takeDrop (s : State) (sp : Space) (k : Nat) : memRead s.takeDrop sp k = memRead s sp k := by
  rw [memRead, State.takeDrop_mem, memRead]

/-- A publication leaves the free choices alone, so the choice taken after it is the one taken before it. -/
theorem publish_takeDrop (B : List F32) (s : State) : (publish B s).takeDrop = publish B s.takeDrop := by
  have hdrops : (publish B s).env.drops = s.env.drops := rfl
  unfold State.takeDrop
  rw [hdrops]
  split <;> rfl

/-- What a publication with its choice taken leaves alone. -/
theorem takeDrop_publish_frame (B : List F32) (s : State) :
    (publish B s).takeDrop = { s with
      mem := (publish B s).takeDrop.mem, E := { s.E with snapValid := true, snapSeq := s.E.snapSeq + 1#32 },
      env := s.takeDrop.env } := by
  obtain ⟨e, he, -⟩ := takeDrop_frame s
  rw [publish_takeDrop, he]
  rfl

/-- Settles O49, a clause per outcome. -/
theorem analyzePublishesUnlessDropped : Obligations.AnalyzePublishesUnlessDropped := by
  intro s
  refine ⟨execAnalyze_of_disabled, fun hen hdrop => ?_, fun hen hdrop => ⟨_, execAnalyze_of_kept hen hdrop, ?_, ?_, ?_⟩⟩
  · have hraise : s.takeDrop.raise .analyzeDropped = { s.takeDrop with ev := s.takeDrop.ev ||| 0x40#7 } := rfl
    rw [← s.takeDrop_ev, ← hraise]
    exact execAnalyze_of_dropped hen hdrop
  · intro k hk
    rw [memRead_takeDrop, memRead_publish, length_spectrumFn_copyWindow, if_pos ⟨rfl, hk⟩]
  · intro sp k hout
    rw [memRead_takeDrop, memRead_publish, length_spectrumFn_copyWindow, if_neg]
    rintro ⟨hsp, hk⟩
    exact hout.elim (absurd hsp) hk.not_ge
  · exact takeDrop_publish_frame _ s

/-! ## The reference spectrum (R119, R120) -/

/-- The Hann weights of four samples leave the second and the third, each with weight 3/4. -/
theorem dftBin_four (a b c d : F32) (k : ℕ) :
    dftBin [a, b, c, d] k =
      (3 / 4 * fReal b : ℝ) * Complex.exp (-2 * Real.pi * Complex.I * k * (1 : ℕ) / (4 : ℕ)) +
      (3 / 4 * fReal c : ℝ) * Complex.exp (-2 * Real.pi * Complex.I * k * (2 : ℕ) / (4 : ℕ)) := by
  obtain ⟨h0, h1, h2, h3⟩ := hann_four
  simp [dftBin, Finset.sum_range_succ, h0, h1, h2, h3]

theorem refMag_four_zero (a b c d : F32) : refMag [a, b, c, d] 0 = 3 / 32 * |fReal b + fReal c| := by
  have hbin : dftBin [a, b, c, d] 0 = ((3 / 4 * (fReal b + fReal c) : ℝ) : ℂ) := by
    rw [dftBin_four]
    simp only [Nat.cast_zero, mul_zero, zero_mul, zero_div, Complex.exp_zero, mul_one]
    push_cast
    ring
  rw [refMag, hbin, Complex.norm_real, Real.norm_eq_abs, abs_mul, abs_of_pos (by norm_num : (0 : ℝ) < 3 / 4)]
  norm_num
  ring

theorem refMag_four_one (a b c d : F32) :
    refMag [a, b, c, d] 1 = 3 / 16 * Real.sqrt (fReal b ^ 2 + fReal c ^ 2) := by
  have hbin : dftBin [a, b, c, d] 1 = -((3 / 4 : ℝ) * (fReal c + fReal b * Complex.I)) := by
    rw [dftBin_four, twiddle_four.1, twiddle_four.2]
    push_cast
    ring
  rw [refMag, hbin, norm_neg, norm_mul, Complex.norm_add_mul_I, Complex.norm_real, add_comm (fReal c ^ 2)]
  norm_num
  ring

theorem fReal_of_fIsZero {a : F32} (h : fIsZero a = true) : fReal a = 0 := by
  rw [fReal, fUnits_of_fIsZero h, Int.cast_zero, zero_div]

/-- Every sample of a silent window is zero, and so is the default beyond its end. -/
theorem fReal_getD_of_zeros {X : List F32} (h : ∀ x ∈ X, fIsZero x = true) (n : ℕ) : fReal (X.getD n posZero) = 0 := by
  apply fReal_of_fIsZero
  rw [List.getD_eq_getElem?_getD]
  cases hn : X[n]? with
  | none => decide
  | some x => exact h x (List.mem_of_getElem? hn)

theorem refMag_of_zeros {X : List F32} (h : ∀ x ∈ X, fIsZero x = true) (k : ℕ) : refMag X k = 0 := by
  have hbin : dftBin X k = 0 := Finset.sum_eq_zero fun n _ => by
    rw [fReal_getD_of_zeros h, mul_zero, Complex.ofReal_zero, zero_mul]
  rw [refMag, hbin, norm_zero, zero_div, zero_div]

theorem refDb_zero : refDb 0 = -100 := if_pos rfl

theorem refDb_of_ne_zero {mag : ℝ} (h : mag ≠ 0) : refDb mag = max (20 * Real.logb 10 mag) (-100) := if_neg h

theorem refDb_ge_floor (mag : ℝ) : -100 ≤ refDb mag := by
  by_cases h : mag = 0
  · rw [h, refDb_zero]
  · rw [refDb_of_ne_zero h]
    exact le_max_right _ _

/-- Settles O51: the two magnitudes of four samples by their DFT, and the decibels by the branches of `refDb`. -/
theorem referenceSpectrumOfSilenceIsTheFloor : Obligations.ReferenceSpectrumOfSilenceIsTheFloor := by
  refine ⟨fun a b c d => ⟨refMag_four_zero a b c d, refMag_four_one a b c d⟩, ⟨?_, ?_⟩,
    fun X k hmag => refDb_of_ne_zero hmag, fun X k hX => ?_, fun X k => refDb_ge_floor _⟩
  · rw [refMag_four_zero, fReal_fOne]
    norm_num
  · rw [refMag_four_one, fReal_fOne, one_pow, one_add_one_eq_two]
    ring
  · rw [spectrumRef, refMag_of_zeros hX, refDb_zero]

end Sys2Proof.Machine

/-! PROOFS. Parameter commands (O28 to O33). -/

namespace Sys2Proof.Machine

/-! ## The operand checks (R12, R128) -/

theorem bandSlot_of_lt {idx : Nat} (h : idx < 10) : bandSlot idx = some ⟨idx, h⟩ := dif_pos h

theorem bandSlot_of_ge {idx : Nat} (h : 10 ≤ idx) : bandSlot idx = none := dif_neg h.not_gt

theorem filterTypeOf_filterCode (ty : FilterType) : filterTypeOf (filterCode ty) = some ty := by cases ty <;> rfl

theorem filterTypeOf_of_ge {code : Nat} (h : 8 ≤ code) : filterTypeOf code = none := by
  obtain ⟨k, rfl⟩ := Nat.exists_eq_add_of_le' h
  rfl

theorem clampCount_val (n : Int) : ((clampCount n).val : Int) = max 0 (min n 10) := by
  unfold clampCount
  split
  · next hneg => simp only [Fin.val_zero]; omega
  · split
    · simp only; omega
    · have hten : (10 : Fin 11).val = 10 := rfl
      omega

/-- The clamp keeps exactly the counts from 0 to 10. -/
theorem clampCount_val_eq_iff (n : Int) : ((clampCount n).val : Int) = n ↔ 0 ≤ n ∧ n ≤ 10 := by
  rw [clampCount_val]
  omega

section
variable (s : State)

/-! ## Stores that raise condition 1 -/

theorem setCond_invalidParam (ev : BitVec 7) : setCond ev .invalidParam = ev ||| 0x01#7 := rfl

theorem raise_invalidParam : s.raise .invalidParam = { s with ev := s.ev ||| 0x01#7 } := rfl

/-- A store that may raise a condition changes the parameter store and the condition bits only. -/
theorem raiseIf_withP (b : Bool) (c : Cond) (P : Params) :
    (s.raiseIf b c).withP P = { s with P := P, ev := (s.raiseIf b c).ev } := by
  cases b <;> rfl

/-- A store of a clamped value raises condition 1 exactly when the clamp changed it (R128, R135). -/
theorem raiseIf_ne_withP (stored v : F32) (P : Params) :
    (s.raiseIf (stored != v) .invalidParam).withP P =
      { s with P := P, ev := if stored = v then s.ev else s.ev ||| 0x01#7 } := by
  rw [raiseIf_withP, State.raiseIf_ev]
  simp only [bne_iff_ne, ne_eq, ite_not, setCond_invalidParam]

/-! ## Band writes (R128, R130) -/

section
variable (put : Params → Fin 10 → F32 → Params) {band : Nat} {v : F32} (lo hi : F32)

theorem bandWrite_of_stored (h : band < 10) (hv : fIsNaN v = false) :
    bandWrite put band v lo hi s =
      { s with P := put s.P ⟨band, h⟩ (clampF v lo hi), ev := if clampF v lo hi = v then s.ev else s.ev ||| 0x01#7 } := by
  rw [← raiseIf_ne_withP, bandWrite, bandSlot_of_lt h]
  exact if_neg (Bool.eq_false_iff.1 hv)

theorem bandWrite_of_rejected (h : 10 ≤ band ∨ fIsNaN v = true) :
    bandWrite put band v lo hi s = { s with ev := s.ev ||| 0x01#7 } := by
  rw [← raise_invalidParam, bandWrite]
  split
  · rfl
  · next hslot =>
    obtain hband | hv := h
    · simp [bandSlot_of_ge hband] at hslot
    · exact if_pos hv

end

theorem execSetBandType_of_stored {band : Nat} (h : band < 10) (ty : FilterType) :
    execSetBandType band (filterCode ty) s = .next (s.withP (putType s.P ⟨band, h⟩ ty)) := by
  rw [execSetBandType, bandSlot_of_lt h, filterTypeOf_filterCode]

theorem execSetBandType_of_rejected {band code : Nat} (h : 10 ≤ band ∨ 8 ≤ code) :
    execSetBandType band code s = .next (s.raise .invalidParam) := by
  unfold execSetBandType
  split
  · next hslot htype =>
    obtain hband | hcode := h
    · simp [bandSlot_of_ge hband] at hslot
    · simp [filterTypeOf_of_ge hcode] at htype
  · rfl

end

/-- Settles O28: the slot and the code both name something, or one of them names nothing. -/
theorem setBandTypeStoresAValidCode : Obligations.SetBandTypeStoresAValidCode := by
  intro s band code
  refine ⟨?_, execSetBandType_of_rejected s⟩
  rintro h ty rfl
  exact execSetBandType_of_stored s h ty

/-- Settles O29: the three commands are one band write with three fields and ranges. -/
theorem bandWritesClampAndStore : Obligations.BandWritesClampAndStore := by
  refine fun s band v => ⟨fun h hv => ⟨?_, ?_, ?_⟩, fun h => ⟨?_, ?_, ?_⟩⟩
  · exact congrArg Host.Outcome.next (bandWrite_of_stored s putFreq freqMin freqMax h hv)
  · exact congrArg Host.Outcome.next (bandWrite_of_stored s putQ qMin qMax h hv)
  · exact congrArg Host.Outcome.next (bandWrite_of_stored s putGain gainMin gainMax h hv)
  all_goals exact congrArg Host.Outcome.next (bandWrite_of_rejected s _ _ _ h)

/-! ## Global gain and mix (R134, R135) -/

/-- Settles O30, by whether the value is a NaN. -/
theorem globalGainAndMixWrites : Obligations.GlobalGainAndMixWrites := by
  refine fun s v => ⟨fun hv => ⟨?_, ?_⟩, fun hv => ⟨if_pos hv, if_pos hv⟩⟩
  · exact if_neg (Bool.eq_false_iff.1 hv)
  · exact (if_neg (Bool.eq_false_iff.1 hv)).trans (congrArg Host.Outcome.next (raiseIf_ne_withP s (clampF v posZero fOne) v _))

/-! ## `NOP` and the flags (R129, R136, R137) -/

/-- Settles O31: each command's meaning is the update it states. -/
theorem nopAndFlagWrites : Obligations.NopAndFlagWrites := fun _ _ => ⟨rfl, rfl, rfl⟩

/-! ## `SET_BAND_COUNT` (R138) -/

section
variable (n : Fin 11) (P : Params) (i : Fin 10)

theorem stageCount_of_grown (h : P.bandCount.val ≤ i.val ∧ i.val < n.val) :
    (stageCount n P).type[i] = .peak ∧ (stageCount n P).freq[i] = defFreq[i] ∧
    (stageCount n P).q[i] = fOne ∧ (stageCount n P).gain[i] = posZero := by
  simp only [stageCount, Fin.getElem_fin, Vector.getElem_ofFn, if_pos h, and_self]

theorem stageCount_of_kept (h : ¬(P.bandCount.val ≤ i.val ∧ i.val < n.val)) :
    (stageCount n P).type[i] = P.type[i] ∧ (stageCount n P).freq[i] = P.freq[i] ∧
    (stageCount n P).q[i] = P.q[i] ∧ (stageCount n P).gain[i] = P.gain[i] := by
  simp only [stageCount, Fin.getElem_fin, Vector.getElem_ofFn, if_neg h, and_self]

end

theorem raiseIf_clampCount_ev (s : State) (n : Int) :
    (s.raiseIf (decide (((clampCount n).val : Int) ≠ n)) .invalidParam).ev =
      if 0 ≤ n ∧ n ≤ 10 then s.ev else s.ev ||| 0x01#7 := by
  rw [State.raiseIf_ev]
  simp only [decide_eq_true_eq, ne_eq, ite_not, clampCount_val_eq_iff, setCond_invalidParam]

/-- Settles O32: the clamp of the count, the condition, and the slots of the store one by one. -/
theorem setBandCountStagesTheCount : Obligations.SetBandCountStagesTheCount := fun s n =>
  ⟨_, rfl, clampCount_val n, raiseIf_clampCount_ev s n, fun i => stageCount_of_grown _ _ i, fun i => stageCount_of_kept _ _ i,
    rfl, rfl, rfl, rfl, raiseIf_withP ..⟩

/-! ## `STATUS` (R30, R139, R140) -/

/-- `EV` as it stands in bits 14:8 of the `STATUS` word. -/
theorem shiftedConds_bit (ev : BitVec 7) {k : Nat} (hk : k < 32) :
    (ev.setWidth 32 <<< 8).getLsbD k = if 8 ≤ k ∧ k ≤ 14 then ev.getLsbD (k - 8) else false := by
  have hin : k - 8 < 32 := by omega
  simp only [BitVec.getLsbD_shiftLeft, BitVec.getLsbD_setWidth, hk, hin, decide_true, Bool.true_and]
  split
  · next hev => simp [hev.1]
  · next hev =>
    by_cases h8 : k < 8
    · simp [h8]
    · rw [BitVec.getLsbD_of_ge ev (k - 8) (by omega), Bool.and_false]

theorem statusWord_bit (ev : BitVec 7) (snapValid prepared : Bool) {k : Nat} (hk : k < 32) :
    (statusWord ev snapValid prepared).getLsbD k =
      if k = 0 then prepared else if k = 1 then snapValid
      else if 8 ≤ k ∧ k ≤ 14 then ev.getLsbD (k - 8) else false := by
  rw [statusWord, BitVec.getLsbD_or, BitVec.getLsbD_or, shiftedConds_bit ev hk]
  match k, hk with
  | 0, _ => simp
  | 1, _ => simp
  | k + 2, hk => simp

theorem clearConds_bit (ev mask : BitVec 7) {k : Nat} (hk : k < 7) :
    (clearConds ev mask).getLsbD k = (ev.getLsbD k && !mask.getLsbD k) := by
  simp [clearConds, hk]

/-- Settles O33, bit by bit of the word and of `EV`. -/
theorem statusIsReadAndCleared : Obligations.StatusIsReadAndCleared := fun s mask =>
  ⟨⟨_, rfl, fun _ hk => statusWord_bit s.ev s.E.snapValid s.E.prepared hk⟩, _, rfl, fun _ hk => clearConds_bit s.ev mask hk⟩

end Sys2Proof.Machine

/-! PROOFS. Block commands (O34 to O36, O44 to O47). -/

namespace Sys2Proof.Machine

/-! ## `PREPARE` (R142, R143) -/

theorem clampNat_eq_max_min {lo hi : Nat} (hle : lo ≤ hi) (v : Nat) : clampNat v lo hi = max lo (min v hi) := by
  unfold clampNat
  split_ifs <;> omega

/-- The clamp keeps exactly the numbers of its range. -/
theorem clampNat_eq_self_iff {v lo hi : Nat} : clampNat v lo hi = v ↔ lo ≤ v ∧ v ≤ hi := by
  unfold clampNat
  split_ifs <;> omega

theorem raiseIf_ev_eq_or (s : State) (b : Bool) (c : Cond) :
    (s.raiseIf b c).ev = s.ev ||| if b = true then condMask c else 0#7 := by
  cases b <;> simp [setCond]

/-- The conditions of `PREPARE`: 1 for a clamped block size or a rate that is no positive finite number, 3 for a new rate of a prepared
stream. -/
theorem raiseIf_prepare_ev (s : State) (maxBlock : Nat) (sr : F32) :
    ((s.raiseIf (clampNat maxBlock 1 s.dims.maxBlockCap != maxBlock || !validRate sr) .invalidParam).raiseIf
        (s.E.prepared && sr != s.E.sr) .rateChange).ev =
      s.ev |||
        (if (1 ≤ maxBlock ∧ maxBlock ≤ s.dims.maxBlockCap) ∧ flt posZero sr = true ∧ sr ≠ posInf then 0x00#7 else 0x01#7) |||
        (if s.E.prepared = true ∧ sr ≠ s.E.sr then 0x04#7 else 0x00#7) := by
  have hone : (clampNat maxBlock 1 s.dims.maxBlockCap != maxBlock || !validRate sr) = true ↔
      ¬((1 ≤ maxBlock ∧ maxBlock ≤ s.dims.maxBlockCap) ∧ flt posZero sr = true ∧ sr ≠ posInf) := by
    rw [← clampNat_eq_self_iff, ← validRate_iff]
    simp [imp_iff_not_or]
  have hthree : (s.E.prepared && sr != s.E.sr) = true ↔ s.E.prepared = true ∧ sr ≠ s.E.sr := by simp
  simp only [raiseIf_ev_eq_or, hone, hthree, ite_not]
  rfl

/-- `PREPARE` sets `E` and the band state, empties `CAP`, and keeps the conditions raised before it and everything else. -/
theorem prepareState_raiseIf_raiseIf (mb : Nat) (sr : F32) (s : State) (b d : Bool) (c e : Cond) :
    prepareState mb sr ((s.raiseIf b c).raiseIf d e) = { s with
      E := { s.E with prepared := true, sr := sr, maxBlk := mb, activeCount := 0, wp := 0, snapValid := false },
      bands := { s.bands with valid := Vector.replicate 10 false, fs := [] },
      mem := s.mem.set .cap [], ev := ((s.raiseIf b c).raiseIf d e).ev } := by
  cases b <;> cases d <;> rfl

/-- An emptied `CAP` reads as `+0.0` everywhere (R37), and the other spaces as before. -/
theorem memRead_of_cap_emptied {s t : State} (h : t.mem = s.mem.set .cap []) (sp : Space) (k : Nat) :
    memRead t sp k = if sp = .cap then some posZero else memRead s sp k := by
  rw [memRead, h, Mems.get_set]
  split
  · next hsp => rw [hsp]; rfl
  · rfl

/-- Settles O34: the conditions by their causes, and the update field by field. -/
theorem prepareStartsTheStream : Obligations.PrepareStartsTheStream := by
  intro s maxBlock sr hd
  obtain ⟨-, ⟨hcap, -⟩, -⟩ := hd
  have hexec : exec (.prepare maxBlock sr) s = _ := congrArg Host.Outcome.next (prepareState_raiseIf_raiseIf ..)
  rw [raiseIf_prepare_ev, clampNat_eq_max_min hcap] at hexec
  refine ⟨_, hexec, rfl, fun i => ?_, fun _ _ => rfl, rfl, rfl, fun j => ?_, fun sp k hsp => ?_, rfl, rfl, rfl, rfl, rfl, rfl, rfl⟩
  · exact Vector.getElem_replicate i.isLt
  · exact (memRead_of_cap_emptied rfl .cap j).trans (if_pos rfl)
  · exact (memRead_of_cap_emptied rfl sp k).trans (if_neg hsp)

/-! ## `PROCESS` that takes no step of a block (R144, R147) -/

section
variable {s : State} {C ns : Nat}

theorem raise_blockRejected (s : State) : s.raise .blockRejected = { s with ev := s.ev ||| 0x10#7 } := rfl

theorem execProcess_of_oversize
    (h : s.dims.maxChannels < C ∨ s.dims.maxBlockCap < ns ∨ (s.E.prepared = true ∧ s.E.maxBlk < ns)) :
    execProcess C ns s = .next (s.raise .blockRejected) := by
  unfold execProcess
  split
  · rfl
  · next hfits =>
    obtain ⟨hprep, hmax⟩ : s.E.prepared = true ∧ s.E.maxBlk < ns := by tauto
    rw [hprep, if_neg (by decide), if_pos hmax]

theorem passThrough_of_fed (h : blockFed s C ns) :
    passThrough C ns s = .next ((forChannels (fun c => copyThrough c ns) C s).raise .unprepared) := by
  rw [passThrough, firstUnwritten_eq_none.2 h]

/-- The copy of a block's channels changes the memories only. -/
theorem forChannels_copyThrough_frame (C ns : Nat) (s : State) :
    forChannels (fun c => copyThrough c ns) C s = { s with mem := (forChannels (fun c => copyThrough c ns) C s).mem } :=
  forChannels_keeps (State.withMem · (forChannels (fun c => copyThrough c ns) C s).mem) (fun c => copyThrough c ns)
    (fun _ _ => rfl) C s

/-- A word of the block is copied from `IN` to `OUT`. -/
theorem memRead_out_forChannels_copyThrough (hns : ns ≤ 65536) {c k : Nat} (hc : c < C) (hk : k < ns) :
    memRead (forChannels (fun c => copyThrough c ns) C s) .out (sampleIx c k) = some (inWord s c k) := by
  rw [memRead_forChannels_sampleIx (f := fun c => copyThrough c ns) (row := fun c t => inRow t c ns) hns (fun _ _ => rfl)
    (fun _ _ => inRow_length ..) hc hk, inRow_of_inp_eq c (forChannels_copyThrough_inp c ns s), inRow_getElem? s c hk]

theorem memRead_forChannels_copyThrough_of_outside (hns : ns ≤ 65536) {sp : Space} {j : Nat}
    (h : sp = .out → ∀ c k, c < C → k < ns → j ≠ sampleIx c k) :
    memRead (forChannels (fun c => copyThrough c ns) C s) sp j = memRead s sp j :=
  memRead_forChannels_of_outside (row := fun c t => inRow t c ns) hns (fun _ _ => rfl) (fun _ _ => inRow_length ..) s h

end

/-- Settles O36: the pass-through is the copy of the channels, and then condition 2. -/
theorem unpreparedBlockPassesThrough : Obligations.UnpreparedBlockPassesThrough := by
  intro s C n hd hC hn hprep hfed
  obtain ⟨-, ⟨-, hcap⟩, -⟩ := hd
  have hexec : exec (.process C n) s = _ := (execProcess_of_unprepared hC hn hprep).trans (passThrough_of_fed hfed)
  have hn : n ≤ 65536 := by omega
  refine ⟨_, hexec, fun c k hc hk => ?_, fun j hj => ?_, fun sp j hsp => ?_, ?_⟩
  · exact (memRead_out_forChannels_copyThrough hn hc hk).trans (memRead_inp_of_fed hfed hc hk).symm
  · exact memRead_forChannels_copyThrough_of_outside hn fun _ => hj
  · exact memRead_forChannels_copyThrough_of_outside hn fun hout => absurd hout hsp
  · exact congrArg (State.raise · .unprepared) (forChannels_copyThrough_frame C n s)

/-- Settles O35: the block fails the check of the memories, or, prepared, the one of `E.MAXBLK`. -/
theorem oversizeBlockIsRejected : Obligations.OversizeBlockIsRejected := fun s _ _ h => by
  rw [← raise_blockRejected]
  exact execProcess_of_oversize h

/-! ## `RESET` (R148) -/

section
variable {s : State} {target : ResetTarget}

theorem execReset_of_valid (h : resetValid s.dims target = true) :
    execReset target s = .next (s.withBands { s.bands with fs := fsZero s.bands.fs fun _ c => resetHits target c }) := if_pos h

theorem execReset_of_noChannel {c : Nat} (h : s.dims.maxChannels ≤ c) :
    execReset (.channel c) s = .next (s.raise .invalidParam) :=
  if_neg (by simpa [resetValid] using h)

end

/-- Settles O44: what is left of a delay register after zeroing, by whether its channel is selected. -/
theorem resetZeroesTheSelectedChannels : Obligations.ResetZeroesTheSelectedChannels := by
  refine fun s => ⟨⟨_, execReset_of_valid rfl, fun i c hc => ?_, rfl⟩,
    fun c hc _ => ⟨_, execReset_of_valid (decide_eq_true hc), fun i d hd => ?_, rfl⟩, fun c hc => execReset_of_noChannel hc⟩
  · rw [State.withBands_bands, fsGet_fsZero s.bands.fs _ hc]
    exact if_pos rfl
  · rw [State.withBands_bands, fsGet_fsZero s.bands.fs _ hd]
    simp only [resetHits, beq_iff_eq]

/-! ## The sample memories (R149, R150) -/

section
variable {d : Dims} {c n : Nat}

theorem sampleInRange_of_lt (hc : c < d.maxChannels) (hn : n < d.maxBlockCap) : sampleInRange d c n = true := by
  simp [sampleInRange, hc, hn]

theorem not_sampleInRange_of_ge (h : d.maxChannels ≤ c ∨ d.maxBlockCap ≤ n) : ¬ sampleInRange d c n = true := by
  simpa [sampleInRange, imp_iff_not_or] using h

end

/-- Settles O45: a read after the one write, or the index outside `IN`. -/
theorem writeInStoresOneWord : Obligations.WriteInStoresOneWord := by
  refine fun s c n v => ⟨fun hc hn => ⟨_, if_pos (sampleInRange_of_lt hc hn), ?_, fun sp j hj => ?_, rfl⟩,
    fun h => if_neg (not_sampleInRange_of_ge h)⟩
  · rw [memRead_memWrite, if_pos ⟨rfl, rfl⟩]
  · rw [memRead_memWrite, if_neg (not_and_or.2 hj)]

section
variable {s : State} {c n : Nat} (h : sampleInRange s.dims c n = true)
include h

theorem execReadOut_of_written {v : F32} (hv : memRead s .out (sampleIx c n) = some v) :
    execReadOut c n s = .next (s.respond .audio [v]) := by
  rw [execReadOut, if_pos h, hv]

theorem execReadOut_of_unwritten (hnone : memRead s .out (sampleIx c n) = none) :
    execReadOut c n s = .fault (.unwrittenOut c n) := by
  rw [execReadOut, if_pos h, hnone]

end

/-- Settles O46: the word is written, or not, or the index lies outside `OUT`. -/
theorem readOutAnswersTheWord : Obligations.ReadOutAnswersTheWord := fun _ _ _ =>
  ⟨fun hc hn => ⟨fun _ => execReadOut_of_written (sampleInRange_of_lt hc hn), execReadOut_of_unwritten (sampleInRange_of_lt hc hn)⟩,
    fun h => if_neg (not_sampleInRange_of_ge h)⟩

/-! ## The debug reads (R151, R152) -/

section
variable {s : State} {band : Nat}

theorem execReadState_of_inRange {ch : Nat} (tap : Tap) (hband : band < 10) (hch : ch < s.dims.maxChannels) :
    execReadState band ch tap s = .next (s.respond .audio [fsRead s band ch tap]) := if_pos ⟨hband, hch⟩

theorem execReadState_of_outside {ch : Nat} (tap : Tap) (h : 10 ≤ band ∨ s.dims.maxChannels ≤ ch) :
    execReadState band ch tap s = .next (readOutside s) :=
  if_neg (not_and_or.2 (h.imp Nat.not_lt.2 Nat.not_lt.2))

/-- A selector below 5 names a register of the band, in the order of R152. -/
theorem coefSelect_of_lt (c : Coef) {k : Nat} (hk : k < 5) :
    coefSelect c k = some ([c.b0, c.b1, c.b2, c.a1, c.a2].getD k 0#32) := by
  interval_cases k <;> rfl

theorem coefSelect_of_ge (c : Coef) {k : Nat} (hk : 5 ≤ k) : coefSelect c k = none := by
  obtain ⟨j, rfl⟩ := Nat.exists_eq_add_of_le' hk
  rfl

theorem execReadCoef_of_inRange {k : Nat} (hband : band < 10) (hk : k < 5) :
    execReadCoef band k s = .next (s.respond .audio
      [[s.bands.coef[band].b0, s.bands.coef[band].b1, s.bands.coef[band].b2, s.bands.coef[band].a1, s.bands.coef[band].a2].getD
        k 0#32]) := by
  rw [execReadCoef, bandSlot_of_lt hband]
  simp only [coefSelect_of_lt _ hk, Fin.getElem_fin]

theorem execReadCoef_of_outside {k : Nat} (h : 10 ≤ band ∨ 5 ≤ k) : execReadCoef band k s = .next (readOutside s) := by
  unfold execReadCoef
  split
  · rfl
  · next i hslot =>
    obtain hband | hk := h
    · simp [bandSlot_of_ge hband] at hslot
    · rw [coefSelect_of_ge _ hk]

end

/-- Settles O47: each read inside its range and outside. -/
theorem debugReadsAnswerTheRegister : Obligations.DebugReadsAnswerTheRegister := fun _ _ _ _ =>
  ⟨fun hband hch => ⟨execReadState_of_inRange .z1 hband hch, execReadState_of_inRange .z2 hband hch⟩,
    fun h tap => execReadState_of_outside tap h, execReadCoef_of_inRange, execReadCoef_of_outside⟩

end Sys2Proof.Machine

/-! PROOFS. `GET_SPECTRUM` (O50). -/

namespace Sys2Proof.Machine

section
variable {s : State}

/-! ## The two answers of `GET_SPECTRUM` (R155, R156) -/

/-- An underrun's response and its condition lie in different fields, so their order does not matter. -/
theorem execGetSpectrum_of_noSnapshot (hv : s.E.snapValid = false) :
    execGetSpectrum s = .next ((s.raise .analyzerUnderrun).respond .disp [0#32]) := by
  rw [execGetSpectrum, hv, if_neg Bool.false_ne_true]
  rfl

theorem execGetSpectrum_of_snapshot (hv : s.E.snapValid = true) :
    execGetSpectrum s = .next (s.respond .disp (snapshotWords s)) := by
  rw [execGetSpectrum, if_pos hv]

theorem specWord_of_written {k : Nat} {v : F32} (hw : memRead s .spec k = some v) : specWord s k = v := by
  rw [specWord, hw, Option.getD_some]

end

/-- Settles O50, a clause per answer: the bins are the words of `SPEC` in increasing order. -/
theorem getSpectrumAnswersTheSnapshot : Obligations.GetSpectrumAnswersTheSnapshot := by
  refine fun s => ⟨execGetSpectrum_of_noSnapshot, fun hv => ⟨_, execGetSpectrum_of_snapshot hv, ?_, fun k v hk hw => ?_⟩⟩
  · rw [List.length_map, List.length_range]
  · rw [List.getElem?_map, List.getElem?_range hk, Option.map_some, specWord_of_written hw]

end Sys2Proof.Machine

/-! PROOFS. The sticky conditions, and the words the spec writes out (O5, O54). -/

namespace Sys2Proof.Machine

/-! ## Words of the spec's examples (R53, R54) -/

/-- Settles O5, word by word. -/
theorem wordsOfTheSpecDecode : Obligations.WordsOfTheSpecDecode := by
  unfold Obligations.WordsOfTheSpecDecode
  and_intros <;> decide

/-! ## Conditions that stay set (R159) -/

/-- No condition set in `s` is clear in `t`. -/
def keepsConds (s t : State) : Prop := ∀ k : Nat, s.ev.getLsbD k = true → t.ev.getLsbD k = true

theorem keepsConds_of_ev {s t : State} (h : t.ev = s.ev) : keepsConds s t := fun _ hk => h ▸ hk

theorem keepsConds.trans {s t u : State} (hst : keepsConds s t) (htu : keepsConds t u) : keepsConds s u :=
  fun k hk => htu k (hst k hk)

theorem keepsConds_raise (s : State) (c : Cond) : keepsConds s (s.raise c) := fun k hk => by
  simp [setCond, hk]

theorem keepsConds_raiseIf (s : State) (b : Bool) (c : Cond) : keepsConds s (s.raiseIf b c) := by
  cases b
  · exact keepsConds_of_ev rfl
  · exact keepsConds_raise s c

theorem keepsConds_bandWrite (put : Params → Fin 10 → F32 → Params) (idx : Nat) (v lo hi : F32) (s : State) :
    keepsConds s (bandWrite put idx v lo hi s) := by
  obtain ⟨P, e, hwrite, hkeeps⟩ := bandWrite_frame put idx v lo hi s
  rw [hwrite]
  exact hkeeps

/-- The answer of a read outside its space raises condition 1 first (R39). -/
theorem keepsConds_readOutside (s : State) : keepsConds s (readOutside s) := keepsConds_raise s .invalidParam

section
variable {s t : State}

/-- The steps of a block raise no condition. -/
theorem blockStep_ev {j : Job} (h : blockStep j s = .next t) : t.ev = s.ev := by
  rcases blockStep_next h with ⟨f, todo, -, rfl⟩ | ⟨-, -, rfl⟩ | ⟨n, v, -, -, rfl⟩
  · simp [snapshotStep]
  · simp
  · simp [captureStep]

theorem forChannels_copyThrough_ev (C ns : Nat) (s : State) : (forChannels (fun c => copyThrough c ns) C s).ev = s.ev :=
  forChannels_keeps State.ev (fun c => copyThrough c ns) (fun _ _ => rfl) C s

theorem execProcess_keepsConds {C ns : Nat} (h : execProcess C ns s = .next t) : keepsConds s t := by
  rcases execProcess_next h with rfl | ⟨-, -, -, -, rfl⟩ | ⟨-, f, todo, -, rfl⟩
  · exact keepsConds_raise s _
  · exact (keepsConds_of_ev (forChannels_copyThrough_ev C ns s)).trans (keepsConds_raise _ _)
  · exact keepsConds_of_ev (by simp [snapshotStep])

theorem execAnalyze_keepsConds (h : execAnalyze s = .next t) : keepsConds s t := by
  unfold execAnalyze at h
  split at h
  · split at h <;> cases h
    · exact (keepsConds_of_ev s.takeDrop_ev).trans (keepsConds_raise _ _)
    · exact keepsConds_of_ev (by simp [publish])
  · cases h
    exact keepsConds_of_ev rfl

/-- Every command but `CLEAR_STATUS` changes `EV` by raising conditions only (R159). -/
theorem exec_keepsConds {i : Instr} (hi : ∀ mask, i ≠ .clearStatus mask) (h : exec i s = .next t) : keepsConds s t := by
  cases i with
  | nop => cases h; exact keepsConds_of_ev rfl
  | setBandType band code =>
    simp only [exec, execSetBandType] at h
    split at h <;> cases h
    · exact keepsConds_of_ev rfl
    · exact keepsConds_raise s _
  | setBandFreq band v => cases h; exact keepsConds_bandWrite _ _ _ _ _ s
  | setBandQ band v => cases h; exact keepsConds_bandWrite _ _ _ _ _ s
  | setBandGain band v => cases h; exact keepsConds_bandWrite _ _ _ _ _ s
  | setGlobalGain v =>
    simp only [exec, execSetGlobalGain] at h
    split at h <;> cases h
    · exact keepsConds_raise s _
    · exact keepsConds_of_ev rfl
  | setMix v =>
    simp only [exec, execSetMix] at h
    split at h <;> cases h
    · exact keepsConds_raise s _
    · exact keepsConds_raiseIf s _ _
  | setBypass v => cases h; exact keepsConds_of_ev rfl
  | setAnalyzerEn v => cases h; exact keepsConds_of_ev rfl
  | setBandCount n => cases h; exact keepsConds_raiseIf s _ _
  | getStatus => cases h; exact keepsConds_of_ev rfl
  | clearStatus mask => exact absurd rfl (hi mask)
  | prepare mb sr => cases h; exact (keepsConds_raiseIf s _ _).trans (keepsConds_raiseIf _ _ _)
  | process C ns => exact execProcess_keepsConds h
  | reset target =>
    rcases execReset_next h with rfl | ⟨sel, rfl⟩
    · exact keepsConds_raise s _
    · exact keepsConds_of_ev rfl
  | writeIn ch n v =>
    rcases execWriteIn_next h with rfl | ⟨-, -, rfl⟩
    · exact keepsConds_raise s _
    · exact keepsConds_of_ev rfl
  | readOut ch n =>
    simp only [exec, execReadOut] at h
    split at h
    · split at h <;> cases h
      exact keepsConds_of_ev rfl
    · cases h
      exact keepsConds_readOutside s
  | readState band ch tap =>
    simp only [exec, execReadState] at h
    split at h <;> cases h
    · exact keepsConds_of_ev rfl
    · exact keepsConds_readOutside s
  | readCoef band k =>
    simp only [exec, execReadCoef] at h
    split at h
    · cases h
      exact keepsConds_readOutside s
    · split at h <;> cases h
      · exact keepsConds_readOutside s
      · exact keepsConds_of_ev rfl
  | analyze => exact execAnalyze_keepsConds h
  | getSpectrum =>
    simp only [exec, execGetSpectrum] at h
    split at h <;> cases h
    · exact keepsConds_of_ev rfl
    · exact keepsConds_raise s .analyzerUnderrun

/-- A port's step that does not execute `CLEAR_STATUS` keeps every condition set. -/
theorem portStep_keepsConds {p : Port} (h : portStep p s = .next t) (hi : ∀ mask, nextCommand p s ≠ some (.clearStatus mask)) :
    keepsConds s t := by
  rcases portStep_next h with ⟨j, -, -, hblock⟩ | rfl | ⟨w, rest, -, -, -, ⟨-, rfl⟩ | ⟨i, -, hnext, hexec⟩⟩
  · exact keepsConds_of_ev (blockStep_ev hblock)
  · exact keepsConds_of_ev rfl
  · exact keepsConds_raise s .illegalCmd
  · have hne : ∀ mask, i ≠ .clearStatus mask := fun mask hclear => hi mask (hclear ▸ hnext)
    have hkeeps : keepsConds (s.setStream p rest) t := exec_keepsConds hne hexec
    exact hkeeps

end

/-- Settles O54: what a port's step keeps, bit by bit. -/
theorem onlyClearStatusClearsConditions : Obligations.OnlyClearStatusClearsConditions := fun _ _ _ k h hi =>
  portStep_keepsConds h hi k

end Sys2Proof.Machine
